-- ==== Sys2Proof/Word.lean ====
section
/-! DEFINITION. The value types of `00_scope.md` R9: `u8` and `u16`. Only the types stand here; the
zero and sign extensions and the byte order are in `Decode.lean` and `Machine/Operands.lean`. -/

namespace Sys2Proof

/-- `u8`: an unsigned 8-bit value (R9). Additions and subtractions on it are `+8` and `-8`. -/
abbrev Byte := BitVec 8

/-- `u16`: an unsigned 16-bit value (R9). Additions on it are `+16`. -/
abbrev Word := BitVec 16

end Sys2Proof
end

