-- ==== Sys2Proof/Syntax.lean ====
section
/-! DEFINITION. Instructions as syntax: one constructor for each of the 34 rows of `spec/opcode_table.json`
(`30_encoding.md` R104), with the operand the addressing mode assembles (R102); and one for each of the twelve handlers in a
mode that the default table does not pair it with, which another `INSTR_TABLE` may (`00_scope.md` R7). -/

namespace Sys2Proof

/-- The thirteen addressing modes (`30_encoding.md` R103). `accumulator` is defined by the source's mode
table and used by no row (R109). -/
inductive Mode where
  | implied | accumulator | immediate
  | zeroPage | zeroPageX | zeroPageY
  | absolute | absoluteX | absoluteY
  | relative | indirect | indexedIndirect | indirectIndexed
  deriving DecidableEq, Repr

/-- The three formats: an opcode byte and 0, 1 or 2 operand bytes (`30_encoding.md` R101). -/
inductive Format where
  | f1 | f2 | f3
  deriving DecidableEq, Repr

/-- The twelve mnemonics, each naming one handler (`00_scope.md` R2). -/
inductive Mnemonic where
  | lda | ldx | ldy | sta | inx | iny | dex | dey | txs | jmp | bne | sei
  deriving DecidableEq, Repr

/-- An instruction of the table: mnemonic and mode in the constructor's name, the operand as its argument.
A byte operand is an immediate value, a zero-page address, a zero-page pointer or a branch offset; a word
operand is the address the two little-endian operand bytes form (`30_encoding.md` R102, R104).
The last twelve are the handlers in any other mode `m`, whose operand `w` is the one operand byte, zero-extended, or the word
of two (`00_scope.md` R7, `10_state.md` R29). -/
inductive Instr where
  | ldaImm (v : Byte)
  | ldaZp (b : Byte)
  | ldaZpX (b : Byte)
  | ldaAbs (w : Word)
  | ldaAbsX (w : Word)
  | ldaAbsY (w : Word)
  | ldaIndX (b : Byte)
  | ldaIndY (b : Byte)
  | ldxImm (v : Byte)
  | ldxZp (b : Byte)
  | ldxZpY (b : Byte)
  | ldxAbs (w : Word)
  | ldxAbsY (w : Word)
  | ldyImm (v : Byte)
  | ldyZp (b : Byte)
  | ldyZpX (b : Byte)
  | ldyAbs (w : Word)
  | ldyAbsX (w : Word)
  | staZp (b : Byte)
  | staZpX (b : Byte)
  | staAbs (w : Word)
  | staAbsX (w : Word)
  | staAbsY (w : Word)
  | staIndX (b : Byte)
  | staIndY (b : Byte)
  | inx
  | iny
  | dex
  | dey
  | txs
  | jmpAbs (w : Word)
  | jmpInd (w : Word)
  | bne (offset : Byte)
  | sei
  | ldaMode (m : Mode) (w : Word)
  | ldxMode (m : Mode) (w : Word)
  | ldyMode (m : Mode) (w : Word)
  | staMode (m : Mode) (w : Word)
  | inxMode (m : Mode) (w : Word)
  | inyMode (m : Mode) (w : Word)
  | dexMode (m : Mode) (w : Word)
  | deyMode (m : Mode) (w : Word)
  | txsMode (m : Mode) (w : Word)
  | jmpMode (m : Mode) (w : Word)
  | bneMode (m : Mode) (w : Word)
  | seiMode (m : Mode) (w : Word)
  deriving DecidableEq, Repr

/-- A non-empty entry of the instruction table: "a triple of {handler reference, addressing mode, base cycle count}"
under its opcode (`10_state.md` R29). The handler reference is the mnemonic. -/
structure Entry where
  opcode : Byte
  mnemonic : Mnemonic
  mode : Mode
  cycles : Nat
  deriving DecidableEq, Repr

/-- `INSTR_TABLE`, by its non-empty entries; an opcode that none of them has is an empty entry (`00_scope.md` R7). -/
abbrev Table := List Entry

end Sys2Proof
end

