-- ==== Sys2Proof/WellFormed.lean ====
section
/-! DEFINITION. What counts as a well-formed instruction and as a well-formed instruction table. -/

namespace Sys2Proof

/-- The default table pairs the mnemonic with the mode (`30_encoding.md` R104), so that a constructor of its own stands
for the pair. -/
def defaultPair : Mnemonic → Mode → Bool
  | .lda, m => [.immediate, .zeroPage, .zeroPageX, .absolute, .absoluteX, .absoluteY, .indexedIndirect,
      .indirectIndexed].contains m
  | .ldx, m => [.immediate, .zeroPage, .zeroPageY, .absolute, .absoluteY].contains m
  | .ldy, m => [.immediate, .zeroPage, .zeroPageX, .absolute, .absoluteX].contains m
  | .sta, m => [.zeroPage, .zeroPageX, .absolute, .absoluteX, .absoluteY, .indexedIndirect, .indirectIndexed].contains m
  | .inx, m | .iny, m | .dex, m | .dey, m | .txs, m | .sei, m => m == .implied
  | .jmp, m => [.absolute, .indirect].contains m
  | .bne, m => m == .relative

/-- The operand fits the mode: no operand, or one that nothing reads, is 0, and one operand byte is below 256
(`30_encoding.md` R103). A handler outside the default pairs that takes an Immediate is no load, so it reads no operand byte. -/
def Mode.operandFits : Mode → Word → Bool
  | .implied, w | .accumulator, w | .immediate, w => w == 0
  | .zeroPage, w | .zeroPageX, w | .zeroPageY, w | .relative, w | .indexedIndirect, w | .indirectIndexed, w =>
    decide (w.toNat < 256)
  | .absolute, _ | .absoluteX, _ | .absoluteY, _ | .indirect, _ => true

/-- A handler in a mode is well formed outside the default pairs only, with an operand that fits the mode. -/
def modeWf (h : Mnemonic) (m : Mode) (w : Word) : Bool := !defaultPair h m && m.operandFits w

/-- An instruction of the default table is always well formed: "no operand value that is illegal: every operand byte value
0x00 to 0xFF is accepted by every mode" (`30_encoding.md` R106), and the operand types are exactly that wide. -/
def Instr.wf : Instr → Bool
  | .ldaMode m w => modeWf .lda m w
  | .ldxMode m w => modeWf .ldx m w
  | .ldyMode m w => modeWf .ldy m w
  | .staMode m w => modeWf .sta m w
  | .inxMode m w => modeWf .inx m w
  | .inyMode m w => modeWf .iny m w
  | .dexMode m w => modeWf .dex m w
  | .deyMode m w => modeWf .dey m w
  | .txsMode m w => modeWf .txs m w
  | .jmpMode m w => modeWf .jmp m w
  | .bneMode m w => modeWf .bne m w
  | .seiMode m w => modeWf .sei m w
  | .ldaImm _ | .ldaZp _ | .ldaZpX _ | .ldaAbs _ | .ldaAbsX _ | .ldaAbsY _ | .ldaIndX _ | .ldaIndY _
  | .ldxImm _ | .ldxZp _ | .ldxZpY _ | .ldxAbs _ | .ldxAbsY _
  | .ldyImm _ | .ldyZp _ | .ldyZpX _ | .ldyAbs _ | .ldyAbsX _
  | .staZp _ | .staZpX _ | .staAbs _ | .staAbsX _ | .staAbsY _ | .staIndX _ | .staIndY _
  | .inx | .iny | .dex | .dey | .txs | .jmpAbs _ | .jmpInd _ | .bne _ | .sei => true

/-- "at most one table entry per opcode value": a table built from a list with two rows for one opcode is
refused (`10_state.md` R29, `90_conflicts.md` C9). -/
def tableWf : Table → Bool
  | [] => true
  | e :: rest => rest.all (fun e' => e'.opcode != e.opcode) && tableWf rest

end Sys2Proof
end

