-- ==== Sys2Proof/Decode.lean ====
section
/-! DEFINITION. The default instruction table, and the decoder and the encoder of any table (`30_encoding.md`). The opcode
values, the pairings of a mnemonic with a mode and the base cycle counts of the default are those of R104. -/

namespace Sys2Proof

/-- `hi:lo`, the word whose low byte is `lo` (`00_scope.md` R9; little-endian operands, `20_memory.md` R75). -/
def wordOfBytes (lo hi : Byte) : Word := hi ++ lo

/-- Bits 7 to 0 of a word. -/
def lowByte (w : Word) : Byte := w.setWidth 8

/-- Bits 15 to 8 of a word. -/
def highByte (w : Word) : Byte := (w >>> 8).setWidth 8

/-- The format of a mode (`30_encoding.md` R103). -/
def Mode.format : Mode → Format
  | .implied | .accumulator => .f1
  | .immediate | .zeroPage | .zeroPageX | .zeroPageY | .relative | .indexedIndirect | .indirectIndexed => .f2
  | .absolute | .absoluteX | .absoluteY | .indirect => .f3

/-- How many operand bytes a format has (`30_encoding.md` R101). -/
def Format.operandBytes : Format → Nat
  | .f1 => 0
  | .f2 => 1
  | .f3 => 2

/-- The rows of `30_encoding.md` R104 for LDA (handler rule R150). -/
def tableLda : Table := [
  ⟨0xA9, .lda, .immediate, 2⟩,
  ⟨0xA5, .lda, .zeroPage, 3⟩,
  ⟨0xB5, .lda, .zeroPageX, 4⟩,
  ⟨0xAD, .lda, .absolute, 4⟩,
  ⟨0xBD, .lda, .absoluteX, 4⟩,
  ⟨0xB9, .lda, .absoluteY, 4⟩,
  ⟨0xA1, .lda, .indexedIndirect, 6⟩,
  ⟨0xB1, .lda, .indirectIndexed, 5⟩]

/-- The rows of `30_encoding.md` R104 for LDX (handler rule R151). -/
def tableLdx : Table := [
  ⟨0xA2, .ldx, .immediate, 2⟩,
  ⟨0xA6, .ldx, .zeroPage, 3⟩,
  ⟨0xB6, .ldx, .zeroPageY, 4⟩,
  ⟨0xAE, .ldx, .absolute, 4⟩,
  ⟨0xBE, .ldx, .absoluteY, 4⟩]

/-- The rows of `30_encoding.md` R104 for LDY (handler rule R152). -/
def tableLdy : Table := [
  ⟨0xA0, .ldy, .immediate, 2⟩,
  ⟨0xA4, .ldy, .zeroPage, 3⟩,
  ⟨0xB4, .ldy, .zeroPageX, 4⟩,
  ⟨0xAC, .ldy, .absolute, 4⟩,
  ⟨0xBC, .ldy, .absoluteX, 4⟩]

/-- The rows of `30_encoding.md` R104 for STA (handler rule R153). -/
def tableSta : Table := [
  ⟨0x85, .sta, .zeroPage, 3⟩,
  ⟨0x95, .sta, .zeroPageX, 4⟩,
  ⟨0x8D, .sta, .absolute, 4⟩,
  ⟨0x9D, .sta, .absoluteX, 5⟩,
  ⟨0x99, .sta, .absoluteY, 5⟩,
  ⟨0x81, .sta, .indexedIndirect, 6⟩,
  ⟨0x91, .sta, .indirectIndexed, 6⟩]

/-- The rows of `30_encoding.md` R104 for the register instructions (handler rules R160 to R164). -/
def tableRegister : Table := [
  ⟨0xE8, .inx, .implied, 2⟩,
  ⟨0xC8, .iny, .implied, 2⟩,
  ⟨0xCA, .dex, .implied, 2⟩,
  ⟨0x88, .dey, .implied, 2⟩,
  ⟨0x9A, .txs, .implied, 2⟩]

/-- The rows of `30_encoding.md` R104 for control transfer and SEI (handler rules R170 to R172). -/
def tableControl : Table := [
  ⟨0x4C, .jmp, .absolute, 3⟩,
  ⟨0x6C, .jmp, .indirect, 5⟩,
  ⟨0xD0, .bne, .relative, 2⟩,
  ⟨0x78, .sei, .implied, 2⟩]

/-- The default `INSTR_TABLE`, 34 rows (`30_encoding.md` R104). -/
def instrTable : Table :=
  tableLda ++ tableLdx ++ tableLdy ++ tableSta ++ tableRegister ++ tableControl

/-- `INSTR_TABLE[op]`: "one lookup of the full opcode byte" (`40_fetch_decode_dispatch.md` R122); `none` is an
empty entry, an illegal opcode. -/
def lookup (t : Table) (op : Byte) : Option Entry := t.find? (fun e => e.opcode == op)

/-- The handlers that read the bus at the effective address: LDA, LDX and LDY (`41_load_store.md` R150 to R152). -/
def Mnemonic.loads : Mnemonic → Bool
  | .lda | .ldx | .ldy => true
  | .sta | .inx | .iny | .dex | .dey | .txs | .jmp | .bne | .sei => false

/-- A step of this handler in this two-byte mode reads the operand byte: resolution does in every mode but Immediate, and
there the handler does if it is a load (`40_fetch_decode_dispatch.md` R126 to R136). -/
def readsOperand (h : Mnemonic) (m : Mode) : Bool := m != .immediate || h.loads

/-- The operand of a handler outside the default pairs, from the operand bytes; one that nothing reads is 0
(`30_encoding.md` R102). -/
def operandOf (m : Mode) (lo hi : Byte) : Word :=
  if m = .immediate then 0
  else
    match m.format with
    | .f1 => 0
    | .f2 => lo.setWidth 16
    | .f3 => wordOfBytes lo hi

/-- The instruction of a handler and a mode from the first operand byte and the second; an absent one is not looked at
(`30_encoding.md` R102). -/
def build : Mnemonic → Mode → Byte → Byte → Instr
  | .lda, .immediate, b, _ => .ldaImm b
  | .lda, .zeroPage, b, _ => .ldaZp b
  | .lda, .zeroPageX, b, _ => .ldaZpX b
  | .lda, .absolute, lo, hi => .ldaAbs (wordOfBytes lo hi)
  | .lda, .absoluteX, lo, hi => .ldaAbsX (wordOfBytes lo hi)
  | .lda, .absoluteY, lo, hi => .ldaAbsY (wordOfBytes lo hi)
  | .lda, .indexedIndirect, b, _ => .ldaIndX b
  | .lda, .indirectIndexed, b, _ => .ldaIndY b
  | .ldx, .immediate, b, _ => .ldxImm b
  | .ldx, .zeroPage, b, _ => .ldxZp b
  | .ldx, .zeroPageY, b, _ => .ldxZpY b
  | .ldx, .absolute, lo, hi => .ldxAbs (wordOfBytes lo hi)
  | .ldx, .absoluteY, lo, hi => .ldxAbsY (wordOfBytes lo hi)
  | .ldy, .immediate, b, _ => .ldyImm b
  | .ldy, .zeroPage, b, _ => .ldyZp b
  | .ldy, .zeroPageX, b, _ => .ldyZpX b
  | .ldy, .absolute, lo, hi => .ldyAbs (wordOfBytes lo hi)
  | .ldy, .absoluteX, lo, hi => .ldyAbsX (wordOfBytes lo hi)
  | .sta, .zeroPage, b, _ => .staZp b
  | .sta, .zeroPageX, b, _ => .staZpX b
  | .sta, .absolute, lo, hi => .staAbs (wordOfBytes lo hi)
  | .sta, .absoluteX, lo, hi => .staAbsX (wordOfBytes lo hi)
  | .sta, .absoluteY, lo, hi => .staAbsY (wordOfBytes lo hi)
  | .sta, .indexedIndirect, b, _ => .staIndX b
  | .sta, .indirectIndexed, b, _ => .staIndY b
  | .inx, .implied, _, _ => .inx
  | .iny, .implied, _, _ => .iny
  | .dex, .implied, _, _ => .dex
  | .dey, .implied, _, _ => .dey
  | .txs, .implied, _, _ => .txs
  | .jmp, .absolute, lo, hi => .jmpAbs (wordOfBytes lo hi)
  | .jmp, .indirect, lo, hi => .jmpInd (wordOfBytes lo hi)
  | .bne, .relative, b, _ => .bne b
  | .sei, .implied, _, _ => .sei
  | .lda, m, lo, hi => .ldaMode m (operandOf m lo hi)
  | .ldx, m, lo, hi => .ldxMode m (operandOf m lo hi)
  | .ldy, m, lo, hi => .ldyMode m (operandOf m lo hi)
  | .sta, m, lo, hi => .staMode m (operandOf m lo hi)
  | .inx, m, lo, hi => .inxMode m (operandOf m lo hi)
  | .iny, m, lo, hi => .inyMode m (operandOf m lo hi)
  | .dex, m, lo, hi => .dexMode m (operandOf m lo hi)
  | .dey, m, lo, hi => .deyMode m (operandOf m lo hi)
  | .txs, m, lo, hi => .txsMode m (operandOf m lo hi)
  | .jmp, m, lo, hi => .jmpMode m (operandOf m lo hi)
  | .bne, m, lo, hi => .bneMode m (operandOf m lo hi)
  | .sei, m, lo, hi => .seiMode m (operandOf m lo hi)

/-- The instruction of an entry from its operand bytes. -/
def Entry.build (e : Entry) (lo hi : Byte) : Instr := Sys2Proof.build e.mnemonic e.mode lo hi

/-- Why bytes decode to no instruction. -/
inductive DecodeError where
  /-- There is no byte at all. -/
  | noBytes
  /-- The table entry of this opcode is empty (`30_encoding.md` R105). -/
  | illegalOpcode (op : Byte)
  /-- Fewer operand bytes follow than the opcode's mode consumes (`30_encoding.md` R103). -/
  | truncated (op : Byte)
  deriving DecidableEq, Repr

/-- The instruction at the front of a list of bytes, and the bytes after it. The opcode byte alone gives the
length (`30_encoding.md` R100). -/
def decode (t : Table) : List Byte → Except DecodeError (Instr × List Byte)
  | [] => .error .noBytes
  | op :: rest =>
    match lookup t op with
    | none => .error (.illegalOpcode op)
    | some e =>
      match e.mode.format, rest with
      | .f1, rest => .ok (e.build 0 0, rest)
      | .f2, b :: rest => .ok (e.build b 0, rest)
      | .f3, lo :: hi :: rest => .ok (e.build lo hi, rest)
      | .f2, [] => .error (.truncated op)
      | .f3, [] => .error (.truncated op)
      | .f3, [_] => .error (.truncated op)

/-- The mnemonic of an instruction. -/
def Instr.mnemonic : Instr → Mnemonic
  | .ldaImm _ | .ldaZp _ | .ldaZpX _ | .ldaAbs _ | .ldaAbsX _ | .ldaAbsY _ | .ldaIndX _ | .ldaIndY _ | .ldaMode _ _ => .lda
  | .ldxImm _ | .ldxZp _ | .ldxZpY _ | .ldxAbs _ | .ldxAbsY _ | .ldxMode _ _ => .ldx
  | .ldyImm _ | .ldyZp _ | .ldyZpX _ | .ldyAbs _ | .ldyAbsX _ | .ldyMode _ _ => .ldy
  | .staZp _ | .staZpX _ | .staAbs _ | .staAbsX _ | .staAbsY _ | .staIndX _ | .staIndY _ | .staMode _ _ => .sta
  | .inx | .inxMode _ _ => .inx
  | .iny | .inyMode _ _ => .iny
  | .dex | .dexMode _ _ => .dex
  | .dey | .deyMode _ _ => .dey
  | .txs | .txsMode _ _ => .txs
  | .jmpAbs _ | .jmpInd _ | .jmpMode _ _ => .jmp
  | .bne _ | .bneMode _ _ => .bne
  | .sei | .seiMode _ _ => .sei

/-- The addressing mode of an instruction. -/
def Instr.mode : Instr → Mode
  | .inx | .iny | .dex | .dey | .txs | .sei => .implied
  | .ldaImm _ | .ldxImm _ | .ldyImm _ => .immediate
  | .ldaZp _ | .ldxZp _ | .ldyZp _ | .staZp _ => .zeroPage
  | .ldaZpX _ | .ldyZpX _ | .staZpX _ => .zeroPageX
  | .ldxZpY _ => .zeroPageY
  | .ldaAbs _ | .ldxAbs _ | .ldyAbs _ | .staAbs _ | .jmpAbs _ => .absolute
  | .ldaAbsX _ | .ldyAbsX _ | .staAbsX _ => .absoluteX
  | .ldaAbsY _ | .ldxAbsY _ | .staAbsY _ => .absoluteY
  | .ldaIndX _ | .staIndX _ => .indexedIndirect
  | .ldaIndY _ | .staIndY _ => .indirectIndexed
  | .jmpInd _ => .indirect
  | .bne _ => .relative
  | .ldaMode m _ | .ldxMode m _ | .ldyMode m _ | .staMode m _ | .inxMode m _ | .inyMode m _ | .dexMode m _ | .deyMode m _
  | .txsMode m _ | .jmpMode m _ | .bneMode m _ | .seiMode m _ => m

/-- The two operand bytes of a word operand: low byte first (`30_encoding.md` R101, format F3). -/
def wordOperand (w : Word) : List Byte := [lowByte w, highByte w]

/-- The operand bytes of a mode with operand `w` (`30_encoding.md` R101). -/
def Mode.operandBytes (m : Mode) (w : Word) : List Byte :=
  match m.format with
  | .f1 => []
  | .f2 => [lowByte w]
  | .f3 => wordOperand w

/-- The operand bytes of an instruction in memory order (`30_encoding.md` R101). -/
def Instr.operandBytes : Instr → List Byte
  | .ldaImm b | .ldaZp b | .ldaZpX b | .ldaIndX b | .ldaIndY b
  | .ldxImm b | .ldxZp b | .ldxZpY b | .ldyImm b | .ldyZp b | .ldyZpX b
  | .staZp b | .staZpX b | .staIndX b | .staIndY b | .bne b => [b]
  | .ldaAbs w | .ldaAbsX w | .ldaAbsY w | .ldxAbs w | .ldxAbsY w | .ldyAbs w | .ldyAbsX w
  | .staAbs w | .staAbsX w | .staAbsY w | .jmpAbs w | .jmpInd w => wordOperand w
  | .inx | .iny | .dex | .dey | .txs | .sei => []
  | .ldaMode m w | .ldxMode m w | .ldyMode m w | .staMode m w | .inxMode m w | .inyMode m w | .dexMode m w | .deyMode m w
  | .txsMode m w | .jmpMode m w | .bneMode m w | .seiMode m w => m.operandBytes w

/-- The bytes of an instruction, first byte first: the opcode of the table's first entry with its mnemonic and mode, then the
operand bytes; `none` where the table has no such entry (`30_encoding.md` R101, R104). -/
def encode (t : Table) (i : Instr) : Option (List Byte) :=
  (t.find? (fun e => e.mnemonic == i.mnemonic && e.mode == i.mode)).map (fun e => e.opcode :: i.operandBytes)

/-- The three bytes of an instruction given as a number whose bit 0 is bit 0 of the first byte; the bits from
`nbits` up are zero. -/
def bytesOfTableWord (nbits w : Nat) : List Byte :=
  let v := w % 2 ^ nbits
  [BitVec.ofNat 8 v, BitVec.ofNat 8 (v / 256), BitVec.ofNat 8 (v / 65536)]

/-- The instruction the decoder reads from a word of `spec/opcode_table.json`. -/
def decodeTableWord (nbits w : Nat) : Option Instr :=
  match decode instrTable (bytesOfTableWord nbits w) with
  | .ok (i, _) => some i
  | .error _ => none

end Sys2Proof
end

