-- ==== Sys2Proof/Config.lean ====
section
/-! DEFINITION. The parameters the spec leaves OPEN (`00_scope.md` R7, `92_eei_decisions.md`). Each is a
constant with no body, so that no proof can see its value and every claim holds for all of them.
The parameters that have a default (`RAM_MIRROR`, `NT_OFFSET`) and the cartridge are launch data, in
`Machine/State.lean`. -/

namespace Sys2Proof

/-- `RESET_B : Bool`, the reset value of the break flag: OPEN (R7, R26, D4). -/
opaque Config.resetB : Bool

/-- `JMP_IND_PAGE_WRAP : Bool`: OPEN (R7, R134, D3). It matters only when the pointer's low byte is 0xFF. -/
opaque Config.jmpIndPageWrap : Bool

/-- Which of its two candidate values `DOT_WRAP_SUB` has: OPEN (R7, R213, D14). -/
opaque Config.dotWrapIs314 : Bool

/-- `DOT_WRAP_SUB`, the constant subtracted at a dot wrap: 341 or 314, and nothing else (R213, D14). -/
def Config.dotWrapSub : Nat := if Config.dotWrapIs314 then 314 else 341

/-- `RGB_TABLE : [0, 63] -> u32`: the 64 colours are OPEN (R7, R226, D20). -/
opaque Config.rgbTable : Fin 64 → BitVec 32

/-- The four bytes of the cartridge image's signature: the source does not give them (R276, N47). -/
opaque Config.cartridgeMagic : Vector Byte 4

end Sys2Proof
end

