-- ==== Sys2Proof/Machine/State.lean ====
section
/-! DEFINITION. The state of the three blocks (`10_state.md`), the launch data it stands on, the fault values of
`60_exceptions.md` R240, the reasons a step can stop, and the state after reset. Plain data throughout. -/

namespace Sys2Proof.Machine

/-- The address spaces an unmapped access is reported in (`60_exceptions.md` R240). -/
inductive Space where
  | cpuBus | ppuPort | ppuVram
  deriving DecidableEq, Repr

/-- The direction of an access (`60_exceptions.md` R240). -/
inductive Dir where
  | read | write
  deriving DecidableEq, Repr

/-- The storage devices a storage primitive can name (`60_exceptions.md` R240). -/
inductive Device where
  | ram | prg | chr | vram | oam | pal | rgbTable
  deriving DecidableEq, Repr

/-- The fault values a running machine raises: classes 2a, 2b and 3 of `60_exceptions.md` R240. (Class 1,
`FormatError`, is the loader's and is a constructor of `Fault`.) -/
inductive FaultValue where
  /-- Class 2a. Raised by the bus (a read in regions 0x2000, 0x4000, 0x6000), by the PPU port (a store to 0x2002
  or 0x2008 to 0x3FFF) and by the PPU's classification (a data write with `vaddr` at or above 0x4000): R242.
  Safe: the spec's own decision (D8, D10, D12) to fault where the source defines no value or action. -/
  | unmappedAddress (space : Space) (addr : Word) (dir : Dir)
  /-- Class 2b. Raised by a storage primitive whose index is not below its capacity: R244. Safe (D9, D13, D26). -/
  | storageOutOfRange (dev : Device) (index : Nat)
  /-- Class 3. Raised by `step()` at an opcode whose table entry is empty; `addr` is the address it was fetched
  from: R243. Safe (D2). -/
  | illegalOpcode (op : Byte) (addr : Word)
  deriving DecidableEq, Repr

/-- "seven independent booleans" (`10_state.md` R25). `P.U` is no state: it is the constant 1 (R27). -/
structure Flags where
  /-- carry -/
  c : Bool
  /-- zero -/
  z : Bool
  /-- interrupt-disable -/
  i : Bool
  /-- decimal -/
  d : Bool
  /-- break -/
  b : Bool
  /-- overflow -/
  v : Bool
  /-- negative -/
  n : Bool
  deriving DecidableEq, Repr

/-- The three registers the loads, increments and decrements write (`10_state.md` R21, R22). -/
inductive Reg where
  | a | x | y
  deriving DecidableEq, Repr

/-- The state of the 0x2006 port (`10_state.md` R35). -/
inductive Latch where
  | awaitingHighByte | awaitingLowByte
  deriving DecidableEq, Repr

/-- A byte storage device: its listed cells by rising index; a cell not listed reads as 0x00. -/
abbrev Memory := List Host.Cell

/-- The frame buffer, 32-bit cells by rising index; a cell not listed reads as 0 (`10_state.md` R44). -/
abbrev FrameBuffer := List (Nat × BitVec 32)

/-- The 8×8 pixel indices of a tile, row first (`45_ppu_render_pipeline.md` R223). -/
abbrev PixelMatrix := Vector (Vector (BitVec 2) 8) 8

/-- A tile record (`45_ppu_render_pipeline.md` R224): its column and row, its pixel indices, its palette
selector and its scroll offset. -/
structure Tile where
  col : Fin 32
  row : Fin 30
  px : PixelMatrix
  sel : BitVec 2
  scroll : Nat
  deriving DecidableEq, Repr

/-- The state the PPU owns (`10_state.md` R33 to R44). -/
structure Ppu where
  /-- control register (R33) -/
  ctrl : Byte
  /-- mask register (R34) -/
  mask : Byte
  /-- the 0x2006 port's latch (R35) -/
  latch : Latch
  /-- current VRAM address (R36) -/
  vaddr : Word
  /-- current sprite-RAM address (R37) -/
  oamaddr : Byte
  /-- video RAM, 0x0800 cells (R38) -/
  vram : Memory
  /-- sprite RAM, 256 cells (R39) -/
  oam : Memory
  /-- palette RAM, 32 cells (R40) -/
  pal : Memory
  /-- dot counter (R41) -/
  dot : Nat
  /-- scanline counter (R42) -/
  scanline : Nat
  /-- the per-frame tile sequence (R43) -/
  tiles : List Tile
  /-- frame buffer, cell y × 256 + x (R44) -/
  frame : FrameBuffer
  deriving DecidableEq, Repr

/-- What the cartridge supplies (`00_scope.md` R8, `70_reset_and_hazards.md` R276). The core reads `prg`,
`prgBanks` and `chr` with `chrBanks`; the rest is parsed and looked at by the launch alone. -/
structure Cartridge where
  /-- program ROM, `prgBanks` × 16384 cells (`10_state.md` R31) -/
  prg : Memory
  prgBanks : Nat
  /-- character ROM, `chrBanks` × 8192 cells (`10_state.md` R32) -/
  chr : Memory
  chrBanks : Nat
  mapper : Byte
  verticalMirroring : Bool
  battery : Bool
  deriving DecidableEq, Repr

/-- The launch parameters that have a default (`00_scope.md` R7). -/
structure Params where
  /-- `RAM_MIRROR`, default false (D9) -/
  ramMirror : Bool
  /-- `NT_OFFSET`, default 0 (D17) -/
  ntOffset : Nat
  /-- `INSTR_TABLE`, default the 34 rows of `30_encoding.md` R104 (D1, D2) -/
  table : Table
  deriving DecidableEq, Repr

/-- The whole machine: the CPU's registers and flags, work RAM, the PPU, the launch data that no step writes
(the cartridge and the parameters), and the fault status. -/
structure State where
  /-- accumulator (R21) -/
  a : Byte
  /-- index X (R22) -/
  x : Byte
  /-- index Y (R22) -/
  y : Byte
  /-- stack pointer (R23) -/
  sp : Byte
  /-- program counter (R24) -/
  pc : Word
  /-- status flags (R25) -/
  flags : Flags
  /-- work RAM, 0x0800 cells (R30) -/
  ram : Memory
  ppu : Ppu
  cart : Cartridge
  params : Params
  /-- "set by the first fault and never cleared" (R48) -/
  halted : Option FaultValue
  deriving DecidableEq, Repr

/-- Why the machine stops. -/
inductive Fault where
  /-- `FormatError`, raised by the cartridge loader only, when the image's first four bytes are not the fixed
  signature; "no partial state is usable", so none is recorded (`60_exceptions.md` R241). Safe. -/
  | formatError
  /-- A fault value raised by a fetch, an instruction or the PPU's `advance`, with the state it leaves: exactly
  what ran before the raise, and `halted` set (`60_exceptions.md` R249, R251). Raised by `Machine.raised` alone.
  Safe: a run does not pass a fault (D7). -/
  | raised (f : FaultValue) (left : State)
  /-- Stuck: a step of a machine that `f` has halted is not defined (`60_exceptions.md` R251, U18). Raised by
  `Machine.step`. Safe. -/
  | stuck (f : FaultValue)
  deriving DecidableEq, Repr

/-- Why the model gives no meaning. -/
inductive Refusal where
  /-- An instruction not modelled yet, raised by `exec`'s arm for it; no arm does. Safe. -/
  | notModelled (mnemonic : String)
  /-- A launch with a mapper other than 0 or without a program bank, raised by `Machine.launch`
  (`00_scope.md` R8, D23). Safe. -/
  | cartridgeNotAdmitted
  /-- A launch with an instruction table that has two entries for one opcode, raised by `Machine.launch`
  (`10_state.md` R29, `90_conflicts.md` C9). Safe. -/
  | tableNotAdmitted
  /-- A cartridge image shorter than its header says, raised by `Machine.parseCartridge`: the spec does not say
  what the loader does with it. Safe. -/
  | imageTooShort
  deriving DecidableEq, Repr

/-- The status flags' "fixed reset pattern" (`70_reset_and_hazards.md` R271, `10_state.md` R26). -/
def Flags.reset : Flags :=
  ⟨false, false, true, false, Config.resetB, false, false⟩

/-- The PPU at construction (`10_state.md` R46): the latch is the source's, the counters and the tile sequence the
spec's; the other registers and memories are launch parameters, here all zero.
DESIGN CHOICE (notes/assumptions/1.md), unsafe: the spec fixes none of the zeros. -/
def Ppu.construction : Ppu :=
  ⟨0, 0, .awaitingHighByte, 0, 0, [], [], [], 0, 0, [], []⟩

/-- The cartridge of `State.reset`: one program bank and one character bank with no byte listed, mapper 0.
DESIGN CHOICE (notes/assumptions/2.md), unsafe: which cartridge is inserted is the host's to say. -/
def Cartridge.blank : Cartridge := ⟨[], 1, [], 1, 0, false, false⟩

/-- The defaults of `00_scope.md` R7. -/
def Params.default : Params := ⟨false, 0, instrTable⟩

/-- The machine right after `reset()` on the blank cartridge, memory with nothing listed (`10_state.md` R45). The
PC is the little-endian word at 0xFFFC, which the blank cartridge reads as 0x0000. -/
def State.reset : State :=
  ⟨0x00, 0x00, 0x00, 0xFD, 0x0000, Flags.reset, [], Ppu.construction, Cartridge.blank, Params.default, none⟩

end Sys2Proof.Machine
end

