-- ==== Sys2Proof/Machine/Ops.lean ====
section
/-! DEFINITION. The named operations: cells, storage primitives, register updates, the three outcomes in
sequence, taking a fault, and placing bytes. -/

namespace Sys2Proof.Machine

/-- The outcome of an operation on the machine (`00_scope.md` R13). -/
abbrev Result := Host.Outcome State Fault Refusal

/-- Run `k` on the result of `r`, unless `r` stopped. -/
def andThen {σ τ : Type} (r : Host.Outcome σ Fault Refusal) (k : σ → Host.Outcome τ Fault Refusal) :
    Host.Outcome τ Fault Refusal :=
  match r with
  | .next s => k s
  | .fault f => .fault f
  | .refused q => .refused q

/-! ### Cells -/

/-- The cell at index `i`; an index not listed reads as 0. -/
def Cells.read {w : Nat} : List (Nat × BitVec w) → Nat → BitVec w
  | [], _ => 0
  | (j, u) :: m, i => if i = j then u else Cells.read m i

/-- The list with cell `i` holding `v`: an entry is replaced or inserted in its place, and a cell that is to hold 0
is not listed. -/
def Cells.write {w : Nat} : List (Nat × BitVec w) → Nat → BitVec w → List (Nat × BitVec w)
  | [], i, v => if v = 0 then [] else [(i, v)]
  | (j, u) :: m, i, v =>
    if i < j then (if v = 0 then (j, u) :: m else (i, v) :: (j, u) :: m)
    else if i = j then (if v = 0 then m else (i, v) :: m)
    else (j, u) :: Cells.write m i v

/-- The canonical form: indices strictly rising, no entry 0. -/
def Cells.wf {w : Nat} : List (Nat × BitVec w) → Bool
  | [] => true
  | (j, u) :: m => u != 0 && m.all (fun c => j < c.1) && Cells.wf m

/-- Every listed index is below `cap`. -/
def Cells.below {w : Nat} (cap : Nat) (m : List (Nat × BitVec w)) : Bool := m.all (fun c => c.1 < cap)

/-- The canonical form of a byte memory. -/
def Memory.wf (m : Memory) : Bool := Cells.wf m

/-- The byte memory that holds `bytes` from index `i` on. -/
def Memory.ofBytes (i : Nat) : List Byte → Memory
  | [] => []
  | b :: bs => Cells.write (Memory.ofBytes (i + 1) bs) i b

/-! ### Storage primitives (`20_memory.md` R62) -/

/-- The capacities of R62; for `rgbTable` the 64 entries of `00_scope.md` R6. -/
def capacity (c : Cartridge) : Device → Nat
  | .ram => 0x0800
  | .prg => c.prgBanks * 16384
  | .chr => c.chrBanks * 8192
  | .vram => 0x0800
  | .oam => 256
  | .pal => 32
  | .rgbTable => 64

/-- `Store.read(dev, i)` (R62). -/
def storeRead (dev : Device) (cap : Nat) (m : Memory) (i : Nat) : Except FaultValue Byte :=
  if i < cap then .ok (Cells.read m i) else .error (.storageOutOfRange dev i)

/-- `Store.write(dev, i, v)` (R62). -/
def storeWrite (dev : Device) (cap : Nat) (m : Memory) (i : Nat) (v : Byte) : Except FaultValue Memory :=
  if i < cap then .ok (Cells.write m i v) else .error (.storageOutOfRange dev i)

/-! ### Updates of the state, one field each -/

def State.setPc (s : State) (v : Word) : State := { s with pc := v }
def State.setSp (s : State) (v : Byte) : State := { s with sp := v }
def State.setFlags (s : State) (p : Flags) : State := { s with flags := p }
def State.setRam (s : State) (m : Memory) : State := { s with ram := m }
def State.setPpu (s : State) (p : Ppu) : State := { s with ppu := p }
def State.setCart (s : State) (c : Cartridge) : State := { s with cart := c }
def State.setHalted (s : State) (f : Option FaultValue) : State := { s with halted := f }

/-- Write one of A, X, Y. -/
def State.setReg (s : State) (r : Reg) (v : Byte) : State :=
  match r with
  | .a => { s with a := v }
  | .x => { s with x := v }
  | .y => { s with y := v }

/-- Read one of A, X, Y. -/
def State.reg (s : State) : Reg → Byte
  | .a => s.a
  | .x => s.x
  | .y => s.y

def Ppu.setCtrl (p : Ppu) (v : Byte) : Ppu := { p with ctrl := v }
def Ppu.setMask (p : Ppu) (v : Byte) : Ppu := { p with mask := v }
def Ppu.setLatch (p : Ppu) (l : Latch) : Ppu := { p with latch := l }
def Ppu.setVaddr (p : Ppu) (v : Word) : Ppu := { p with vaddr := v }
def Ppu.setOamaddr (p : Ppu) (v : Byte) : Ppu := { p with oamaddr := v }
def Ppu.setVram (p : Ppu) (m : Memory) : Ppu := { p with vram := m }
def Ppu.setOam (p : Ppu) (m : Memory) : Ppu := { p with oam := m }
def Ppu.setPal (p : Ppu) (m : Memory) : Ppu := { p with pal := m }
def Ppu.setDot (p : Ppu) (n : Nat) : Ppu := { p with dot := n }
def Ppu.setScanline (p : Ppu) (n : Nat) : Ppu := { p with scanline := n }
def Ppu.setTiles (p : Ppu) (t : List Tile) : Ppu := { p with tiles := t }
def Ppu.setFrame (p : Ppu) (f : FrameBuffer) : Ppu := { p with frame := f }

/-! ### Taking a fault

The one exception entry of this hardware. "A fault saves nothing and changes no mode, mask or stack; control does
not go to any address inside the machine; it returns to the host" (`60_exceptions.md` R249); `halted` is set (R251).
There is no return from it: "no return-from-trap instruction, no handler, no nesting" (R250). -/

/-- `raise f` in state `s`: the fault with the state it leaves (`00_scope.md` R12, `60_exceptions.md` R251). -/
def raised (f : FaultValue) (s : State) : Fault := .raised f (s.setHalted (some f))

/-- The outcome of `raise f` in state `s`. -/
def raise {σ : Type} (f : FaultValue) (s : State) : Host.Outcome σ Fault Refusal := .fault (raised f s)

/-- Continue with the value of an access, or take the fault it raised, in state `s`. -/
def orRaise {α σ : Type} (r : Except FaultValue α) (s : State) (k : α → Host.Outcome σ Fault Refusal) :
    Host.Outcome σ Fault Refusal :=
  match r with
  | .ok v => k v
  | .error f => raise f s

end Sys2Proof.Machine
end

