-- ==== Sys2Proof/Machine/Flags.lean ====
section
/-! DEFINITION. The flag computations: `SetZN` is the only one the instructions share; SEI sets one flag. -/

namespace Sys2Proof.Machine

/-- `SetZN(v)`: "zero flag = (result == 0); negative flag = bit 7 of result", and no other flag
(`40_fetch_decode_dispatch.md` R137). -/
def Flags.setZN (p : Flags) (v : Byte) : Flags := { p with z := v == 0, n := v.getLsbD 7 }

/-- `P.I <- 1` (`43_control_and_flag.md` R172). -/
def Flags.setI (p : Flags) : Flags := { p with i := true }

/-- `P.U`, the unused bit: "a constant `P.U = 1` that no operation writes" (`10_state.md` R27). -/
def Flags.u (_ : Flags) : Bool := true

/-- The byte view for display, which no rule depends on: N V U B D I Z C from bit 7 down (`10_state.md` R28).
PRESUMED (notes/assumptions/11.md): the 6502 convention, from general knowledge. -/
def Flags.packed (p : Flags) : Byte :=
  BitVec.ofBool p.n ++ BitVec.ofBool p.v ++ BitVec.ofBool p.u ++ BitVec.ofBool p.b ++
    BitVec.ofBool p.d ++ BitVec.ofBool p.i ++ BitVec.ofBool p.z ++ BitVec.ofBool p.c

/-- `SetZN(v)` on the machine. -/
def State.setZN (s : State) (v : Byte) : State := s.setFlags (s.flags.setZN v)

end Sys2Proof.Machine
end

