-- ==== Sys2Proof/Machine/PpuPort.lean ====
section
/-! DEFINITION. The PPU's register port: its `write(address, data)`, the address latch, and the classification of
VRAM addresses (`44_ppu_register_port.md`). Every port action raises before it writes anything. -/

namespace Sys2Proof.Machine

/-- `Increment()` (R182). -/
def Ppu.increment (p : Ppu) : Word := if p.ctrl.getLsbD 2 then 0x0020 else 0x0001

/-- `BgBase()` (R183). -/
def Ppu.bgBase (p : Ppu) : Nat := if p.ctrl.getLsbD 4 then 0x1000 else 0x0000

/-- `PalIndex(i)`: "0x10/0x14/0x18/0x1C alias 0x00/0x04/0x08/0x0C" (R196). -/
def palIndex (i : Nat) : Nat :=
  if i = 0x10 ∨ i = 0x14 ∨ i = 0x18 ∨ i = 0x1C then i - 0x10 else i

/-- `VramWrite(a, v)`: pattern space stores nothing (R193), palette space (R195), nametable and attribute space
and its image (R194, R197), and no classification at or above 0x4000 (R198); the order of the tests is R192's. -/
def vramWrite (p : Ppu) (a : Word) (v : Byte) : Except FaultValue Ppu :=
  if a.toNat < 0x2000 then .ok p
  else if 0x3F00 ≤ a.toNat ∧ a.toNat ≤ 0x3FFF then
    .ok (p.setPal (Cells.write p.pal (palIndex (a &&& 0x001F).toNat) v))
  else if 0x2000 ≤ a.toNat ∧ a.toNat ≤ 0x2FFF then
    (storeWrite .vram 0x0800 p.vram (a.toNat - 0x2000) v).map p.setVram
  else if 0x3000 ≤ a.toNat ∧ a.toNat ≤ 0x3EFF then
    (storeWrite .vram 0x0800 p.vram (a.toNat - 0x3000) v).map p.setVram
  else .error (.unmappedAddress .ppuVram a .write)

/-- `WriteCtrl(data)`, port 0x2000 (R181). -/
def writeCtrl (p : Ppu) (data : Byte) : Ppu := p.setCtrl data

/-- `WriteMask(data)`, port 0x2001 (R184). -/
def writeMask (p : Ppu) (data : Byte) : Ppu := p.setMask data

/-- `WriteOamAddr(data)`, port 0x2003 (R185). -/
def writeOamAddr (p : Ppu) (data : Byte) : Ppu := p.setOamaddr data

/-- `WriteOamData(data)`, port 0x2004 (R186). -/
def writeOamData (p : Ppu) (data : Byte) : Except FaultValue Ppu :=
  (storeWrite .oam 256 p.oam p.oamaddr.toNat data).map (fun m => (p.setOam m).setOamaddr (p.oamaddr + 1))

/-- `WriteScroll(data)`, port 0x2005: accepted, no state written (R187). -/
def writeScroll (p : Ppu) (_ : Byte) : Ppu := p

/-- `WriteVaddr(data)`, port 0x2006: the high byte clears the low byte (R189), the low byte replaces bits 7 to 0
(R190), and the latch alternates (R188). -/
def writeVaddr (p : Ppu) (data : Byte) : Ppu :=
  match p.latch with
  | .awaitingHighByte => (p.setVaddr (wordOfBytes 0x00 data)).setLatch .awaitingLowByte
  | .awaitingLowByte => (p.setVaddr (wordOfBytes data (highByte p.vaddr))).setLatch .awaitingHighByte

/-- `WriteVdata(data)`, port 0x2007: the classified write, then the increment modulo 65536 (R191). -/
def writeVdata (p : Ppu) (data : Byte) : Except FaultValue Ppu :=
  (vramWrite p p.vaddr data).map (fun q => q.setVaddr (p.vaddr + p.increment))

/-- `ppu.write(addr, data)`: the match is on the full address (R180); the rest of the region is unlisted (R199). -/
def ppuWrite (p : Ppu) (addr : Word) (data : Byte) : Except FaultValue Ppu :=
  if addr = 0x2000 then .ok (writeCtrl p data)
  else if addr = 0x2001 then .ok (writeMask p data)
  else if addr = 0x2003 then .ok (writeOamAddr p data)
  else if addr = 0x2004 then writeOamData p data
  else if addr = 0x2005 then .ok (writeScroll p data)
  else if addr = 0x2006 then .ok (writeVaddr p data)
  else if addr = 0x2007 then writeVdata p data
  else .error (.unmappedAddress .ppuPort addr .write)

end Sys2Proof.Machine
end

