-- ==== Sys2Proof/Machine/Bus.lean ====
section
/-! DEFINITION. The address bus: region selection, `MemRead` and `MemWrite` (`20_memory.md` R61 to R72). -/

namespace Sys2Proof.Machine

/-- The devices of the routing table (`20_memory.md` R63). -/
inductive Region where
  | workRam | ppuPort | audioIo | batteryRam | programRom
  deriving DecidableEq, Repr

/-- The region of an address: the routing table on `addr & 0xE000` (`20_memory.md` R61, R63). -/
def region (addr : Word) : Region :=
  if addr &&& 0xE000 = 0x0000 then .workRam
  else if addr &&& 0xE000 = 0x2000 then .ppuPort
  else if addr &&& 0xE000 = 0x4000 then .audioIo
  else if addr &&& 0xE000 = 0x6000 then .batteryRam
  else .programRom

/-- The work-RAM index of an address in region 0x0000 (`20_memory.md` R64, R69). -/
def ramIndex (s : State) (addr : Word) : Nat :=
  if s.params.ramMirror then (addr &&& 0x07FF).toNat else addr.toNat

/-- The program-ROM index of an address in regions 0x8000 to 0xE000: `addr & prg_mask` (`20_memory.md` R64, R70). -/
def prgIndex (s : State) (addr : Word) : Nat :=
  (addr &&& (if s.cart.prgBanks = 1 then 0x3FFF else 0x7FFF)).toNat

/-- `MemRead(addr, 1)` (`20_memory.md` R64): it writes no state, so it returns the byte or the fault alone. -/
def memRead (s : State) (addr : Word) : Except FaultValue Byte :=
  match region addr with
  | .workRam => storeRead .ram 0x0800 s.ram (ramIndex s addr)
  | .ppuPort => .error (.unmappedAddress .cpuBus addr .read)
  | .audioIo => .error (.unmappedAddress .cpuBus addr .read)
  | .batteryRam => .error (.unmappedAddress .cpuBus addr .read)
  | .programRom => storeRead .prg (capacity s.cart .prg) s.cart.prg (prgIndex s addr)

/-- `MemWrite(addr, 1, v)` (`20_memory.md` R65): the state after the write, or the fault, in which case nothing has
been written. -/
def memWrite (s : State) (addr : Word) (v : Byte) : Except FaultValue State :=
  match region addr with
  | .workRam => (storeWrite .ram 0x0800 s.ram (ramIndex s addr) v).map s.setRam
  | .ppuPort => (ppuWrite s.ppu addr v).map s.setPpu
  | .audioIo => .ok s
  | .batteryRam => .ok s
  | .programRom => .ok s

/-- `MemRead(addr, 2)`: two one-byte reads, low byte first, little-endian, the second at `addr +16 1`
(`00_scope.md` R11, `20_memory.md` R75). -/
def memReadWord (s : State) (addr : Word) : Except FaultValue Word :=
  match memRead s addr with
  | .error f => .error f
  | .ok lo =>
    match memRead s (addr + 1) with
    | .error f => .error f
    | .ok hi => .ok (wordOfBytes lo hi)

end Sys2Proof.Machine
end

