-- ==== Sys2Proof/Machine/Operands.lean ====
section
/-! DEFINITION. The thirteen addressing modes: the effective address of each (`40_fetch_decode_dispatch.md` R124 to
R136). When a meaning runs, the operand bytes have been fetched and PC is already the address of the next instruction (R138),
so the state's `pc` here is the spec's PC after resolution. The implied and accumulator values are dummies. -/

namespace Sys2Proof.Machine

/-- `zext_16(b)` (`00_scope.md` R9). -/
def zext16 (b : Byte) : Word := b.setWidth 16

/-- `sext_16(b)` (`00_scope.md` R9). -/
def sext16 (b : Byte) : Word := b.signExtend 16

/-- Implied: "unused (dummy 0x0000)" (R124). -/
def eaImplied : Word := 0x0000

/-- Accumulator: "unused (dummy 0x0000)" (R125). -/
def eaAccumulator : Word := 0x0000

/-- Immediate: "address of the operand byte itself", the byte before the next instruction (R126). -/
def eaImmediate (s : State) : Word := s.pc - 1

/-- Zero Page (R127). -/
def eaZeroPage (b : Byte) : Word := zext16 b

/-- Zero Page,X: the sum is "wrapped to 8 bits" (R128). -/
def eaZeroPageX (s : State) (b : Byte) : Word := zext16 (b + s.x)

/-- Zero Page,Y (R129). -/
def eaZeroPageY (s : State) (b : Byte) : Word := zext16 (b + s.y)

/-- Absolute (R130). -/
def eaAbsolute (w : Word) : Word := w

/-- Absolute,X: the sum wraps at 65536 (R131). -/
def eaAbsoluteX (s : State) (w : Word) : Word := w + zext16 s.x

/-- Absolute,Y (R132). -/
def eaAbsoluteY (s : State) (w : Word) : Word := w + zext16 s.y

/-- Relative: PC after the offset byte plus the signed offset (R133). -/
def eaRelative (s : State) (offset : Byte) : Word := s.pc + sext16 offset

/-- Indirect: the word at the pointer; where its high byte is fetched from when the pointer's low byte is 0xFF is
`JMP_IND_PAGE_WRAP`'s to say, and both values agree otherwise (R134). -/
def eaIndirect (s : State) (ptr : Word) : Except FaultValue Word :=
  match memRead s ptr with
  | .error f => .error f
  | .ok lo =>
    let hiAt :=
      if lowByte ptr = 0xFF then
        (if Config.jmpIndPageWrap then wordOfBytes (lowByte ptr + 1) (highByte ptr) else ptr + 1)
      else ptr + 1
    match memRead s hiAt with
    | .error f => .error f
    | .ok hi => .ok (wordOfBytes lo hi)

/-- The word at a pointer in page zero; the pointer's successor wraps within the page (R135, R136). -/
def zeroPagePointer (s : State) (p : Byte) : Except FaultValue Word :=
  match memRead s (zext16 p) with
  | .error f => .error f
  | .ok lo =>
    match memRead s (zext16 (p + 1)) with
    | .error f => .error f
    | .ok hi => .ok (wordOfBytes lo hi)

/-- Indexed Indirect, `(zp,X)` (R135). -/
def eaIndexedIndirect (s : State) (b : Byte) : Except FaultValue Word := zeroPagePointer s (b + s.x)

/-- Indirect Indexed, `(zp),Y`: the final sum wraps at 65536 (R136). -/
def eaIndirectIndexed (s : State) (b : Byte) : Except FaultValue Word :=
  (zeroPagePointer s b).map (fun w => w + zext16 s.y)

/-- `Resolve(mode)`, with the operand bytes already fetched as `w` (R123): the one of these that the mode names. -/
def resolve (s : State) : Mode → Word → Except FaultValue Word
  | .implied, _ => .ok eaImplied
  | .accumulator, _ => .ok eaAccumulator
  | .immediate, _ => .ok (eaImmediate s)
  | .zeroPage, w => .ok (eaZeroPage (lowByte w))
  | .zeroPageX, w => .ok (eaZeroPageX s (lowByte w))
  | .zeroPageY, w => .ok (eaZeroPageY s (lowByte w))
  | .absolute, w => .ok (eaAbsolute w)
  | .absoluteX, w => .ok (eaAbsoluteX s w)
  | .absoluteY, w => .ok (eaAbsoluteY s w)
  | .relative, w => .ok (eaRelative s (lowByte w))
  | .indirect, w => eaIndirect s w
  | .indexedIndirect, w => eaIndexedIndirect s (lowByte w)
  | .indirectIndexed, w => eaIndirectIndexed s (lowByte w)

end Sys2Proof.Machine
end

