-- ==== Sys2Proof/Machine/RegisterOps.lean ====
section
/-! DEFINITION. INX, INY, DEX, DEY and TXS (`42_register_ops.md` R160 to R164). -/

namespace Sys2Proof.Machine

/-- Add `d` to a register modulo 256 and apply `SetZN` to the result; carry and overflow are not written
(R160 to R163; decrement is `d = 0xFF`, since `a -8 1 = a +8 0xFF`). -/
def State.bumped (s : State) (r : Reg) (d : Byte) : State := (s.setReg r (s.reg r + d)).setZN (s.reg r + d)

/-- INX (R160). -/
def execInx (s : State) : Result := .next (s.bumped .x 1)

/-- INY (R161). -/
def execIny (s : State) : Result := .next (s.bumped .y 1)

/-- DEX (R162). -/
def execDex (s : State) : Result := .next (s.bumped .x (-1))

/-- DEY (R163). -/
def execDey (s : State) : Result := .next (s.bumped .y (-1))

/-- TXS: "no flag effect" (R164). -/
def execTxs (s : State) : Result := .next (s.setSp s.x)

/-! ### In any mode other than Implied: the mode is resolved, which may fault, and the address is not looked at
(`40_fetch_decode_dispatch.md` R120, R123) -/

/-- Resolve the mode, then run `k` (`40_fetch_decode_dispatch.md` R120). -/
def resolveThen (m : Mode) (w : Word) (s : State) (k : State → Result) : Result := orRaise (resolve s m w) s fun _ => k s

/-- INX in any other mode (R160). -/
def execInxMode (m : Mode) (w : Word) (s : State) : Result := resolveThen m w s execInx

/-- INY in any other mode (R161). -/
def execInyMode (m : Mode) (w : Word) (s : State) : Result := resolveThen m w s execIny

/-- DEX in any other mode (R162). -/
def execDexMode (m : Mode) (w : Word) (s : State) : Result := resolveThen m w s execDex

/-- DEY in any other mode (R163). -/
def execDeyMode (m : Mode) (w : Word) (s : State) : Result := resolveThen m w s execDey

/-- TXS in any other mode (R164). -/
def execTxsMode (m : Mode) (w : Word) (s : State) : Result := resolveThen m w s execTxs

end Sys2Proof.Machine
end

