-- ==== Sys2Proof/Machine/Control.lean ====
section
/-! DEFINITION. JMP, BNE and SEI (`43_control_and_flag.md` R170 to R172). -/

namespace Sys2Proof.Machine

/-- `PC <- ea`: no bus access at the target (R170). -/
def jumpTo (ea : Except FaultValue Word) (s : State) : Result :=
  orRaise ea s fun addr => .next (s.setPc addr)

/-- JMP Absolute (R170). -/
def execJmpAbs (w : Word) (s : State) : Result := jumpTo (.ok (eaAbsolute w)) s

/-- JMP Indirect (R170). -/
def execJmpInd (w : Word) (s : State) : Result := jumpTo (eaIndirect s w) s

/-- BNE: taken when the zero flag is clear, else PC stays past the instruction (R171). -/
def execBne (offset : Byte) (s : State) : Result :=
  .next (if s.flags.z then s else s.setPc (eaRelative s offset))

/-- SEI (R172). -/
def execSei (s : State) : Result := .next (s.setFlags s.flags.setI)

/-- JMP in any other mode (R170). -/
def execJmpMode (m : Mode) (w : Word) (s : State) : Result := jumpTo (resolve s m w) s

/-- BNE in any other mode: the mode is resolved whether or not the branch is taken (R171). -/
def execBneMode (m : Mode) (w : Word) (s : State) : Result :=
  orRaise (resolve s m w) s fun ea => .next (if s.flags.z then s else s.setPc ea)

/-- SEI in any other mode (R172). -/
def execSeiMode (m : Mode) (w : Word) (s : State) : Result := resolveThen m w s execSei

end Sys2Proof.Machine
end

