-- ==== Sys2Proof/Machine/LoadStore.lean ====
section
/-! DEFINITION. LDA, LDX, LDY and STA (`41_load_store.md` R150 to R153): one meaning per table row, and one for
any other mode, each over the two shared operations `loadInto` and `storeA`. -/

namespace Sys2Proof.Machine

/-- What LDA, LDX and LDY do with the byte read: the register takes it and `SetZN` is applied (R150 to R152). -/
def State.loaded (s : State) (r : Reg) (v : Byte) : State := (s.setReg r v).setZN v

/-- A load from memory: one read at the effective address. A fault of the pointer reads or of the read leaves the
register and the flags as they were (R150). -/
def loadInto (r : Reg) (ea : Except FaultValue Word) (s : State) : Result :=
  orRaise ea s fun addr =>
  orRaise (memRead s addr) s fun v =>
  .next (s.loaded r v)

/-- STA: one write of A at the effective address, no read of the target, no flag (R153). -/
def storeA (ea : Except FaultValue Word) (s : State) : Result :=
  orRaise ea s fun addr =>
  orRaise (memWrite s addr s.a) s fun t =>
  .next t

/-! ### LDA (R150) -/

/-- LDA Immediate (R150): the operand byte is the byte read at its own address (R126). -/
def execLdaImm (v : Byte) (s : State) : Result := .next (s.loaded .a v)

/-- LDA Zero Page (R150). -/
def execLdaZp (b : Byte) (s : State) : Result := loadInto .a (.ok (eaZeroPage b)) s

/-- LDA Zero Page,X (R150). -/
def execLdaZpX (b : Byte) (s : State) : Result := loadInto .a (.ok (eaZeroPageX s b)) s

/-- LDA Absolute (R150). -/
def execLdaAbs (w : Word) (s : State) : Result := loadInto .a (.ok (eaAbsolute w)) s

/-- LDA Absolute,X (R150). -/
def execLdaAbsX (w : Word) (s : State) : Result := loadInto .a (.ok (eaAbsoluteX s w)) s

/-- LDA Absolute,Y (R150). -/
def execLdaAbsY (w : Word) (s : State) : Result := loadInto .a (.ok (eaAbsoluteY s w)) s

/-- LDA Indexed Indirect (R150). -/
def execLdaIndX (b : Byte) (s : State) : Result := loadInto .a (eaIndexedIndirect s b) s

/-- LDA Indirect Indexed (R150). -/
def execLdaIndY (b : Byte) (s : State) : Result := loadInto .a (eaIndirectIndexed s b) s

/-- LDA in any other mode (R150, `40_fetch_decode_dispatch.md` R123). -/
def execLdaMode (m : Mode) (w : Word) (s : State) : Result := loadInto .a (resolve s m w) s

/-! ### LDX (R151) -/

/-- LDX Immediate (R151): the operand byte is the byte read at its own address (R126). -/
def execLdxImm (v : Byte) (s : State) : Result := .next (s.loaded .x v)

/-- LDX Zero Page (R151). -/
def execLdxZp (b : Byte) (s : State) : Result := loadInto .x (.ok (eaZeroPage b)) s

/-- LDX Zero Page,Y (R151). -/
def execLdxZpY (b : Byte) (s : State) : Result := loadInto .x (.ok (eaZeroPageY s b)) s

/-- LDX Absolute (R151). -/
def execLdxAbs (w : Word) (s : State) : Result := loadInto .x (.ok (eaAbsolute w)) s

/-- LDX Absolute,Y (R151). -/
def execLdxAbsY (w : Word) (s : State) : Result := loadInto .x (.ok (eaAbsoluteY s w)) s

/-- LDX in any other mode (R151, `40_fetch_decode_dispatch.md` R123). -/
def execLdxMode (m : Mode) (w : Word) (s : State) : Result := loadInto .x (resolve s m w) s

/-! ### LDY (R152) -/

/-- LDY Immediate (R152): the operand byte is the byte read at its own address (R126). -/
def execLdyImm (v : Byte) (s : State) : Result := .next (s.loaded .y v)

/-- LDY Zero Page (R152). -/
def execLdyZp (b : Byte) (s : State) : Result := loadInto .y (.ok (eaZeroPage b)) s

/-- LDY Zero Page,X (R152). -/
def execLdyZpX (b : Byte) (s : State) : Result := loadInto .y (.ok (eaZeroPageX s b)) s

/-- LDY Absolute (R152). -/
def execLdyAbs (w : Word) (s : State) : Result := loadInto .y (.ok (eaAbsolute w)) s

/-- LDY Absolute,X (R152). -/
def execLdyAbsX (w : Word) (s : State) : Result := loadInto .y (.ok (eaAbsoluteX s w)) s

/-- LDY in any other mode (R152, `40_fetch_decode_dispatch.md` R123). -/
def execLdyMode (m : Mode) (w : Word) (s : State) : Result := loadInto .y (resolve s m w) s

/-! ### STA (R153) -/

/-- STA Zero Page (R153). -/
def execStaZp (b : Byte) (s : State) : Result := storeA (.ok (eaZeroPage b)) s

/-- STA Zero Page,X (R153). -/
def execStaZpX (b : Byte) (s : State) : Result := storeA (.ok (eaZeroPageX s b)) s

/-- STA Absolute (R153). -/
def execStaAbs (w : Word) (s : State) : Result := storeA (.ok (eaAbsolute w)) s

/-- STA Absolute,X (R153). -/
def execStaAbsX (w : Word) (s : State) : Result := storeA (.ok (eaAbsoluteX s w)) s

/-- STA Absolute,Y (R153). -/
def execStaAbsY (w : Word) (s : State) : Result := storeA (.ok (eaAbsoluteY s w)) s

/-- STA Indexed Indirect (R153). -/
def execStaIndX (b : Byte) (s : State) : Result := storeA (eaIndexedIndirect s b) s

/-- STA Indirect Indexed (R153). -/
def execStaIndY (b : Byte) (s : State) : Result := storeA (eaIndirectIndexed s b) s

/-- STA in any other mode (R153, `40_fetch_decode_dispatch.md` R123). -/
def execStaMode (m : Mode) (w : Word) (s : State) : Result := storeA (resolve s m w) s

end Sys2Proof.Machine
end

