-- ==== Sys2Proof/Machine/Dispatch.lean ====
section
/-! DEFINITION. One arm per instruction: the handler of each table row (`40_fetch_decode_dispatch.md` R138). The state
is the one in which PC is already past the instruction. -/

namespace Sys2Proof.Machine

def exec (i : Instr) (s : State) : Host.Outcome State Fault Refusal :=
  match i with
  | .ldaImm v => Sys2Proof.Machine.execLdaImm v s
  | .ldaZp b => Sys2Proof.Machine.execLdaZp b s
  | .ldaZpX b => Sys2Proof.Machine.execLdaZpX b s
  | .ldaAbs w => Sys2Proof.Machine.execLdaAbs w s
  | .ldaAbsX w => Sys2Proof.Machine.execLdaAbsX w s
  | .ldaAbsY w => Sys2Proof.Machine.execLdaAbsY w s
  | .ldaIndX b => Sys2Proof.Machine.execLdaIndX b s
  | .ldaIndY b => Sys2Proof.Machine.execLdaIndY b s
  | .ldxImm v => Sys2Proof.Machine.execLdxImm v s
  | .ldxZp b => Sys2Proof.Machine.execLdxZp b s
  | .ldxZpY b => Sys2Proof.Machine.execLdxZpY b s
  | .ldxAbs w => Sys2Proof.Machine.execLdxAbs w s
  | .ldxAbsY w => Sys2Proof.Machine.execLdxAbsY w s
  | .ldyImm v => Sys2Proof.Machine.execLdyImm v s
  | .ldyZp b => Sys2Proof.Machine.execLdyZp b s
  | .ldyZpX b => Sys2Proof.Machine.execLdyZpX b s
  | .ldyAbs w => Sys2Proof.Machine.execLdyAbs w s
  | .ldyAbsX w => Sys2Proof.Machine.execLdyAbsX w s
  | .staZp b => Sys2Proof.Machine.execStaZp b s
  | .staZpX b => Sys2Proof.Machine.execStaZpX b s
  | .staAbs w => Sys2Proof.Machine.execStaAbs w s
  | .staAbsX w => Sys2Proof.Machine.execStaAbsX w s
  | .staAbsY w => Sys2Proof.Machine.execStaAbsY w s
  | .staIndX b => Sys2Proof.Machine.execStaIndX b s
  | .staIndY b => Sys2Proof.Machine.execStaIndY b s
  | .inx => Sys2Proof.Machine.execInx s
  | .iny => Sys2Proof.Machine.execIny s
  | .dex => Sys2Proof.Machine.execDex s
  | .dey => Sys2Proof.Machine.execDey s
  | .txs => Sys2Proof.Machine.execTxs s
  | .jmpAbs w => Sys2Proof.Machine.execJmpAbs w s
  | .jmpInd w => Sys2Proof.Machine.execJmpInd w s
  | .bne offset => Sys2Proof.Machine.execBne offset s
  | .sei => Sys2Proof.Machine.execSei s
  | .ldaMode m w => Sys2Proof.Machine.execLdaMode m w s
  | .ldxMode m w => Sys2Proof.Machine.execLdxMode m w s
  | .ldyMode m w => Sys2Proof.Machine.execLdyMode m w s
  | .staMode m w => Sys2Proof.Machine.execStaMode m w s
  | .inxMode m w => Sys2Proof.Machine.execInxMode m w s
  | .inyMode m w => Sys2Proof.Machine.execInyMode m w s
  | .dexMode m w => Sys2Proof.Machine.execDexMode m w s
  | .deyMode m w => Sys2Proof.Machine.execDeyMode m w s
  | .txsMode m w => Sys2Proof.Machine.execTxsMode m w s
  | .jmpMode m w => Sys2Proof.Machine.execJmpMode m w s
  | .bneMode m w => Sys2Proof.Machine.execBneMode m w s
  | .seiMode m w => Sys2Proof.Machine.execSeiMode m w s

end Sys2Proof.Machine
end

