-- ==== Sys2Proof/Machine/Fetch.lean ====
section
/-! DEFINITION. The fetch half of `step()`: the opcode byte, the table lookup, the operand bytes, each read over the bus
at the moment the step runs, with PC advanced as `40_fetch_decode_dispatch.md` R120 to R136 say. -/

namespace Sys2Proof.Machine

/-- PC when the read of a two-byte instruction's operand faults. Resolution advances PC after its read (R127 to R129,
R133, R135, R136), so PC is the operand's address; an Immediate operand is read by the handler, when PC is already past
it (R126). `operandAt` is the operand's address. -/
def pcAtOperandFault (m : Mode) (operandAt : Word) : Word :=
  if m = .immediate then operandAt + 1 else operandAt

/-- Fetch one instruction: the instruction, its entry's base cycle count and the state whose PC is past it, or the fault. The
opcode is read before PC moves (R121); an empty table entry faults with PC past the opcode byte and no operand read (R122);
the operand bytes are read low first, and a three-byte instruction's PC moves only after both reads (R130). An Immediate
operand that the handler does not read is stepped over (R126). -/
def fetch (s : State) : Except Fault (Instr × Nat × State) :=
  match memRead s s.pc with
  | .error f => .error (raised f s)
  | .ok op =>
    match lookup s.params.table op with
    | none => .error (raised (.illegalOpcode op s.pc) (s.setPc (s.pc + 1)))
    | some e =>
      match e.mode.format with
      | .f1 => .ok (e.build 0 0, e.cycles, s.setPc (s.pc + 1))
      | .f2 =>
        if readsOperand e.mnemonic e.mode then
          match memRead s (s.pc + 1) with
          | .error f => .error (raised f (s.setPc (pcAtOperandFault e.mode (s.pc + 1))))
          | .ok b => .ok (e.build b 0, e.cycles, s.setPc (s.pc + 2))
        else .ok (e.build 0 0, e.cycles, s.setPc (s.pc + 2))
      | .f3 =>
        match memRead s (s.pc + 1) with
        | .error f => .error (raised f (s.setPc (s.pc + 1)))
        | .ok lo =>
          match memRead s (s.pc + 2) with
          | .error f => .error (raised f (s.setPc (s.pc + 1)))
          | .ok hi => .ok (e.build lo hi, e.cycles, s.setPc (s.pc + 3))

/-- Put a byte where `MemRead` reads `addr`: work RAM or program ROM. Where no storage stands behind the address the
state is as it was. This is the launch's placing of bytes, not a bus write. -/
def placeByte (s : State) (addr : Word) (v : Byte) : State :=
  match region addr with
  | .workRam => if ramIndex s addr < 0x0800 then s.setRam (Cells.write s.ram (ramIndex s addr) v) else s
  | .programRom =>
    if prgIndex s addr < capacity s.cart .prg then
      s.setCart { s.cart with prg := Cells.write s.cart.prg (prgIndex s addr) v }
    else s
  | .ppuPort | .audioIo | .batteryRam => s

/-- Put a list of bytes from `addr` on. -/
def placeBytes (s : State) (addr : Word) : List Byte → State
  | [] => s
  | b :: bs => placeBytes (placeByte s addr b) (addr + 1) bs

end Sys2Proof.Machine
end

