-- ==== Sys2Proof/Machine/Render.lean ====
section
/-! DEFINITION. The PPU's `advance`: dot and scanline counters, bands, tile building and frame rendering
(`45_ppu_render_pipeline.md`). It reads and writes PPU state, and reads character ROM and the colour table. -/

namespace Sys2Proof.Machine

/-! ### Tile building (R218 to R224) -/

/-- `BlockId(col, row)` (R219). -/
def blockId (col : Fin 32) (row : Fin 30) : Nat := (col.val % 4) / 2 + 2 * ((row.val % 4) / 2)

/-- The nametable index of a tile (R220). -/
def nametableIndex (col : Fin 32) (row : Fin 30) (off : Nat) : Nat := row.val * 32 + col.val + off

/-- The attribute-table index of a tile (R221). -/
def attributeIndex (col : Fin 32) (row : Fin 30) (off : Nat) : Nat :=
  col.val / 4 + 8 * (row.val / 4) + 0x03C0 + off

/-- The palette selector of a block in an attribute byte (R222). -/
def paletteSelector (attr : Byte) (block : Nat) : BitVec 2 := (attr >>> (block * 2)).setWidth 2

/-- One pixel index: bit 7 − x of each plane byte, "combined as plane1·2 + plane0" (R223). -/
def pixelIndex (p0 p1 : Byte) (x : Fin 8) : BitVec 2 :=
  BitVec.ofBool (p1.getLsbD (7 - x.val)) ++ BitVec.ofBool (p0.getLsbD (7 - x.val))

/-- One row of pixel indices, leftmost first. -/
def pixelRow (p0 p1 : Byte) : Vector (BitVec 2) 8 :=
  #v[pixelIndex p0 p1 0, pixelIndex p0 p1 1, pixelIndex p0 p1 2, pixelIndex p0 p1 3,
     pixelIndex p0 p1 4, pixelIndex p0 p1 5, pixelIndex p0 p1 6, pixelIndex p0 p1 7]

/-- `Store.read(CHR, i)`. -/
def chrRead (s : State) (i : Nat) : Except FaultValue Byte := storeRead .chr (capacity s.cart .chr) s.cart.chr i

/-- The two plane bytes of pixel row `y`, plane 0 read first (R223). -/
def pixelRowAt (s : State) (base y : Nat) : Except FaultValue (Vector (BitVec 2) 8) :=
  match chrRead s (base + y) with
  | .error f => .error f
  | .ok p0 =>
    match chrRead s (base + 8 + y) with
    | .error f => .error f
    | .ok p1 => .ok (pixelRow p0 p1)

/-- Where a tile's pattern begins in character ROM (R223). -/
def patternBase (p : Ppu) (pidx : Byte) : Nat := pidx.toNat * 16 + p.bgBase

/-- `PixelMatrix(pidx)`: the sixteen bytes in the order of R223, the first fault ending it. -/
def pixelMatrix (s : State) (pidx : Byte) : Except FaultValue PixelMatrix := do
  let r0 ← pixelRowAt s (patternBase s.ppu pidx) 0
  let r1 ← pixelRowAt s (patternBase s.ppu pidx) 1
  let r2 ← pixelRowAt s (patternBase s.ppu pidx) 2
  let r3 ← pixelRowAt s (patternBase s.ppu pidx) 3
  let r4 ← pixelRowAt s (patternBase s.ppu pidx) 4
  let r5 ← pixelRowAt s (patternBase s.ppu pidx) 5
  let r6 ← pixelRowAt s (patternBase s.ppu pidx) 6
  let r7 ← pixelRowAt s (patternBase s.ppu pidx) 7
  return #v[r0, r1, r2, r3, r4, r5, r6, r7]

/-- `BuildTile(col, row, off)`: it writes nothing (R218); the scroll offset is always zero (R224). -/
def buildTile (s : State) (col : Fin 32) (row : Fin 30) (off : Nat) : Except FaultValue Tile := do
  let pidx ← storeRead .vram 0x0800 s.ppu.vram (nametableIndex col row off)
  let attr ← storeRead .vram 0x0800 s.ppu.vram (attributeIndex col row off)
  let px ← pixelMatrix s pidx
  return ⟨col, row, px, paletteSelector attr (blockId col row), 0⟩

/-- The columns of a band in ascending order (R216). -/
def bandColumns : List (Fin 32) := List.finRange 32

/-- Append the tiles of the given columns one after the other; a fault leaves those already appended (R229). -/
def appendTiles (row : Fin 30) : List (Fin 32) → State → Result
  | [], s => .next s
  | col :: cols, s =>
    orRaise (buildTile s col row s.params.ntOffset) s fun t =>
    appendTiles row cols (s.setPpu (s.ppu.setTiles (s.ppu.tiles ++ [t])))

/-- `BuildBand(row)`: the 32 tiles of a tile row (R216). -/
def buildBand (row : Fin 30) (s : State) : Result := appendTiles row bandColumns s

/-! ### Frame rendering (R225, R226) -/

/-- `Colour(sel, p)`: palette RAM through `PalIndex`, then the 64-entry colour table, which has no entry for a byte of
64 or more (R226). -/
def colour (p : Ppu) (sel px : BitVec 2) : Except FaultValue (BitVec 32) :=
  let c := (Cells.read p.pal (palIndex (sel.toNat * 4 + px.toNat))).toNat
  if h : c < 64 then .ok (Config.rgbTable ⟨c, h⟩) else .error (.storageOutOfRange .rgbTable c)

/-- The frame-buffer cell of pixel (x, y) of a tile (R225). -/
def frameIndex (t : Tile) (y x : Fin 8) : Nat := (t.row.val * 8 + y.val) * 256 + (t.col.val * 8 + x.val)

/-- The pixels of a tile, row by row (R225). -/
def pixelPositions : List (Fin 8 × Fin 8) :=
  (List.finRange 8).flatMap fun y => (List.finRange 8).map fun x => (y, x)

/-- Write the given pixels of a tile; a fault leaves those already written (R229). -/
def plotPixels (t : Tile) : List (Fin 8 × Fin 8) → State → Result
  | [], s => .next s
  | (y, x) :: rest, s =>
    orRaise (colour s.ppu t.sel t.px[y][x]) s fun c =>
    plotPixels t rest (s.setPpu (s.ppu.setFrame (Cells.write s.ppu.frame (frameIndex t y x) c)))

/-- Write the given tiles in sequence order. -/
def plotTiles : List Tile → State → Result
  | [], s => .next s
  | t :: ts, s => andThen (plotPixels t pixelPositions s) (plotTiles ts)

/-- `Render()`: the sequence is rendered, then "consumed and discarded" (R225). -/
def render (s : State) : Result :=
  andThen (plotTiles s.ppu.tiles s) fun t => .next (t.setPpu (t.ppu.setTiles []))

/-! ### advance (R210) -/

/-- The band step of a dot wrap: a band at the scanlines 8, 16, ..., 240 just reached (R215). -/
def bandStep (s : State) : Result :=
  if h : s.ppu.scanline ≤ 240 ∧ s.ppu.scanline % 8 = 0 then
    buildBand ⟨s.ppu.scanline / 8 - 1, by omega⟩ s
  else .next s

/-- The frame step of a dot wrap: at scanline 262 back to 0, then rendering (R217). -/
def frameStep (s : State) : Result :=
  if s.ppu.scanline = 262 then render (s.setPpu (s.ppu.setScanline 0)) else .next s

/-- The dot wrap: the counter is reduced and the scanline counter incremented, then band and frame (R213, R214). -/
def dotWrap (s : State) : Result :=
  andThen (bandStep (s.setPpu ((s.ppu.setDot (s.ppu.dot - Config.dotWrapSub)).setScanline (s.ppu.scanline + 1))))
    frameStep

/-- Accumulation and frame start: the dots are added, and at scanline 0 the tile sequence is emptied (R211, R212). -/
def accumulate (n : Nat) (s : State) : State :=
  s.setPpu ((s.ppu.setDot (s.ppu.dot + n)).setTiles (if s.ppu.scanline = 0 then [] else s.ppu.tiles))

/-- `advance(n)`: at most one dot wrap a call (R210, R213). -/
def advance (n : Nat) (s : State) : Result :=
  if 341 ≤ s.ppu.dot + n then dotWrap (accumulate n s) else .next (accumulate n s)

end Sys2Proof.Machine
end

