-- ==== Sys2Proof/Machine/Step.lean ====
section
/-! DEFINITION. One step of the machine: one iteration of the host's run loop, the CPU's `step()` and then `advance` with
exactly the cycle count it returned (`70_reset_and_hazards.md` R277). -/

namespace Sys2Proof.Machine

/-- The CPU's `step()`: fetch, then the handler; a successful one returns the entry's base cycle count
(`40_fetch_decode_dispatch.md` R120, R139). -/
def cpuStep (s : State) : Host.Outcome (State × Nat) Fault Refusal :=
  match fetch s with
  | .error f => .fault f
  | .ok (i, n, t) => andThen (exec i t) fun u => .next (u, n)

/-- One iteration of the run loop. A halted machine has no further step (`60_exceptions.md` R251); a fault of the CPU's
`step()` is reported and `advance` is not called (R248). -/
def step (s : State) : Host.Outcome State Fault Refusal :=
  match s.halted with
  | some f => .fault (.stuck f)
  | none => andThen (cpuStep s) fun r => advance r.2 r.1

/-- `s` with the instruction whose bits are `w` placed at its PC, and not halted, so that the very next step fetches and
runs it: it stands for the loading of a program from outside (notes/assumptions/3.md). -/
def State.withFetchWord (s : State) (nbits w : Nat) : State :=
  (placeBytes s s.pc (bytesOfTableWord nbits w)).setHalted none

end Sys2Proof.Machine
end

