-- ==== Sys2Proof/Machine/Launch.lean ====
section
/-! DEFINITION. The CPU's `reset()`, and the launch: the cartridge image, which cartridges are admitted, construction
(`70_reset_and_hazards.md` R270 to R276, `00_scope.md` R8). -/

namespace Sys2Proof.Machine

/-- The CPU part of the reset state, with the PC given: everything else is left as it is (R270, R272). -/
def State.cpuResetTo (s : State) (pc : Word) : State :=
  { s with a := 0x00, x := 0x00, y := 0x00, sp := 0xFD, pc := pc, flags := Flags.reset }

/-- `reset()`: the PC is the little-endian word at 0xFFFC, read over the bus. The host may call it between any two
steps; it touches no RAM, PPU or bus state and not `halted` (R270, R272). -/
def cpuReset (s : State) : Result :=
  orRaise (memReadWord s 0xFFFC) s fun w => .next (s.cpuResetTo w)

/-- The launch parameters the source does not fix: the initial work RAM and PPU contents (`00_scope.md` R7, D21, D22). -/
structure LaunchContents where
  ram : Memory
  ctrl : Byte
  mask : Byte
  vaddr : Word
  oamaddr : Byte
  vram : Memory
  oam : Memory
  pal : Memory
  frame : FrameBuffer
  deriving DecidableEq, Repr

/-- The PPU at construction (`10_state.md` R46). -/
def LaunchContents.ppu (l : LaunchContents) : Ppu :=
  ⟨l.ctrl, l.mask, .awaitingHighByte, l.vaddr, l.oamaddr, l.vram, l.oam, l.pal, 0, 0, [], l.frame⟩

/-- The constructed machine, before its first `reset()` (R273, R274). The CPU's registers and flags hold no value there:
the ones written here are overwritten by the reset that `launch` applies before any step. -/
def construct (c : Cartridge) (p : Params) (l : LaunchContents) : State :=
  ⟨0, 0, 0, 0, 0, Flags.reset, l.ram, l.ppu, c, p, none⟩

/-- "A model admits only mapper number 0 and `PRG_BANKS ≥ 1`" (`00_scope.md` R8). -/
def Cartridge.admitted (c : Cartridge) : Bool := c.mapper == 0 && decide (1 ≤ c.prgBanks)

/-- Launch: every other cartridge is refused, and a table with two entries for one opcode (`10_state.md` R29); then
construction and the first `reset()` (`00_scope.md` R8, R274). -/
def launch (c : Cartridge) (p : Params) (l : LaunchContents) : Result :=
  if c.admitted then
    if tableWf p.table then cpuReset (construct c p l) else .refused .tableNotAdmitted
  else .refused .cartridgeNotAdmitted

/-! ### The cartridge image, the host interface that produces `PRG` and `CHR` (R276) -/

/-- The mapper number: `(flags2[7:4] << 4) | flags[7:4]` (R276). -/
def mapperNumber (flags flags2 : Byte) : Byte := (flags2 &&& 0xF0) ||| (flags >>> 4)

/-- The cartridge of an image whose header bytes 4 to 7 are given and whose bytes after the header are `body` (R276). -/
def cartridgeOf (prgBanks chrBanks flags flags2 : Byte) (body : List Byte) : Cartridge :=
  { prg := Memory.ofBytes 0 (body.take (prgBanks.toNat * 16384))
    prgBanks := prgBanks.toNat
    chr := Memory.ofBytes 0 ((body.drop (prgBanks.toNat * 16384)).take (chrBanks.toNat * 8192))
    chrBanks := chrBanks.toNat
    mapper := mapperNumber flags flags2
    verticalMirroring := flags.getLsbD 0
    battery := flags.getLsbD 1 }

/-- The loader: a wrong signature is a format error (R276, `60_exceptions.md` R241); an image that ends before its header
or before the contents the header announces is refused, since the spec does not say what becomes of it. -/
def parseCartridge (image : List Byte) : Host.Outcome Cartridge Fault Refusal :=
  if image.take 4 = Config.cartridgeMagic.toList then
    match image.drop 4 with
    | prgBanks :: chrBanks :: flags :: flags2 :: rest =>
      if rest.length < 8 + prgBanks.toNat * 16384 + chrBanks.toNat * 8192 then .refused .imageTooShort
      else .next (cartridgeOf prgBanks chrBanks flags flags2 (rest.drop 8))
    | _ => .refused .imageTooShort
  else .fault .formatError

end Sys2Proof.Machine
end

