-- ==== Sys2Proof/Safety.lean ====
section
/-! DEFINITION. The terms claims are made in: the invariant of the machine, when rendering cannot fault, and which
address an instruction stores to. -/

namespace Sys2Proof.Machine

/-- Every memory is in canonical form and lists no cell at or above its device's capacity (`20_memory.md` R62). -/
abbrev State.MemoriesWf (s : State) : Prop :=
  (Memory.wf s.ram = true ∧ Cells.below 0x0800 s.ram = true) ∧
  (Memory.wf s.ppu.vram = true ∧ Cells.below 0x0800 s.ppu.vram = true) ∧
  (Memory.wf s.ppu.oam = true ∧ Cells.below 256 s.ppu.oam = true) ∧
  (Memory.wf s.ppu.pal = true ∧ Cells.below 32 s.ppu.pal = true) ∧
  (Cells.wf s.ppu.frame = true ∧ Cells.below 61440 s.ppu.frame = true) ∧
  (Memory.wf s.cart.prg = true ∧ Cells.below (capacity s.cart .prg) s.cart.prg = true) ∧
  (Memory.wf s.cart.chr = true ∧ Cells.below (capacity s.cart .chr) s.cart.chr = true)

/-- Between two steps the scanline counter is in [0, 261]; and the dot counter is at most 340, where the instruction table
has no cycle count above 314: a greater one could outrun the one wrap a call makes (`10_state.md` R42,
`45_ppu_render_pipeline.md` R213, R214). -/
abbrev State.CountersWf (s : State) : Prop :=
  s.ppu.scanline < 262 ∧ ((∀ e ∈ s.params.table, e.cycles ≤ 314) → s.ppu.dot ≤ 340)

/-- "`P.Z` and `P.N` are never both 1" (`40_fetch_decode_dispatch.md` R137). -/
abbrev State.FlagsWf (s : State) : Prop := (s.flags.z && s.flags.n) = false

/-- The invariant that every step keeps. -/
abbrev State.Inv (s : State) : Prop := s.MemoriesWf ∧ s.CountersWf ∧ s.FlagsWf

/-- "With `CHR_BANKS ≥ 1`, `NT_OFFSET = 0` and every reachable palette cell below 64, `advance` cannot fault"
(`45_ppu_render_pipeline.md` R229): the premise, with every `NT_OFFSET` that is not "above 0x400". Rendering reaches the cells
0 to 15 (R226). -/
def State.Renderable (s : State) : Prop :=
  1 ≤ s.cart.chrBanks ∧ s.params.ntOffset ≤ 0x400 ∧ ∀ i < 16, (Cells.read s.ppu.pal i).toNat < 64

/-- The address a store instruction stores to, or the fault of its pointer reads; `none` for the other instructions
(`41_load_store.md` R153). It is the expression the instruction's meaning uses. -/
def storeAddress (s : State) : Instr → Option (Except FaultValue Word)
  | .staZp b => some (.ok (eaZeroPage b))
  | .staZpX b => some (.ok (eaZeroPageX s b))
  | .staAbs w => some (.ok (eaAbsolute w))
  | .staAbsX w => some (.ok (eaAbsoluteX s w))
  | .staAbsY w => some (.ok (eaAbsoluteY s w))
  | .staIndX b => some (eaIndexedIndirect s b)
  | .staIndY b => some (eaIndirectIndexed s b)
  | .staMode m w => some (resolve s m w)
  | .ldaImm _ | .ldaZp _ | .ldaZpX _ | .ldaAbs _ | .ldaAbsX _ | .ldaAbsY _ | .ldaIndX _ | .ldaIndY _
  | .ldxImm _ | .ldxZp _ | .ldxZpY _ | .ldxAbs _ | .ldxAbsY _
  | .ldyImm _ | .ldyZp _ | .ldyZpX _ | .ldyAbs _ | .ldyAbsX _
  | .inx | .iny | .dex | .dey | .txs | .jmpAbs _ | .jmpInd _ | .bne _ | .sei
  | .ldaMode _ _ | .ldxMode _ _ | .ldyMode _ _ | .inxMode _ _ | .inyMode _ _ | .dexMode _ _ | .deyMode _ _ | .txsMode _ _
  | .jmpMode _ _ | .bneMode _ _ | .seiMode _ _ => none

/-- The register a load, an increment or a decrement writes; `none` for the other instructions (`10_state.md` R21,
R22). -/
def destination : Instr → Option Reg
  | .ldaImm _ | .ldaZp _ | .ldaZpX _ | .ldaAbs _ | .ldaAbsX _ | .ldaAbsY _ | .ldaIndX _ | .ldaIndY _ | .ldaMode _ _ => some .a
  | .ldxImm _ | .ldxZp _ | .ldxZpY _ | .ldxAbs _ | .ldxAbsY _ | .inx | .dex
  | .ldxMode _ _ | .inxMode _ _ | .dexMode _ _ => some .x
  | .ldyImm _ | .ldyZp _ | .ldyZpX _ | .ldyAbs _ | .ldyAbsX _ | .iny | .dey
  | .ldyMode _ _ | .inyMode _ _ | .deyMode _ _ => some .y
  | .staZp _ | .staZpX _ | .staAbs _ | .staAbsX _ | .staAbsY _ | .staIndX _ | .staIndY _
  | .txs | .jmpAbs _ | .jmpInd _ | .bne _ | .sei
  | .staMode _ _ | .txsMode _ _ | .jmpMode _ _ | .bneMode _ _ | .seiMode _ _ => none

/-- The bytes the bus reads from `addr` on are `bytes`. -/
def BytesAt (s : State) (addr : Word) : List Byte → Prop
  | [] => True
  | b :: bs => memRead s addr = .ok b ∧ BytesAt s (addr + 1) bs

/-- `exec i s` takes the fault `f` and leaves `s` halted by it (`60_exceptions.md` R249, R251). -/
def Faults (i : Instr) (s : State) (f : FaultValue) : Prop :=
  exec i s = .fault (.raised f { s with halted := some f })

/-- In state `s`, instruction `i` reads the byte at `addr` and leaves `after` of it; a fault of the read is the
instruction's, and which reads fault is said by address (`41_load_store.md` R150). -/
def ReadsInto (i : Instr) (s : State) (addr : Word) (after : Byte → State) : Prop :=
  (∀ v, memRead s addr = .ok v → exec i s = .next (after v)) ∧
  (∀ f, memRead s addr = .error f → Faults i s f) ∧
  (0x2000 ≤ addr.toNat → addr.toNat < 0x8000 → Faults i s (.unmappedAddress .cpuBus addr .read)) ∧
  (0x0800 ≤ addr.toNat → addr.toNat < 0x2000 → s.params.ramMirror = false →
    Faults i s (.storageOutOfRange .ram addr.toNat))

/-- In state `s`, instruction `i` stores A at `addr`: in work RAM, in the PPU port, or in a sink
(`41_load_store.md` R153, `20_memory.md` R65, R69). -/
def StoresAt (i : Instr) (s : State) (addr : Word) : Prop :=
  (addr.toNat < 0x0800 → exec i s = .next { s with ram := Cells.write s.ram addr.toNat s.a }) ∧
  (0x0800 ≤ addr.toNat → addr.toNat < 0x2000 → s.params.ramMirror = true →
    exec i s = .next { s with ram := Cells.write s.ram (addr.toNat % 0x0800) s.a }) ∧
  (0x0800 ≤ addr.toNat → addr.toNat < 0x2000 → s.params.ramMirror = false →
    Faults i s (.storageOutOfRange .ram addr.toNat)) ∧
  (0x2000 ≤ addr.toNat → addr.toNat < 0x4000 →
    (∀ p, ppuWrite s.ppu addr s.a = .ok p → exec i s = .next { s with ppu := p }) ∧
    (∀ f, ppuWrite s.ppu addr s.a = .error f → Faults i s f)) ∧
  (0x4000 ≤ addr.toNat → exec i s = .next s)

/-- The word at the page-zero pointer `p`: low byte first, and the pointer's successor wraps within the page. Page zero is
work RAM, so neither read can fault (`40_fetch_decode_dispatch.md` R135, R136). -/
def pointerWord (s : State) (p : Byte) : Word := Cells.read s.ram (p + 1).toNat ++ Cells.read s.ram p.toNat

/-- The opcode, the length in bytes and the base cycle count of an instruction in the default table (`30_encoding.md`
R104). -/
def HasRow (i : Instr) (opcode : Byte) (length cycles : Nat) : Prop :=
  lookup instrTable opcode = some ⟨opcode, i.mnemonic, i.mode, cycles⟩ ∧
  encode instrTable i = some (opcode :: i.operandBytes) ∧ (opcode :: i.operandBytes).length = length

/-- Every byte the bus reads, and every PPU memory cell, is in `t` what it is in `s`. -/
def SameMemory (s t : State) : Prop :=
  (∀ addr, memRead t addr = memRead s addr) ∧
  (∀ k, Cells.read t.ppu.vram k = Cells.read s.ppu.vram k) ∧
  (∀ k, Cells.read t.ppu.oam k = Cells.read s.ppu.oam k) ∧
  (∀ k, Cells.read t.ppu.pal k = Cells.read s.ppu.pal k) ∧
  (∀ k, Cells.read t.ppu.frame k = Cells.read s.ppu.frame k)

/-- `t` agrees with `s` on everything `advance` reads: the control register, video and palette RAM, the counters, the
tile sequence, the frame, character ROM and `NT_OFFSET` (`45_ppu_render_pipeline.md` R210). -/
def SamePipelineInput (s t : State) : Prop :=
  t.ppu.ctrl = s.ppu.ctrl ∧ t.ppu.vram = s.ppu.vram ∧ t.ppu.pal = s.ppu.pal ∧ t.ppu.dot = s.ppu.dot ∧
  t.ppu.scanline = s.ppu.scanline ∧ t.ppu.tiles = s.ppu.tiles ∧ t.ppu.frame = s.ppu.frame ∧
  t.cart.chr = s.cart.chr ∧ t.cart.chrBanks = s.cart.chrBanks ∧ t.params.ntOffset = s.params.ntOffset

/-- The tile covers pixel column `x` and pixel row `y` (`45_ppu_render_pipeline.md` R225). -/
def Tile.Covers (tile : Tile) (x : Fin 256) (y : Fin 240) : Prop := tile.col.val = x.val / 8 ∧ tile.row.val = y.val / 8

/-- The palette byte a pixel's colour is looked up by (`45_ppu_render_pipeline.md` R226). -/
def paletteByte (p : Ppu) (tile : Tile) (y x : Fin 8) : Byte :=
  Cells.read p.pal (palIndex (tile.sel.toNat * 4 + (tile.px[y][x]).toNat))

/-- The tile row of the band that reaching the next scanline builds (`45_ppu_render_pipeline.md` R216). -/
def State.bandRow (s : State) : Nat := (s.ppu.scanline + 1) / 8 - 1

/-- The video RAM index of a tile's pattern index (`45_ppu_render_pipeline.md` R220). -/
def State.patternIndexAt (s : State) (col row : Nat) : Nat := row * 32 + col + s.params.ntOffset

/-- The video RAM index of the attribute byte that governs a tile (`45_ppu_render_pipeline.md` R221). -/
def State.attributeByteAt (s : State) (col row : Nat) : Nat := col / 4 + 8 * (row / 4) + 0x03C0 + s.params.ntOffset

/-- Both are in video RAM. -/
def State.TileInVram (s : State) (col row : Nat) : Prop :=
  s.patternIndexAt col row < 0x0800 ∧ s.attributeByteAt col row < 0x0800

/-- Tile `(col, row)` as the rules of tile building give it from video RAM and character ROM (`45_ppu_render_pipeline.md` R218
to R224). -/
def TileBuiltFrom (s : State) (col row : Nat) (tile : Tile) : Prop :=
  let pidx := (Cells.read s.ppu.vram (s.patternIndexAt col row)).toNat
  let attr := (Cells.read s.ppu.vram (s.attributeByteAt col row)).toNat
  let block := col % 4 / 2 + 2 * (row % 4 / 2)
  let base := pidx * 16 + (if s.ppu.ctrl.toNat / 16 % 2 = 1 then 0x1000 else 0)
  tile.col.val = col ∧ tile.row.val = row ∧ tile.scroll = 0 ∧ tile.sel.toNat = attr / 4 ^ block % 4 ∧
  ∀ y x : Fin 8, (tile.px[y][x]).toNat =
    2 * ((Cells.read s.cart.chr (base + 8 + y.val)).toNat / 2 ^ (7 - x.val) % 2) +
      (Cells.read s.cart.chr (base + y.val)).toNat / 2 ^ (7 - x.val) % 2

/-- `ts` is the beginning of tile row `row`: tile `k` of it is the one of column `k`. -/
def TilesBuiltFrom (s : State) (row : Nat) (ts : List Tile) : Prop :=
  ∀ (k : Nat) (tile : Tile), ts[k]? = some tile → TileBuiltFrom s k row tile

/-- Pixel `(y', x')` of a tile is rendered before pixel `(y, x)`: row by row, each from the left
(`45_ppu_render_pipeline.md` R225). -/
def PixelBefore (y' x' y x : Fin 8) : Prop := y'.val < y.val ∨ y'.val = y.val ∧ x'.val < x.val

end Sys2Proof.Machine
end

