-- ==== Sys2Proof/Certificates/Slice0/Obligations.lean ====
section
/-! DEFINITION. The statements for the provers. Each says which rule of `spec/` it formalises; a clause that rests on a
choice of the model's says so and names its log entry. -/

open Sys2Proof Sys2Proof.Machine

/-! ### Encoding -/

/-- `30_encoding.md` R100 to R104, `10_state.md` R29: no bit of an encoding is dropped, for every instruction table without two
entries for one opcode, every instruction and every operand; and an instruction has an encoding where the table has an entry
with its mnemonic and mode. That the table is a list of entries is the model's form (notes/assumptions/8.md). -/
def Obligations.EncodeThenDecodeGivesTheInstruction : Prop :=
  (∀ (t : Table) (i : Instr) (bytes rest : List Byte), tableWf t = true → i.wf = true → encode t i = some bytes →
    decode t (bytes ++ rest) = .ok (i, rest)) ∧
  (∀ (t : Table) (i : Instr), (∃ e ∈ t, e.mnemonic = i.mnemonic ∧ e.mode = i.mode) → ∃ bytes, encode t i = some bytes)

/-- `30_encoding.md` R100 to R104, the other direction: in every table, bytes decode to a well-formed instruction whose mnemonic
and mode are those of the entry of the first byte, and whose operand is theirs, but for an Immediate byte that nothing reads;
in the default table they begin with its encoding, so no two byte sequences of one length stand for one instruction. -/
def Obligations.DecodedBytesAreTheEncoding : Prop :=
  (∀ (t : Table) (bytes rest : List Byte) (i : Instr), decode t bytes = .ok (i, rest) →
    i.wf = true ∧ ∃ (e : Entry) (ops : List Byte), bytes = e.opcode :: ops ++ rest ∧ lookup t e.opcode = some e ∧
      e.mnemonic = i.mnemonic ∧ e.mode = i.mode ∧ ops.length = e.mode.format.operandBytes ∧
      (readsOperand e.mnemonic e.mode = true → ops = i.operandBytes)) ∧
  (∀ (bytes rest : List Byte) (i : Instr), decode instrTable bytes = .ok (i, rest) →
    ∃ front, encode instrTable i = some front ∧ bytes = front ++ rest)

/-- Words written out from `30_encoding.md` R104 and R107, at least one for every family. -/
def Obligations.SampleWordsDecode : Prop :=
  decode instrTable [0xA9, 0x3F] = .ok (.ldaImm 0x3F, []) ∧ decode instrTable [0xBD, 0x10, 0x80] = .ok (.ldaAbsX 0x8010, []) ∧
  decode instrTable [0xB6, 0x10] = .ok (.ldxZpY 0x10, []) ∧ decode instrTable [0xAC, 0x34, 0x12] = .ok (.ldyAbs 0x1234, []) ∧
  decode instrTable [0x8D, 0x06, 0x20] = .ok (.staAbs 0x2006, []) ∧ decode instrTable [0x91, 0x10] = .ok (.staIndY 0x10, []) ∧
  decode instrTable [0xE8] = .ok (.inx, []) ∧ decode instrTable [0x9A] = .ok (.txs, []) ∧
  decode instrTable [0x6C, 0x10, 0x00] = .ok (.jmpInd 0x0010, []) ∧ decode instrTable [0xD0, 0xFD] = .ok (.bne 0xFD, []) ∧
  decode instrTable [0x78] = .ok (.sei, []) ∧ decode instrTable [0xEA] = .error (.illegalOpcode 0xEA) ∧
  decode instrTable [0xAD, 0x00] = .error (.truncated 0xAD)

/-- `30_encoding.md` R104: the 34 rows, opcode, mnemonic, mode and base cycle count; the lengths are the modes'. The values are
the spec's from general knowledge (D1; notes/assumptions/8.md, 14.md). -/
def Obligations.OpcodeMapRows : Prop :=
  instrTable.map (fun e => (e.opcode, e.mnemonic, e.mode, 1 + e.mode.format.operandBytes, e.cycles)) =
    ([(0xA9, .lda, .immediate, 2, 2), (0xA5, .lda, .zeroPage, 2, 3), (0xB5, .lda, .zeroPageX, 2, 4),
     (0xAD, .lda, .absolute, 3, 4), (0xBD, .lda, .absoluteX, 3, 4), (0xB9, .lda, .absoluteY, 3, 4),
     (0xA1, .lda, .indexedIndirect, 2, 6), (0xB1, .lda, .indirectIndexed, 2, 5)] : List (Byte × Mnemonic × Mode × Nat × Nat)) ++
    ([(0xA2, .ldx, .immediate, 2, 2), (0xA6, .ldx, .zeroPage, 2, 3), (0xB6, .ldx, .zeroPageY, 2, 4),
     (0xAE, .ldx, .absolute, 3, 4), (0xBE, .ldx, .absoluteY, 3, 4),
     (0xA0, .ldy, .immediate, 2, 2), (0xA4, .ldy, .zeroPage, 2, 3), (0xB4, .ldy, .zeroPageX, 2, 4),
     (0xAC, .ldy, .absolute, 3, 4), (0xBC, .ldy, .absoluteX, 3, 4)] : List (Byte × Mnemonic × Mode × Nat × Nat)) ++
    ([(0x85, .sta, .zeroPage, 2, 3), (0x95, .sta, .zeroPageX, 2, 4), (0x8D, .sta, .absolute, 3, 4),
     (0x9D, .sta, .absoluteX, 3, 5), (0x99, .sta, .absoluteY, 3, 5), (0x81, .sta, .indexedIndirect, 2, 6),
     (0x91, .sta, .indirectIndexed, 2, 6)] : List (Byte × Mnemonic × Mode × Nat × Nat)) ++
    ([(0xE8, .inx, .implied, 1, 2), (0xC8, .iny, .implied, 1, 2), (0xCA, .dex, .implied, 1, 2),
     (0x88, .dey, .implied, 1, 2), (0x9A, .txs, .implied, 1, 2), (0x4C, .jmp, .absolute, 3, 3),
     (0x6C, .jmp, .indirect, 3, 5), (0xD0, .bne, .relative, 2, 2), (0x78, .sei, .implied, 1, 2)] : List (Byte × Mnemonic × Mode × Nat × Nat))

/-! ### Reset and launch -/

/-- `70_reset_and_hazards.md` R270 and R272, `10_state.md` R45: with a program bank `reset()` succeeds from every state,
leaves the CPU as the rule says, PC at the little-endian word at 0xFFFC, and everything else as it was. -/
def Obligations.ResetOperationLeavesTheResetState : Prop :=
  ∀ s : State, 1 ≤ s.cart.prgBanks →
    ∃ lo hi, memRead s 0xFFFC = .ok lo ∧ memRead s 0xFFFD = .ok hi ∧
      cpuReset s = .next { s with
        pc := hi ++ lo, sp := 0xFD, a := 0x00, x := 0x00, y := 0x00,
        flags := { c := false, z := false, i := true, d := false, b := Config.resetB, v := false, n := false } }

/-- `State.reset` is a state `reset()` leaves: applied to itself it gives itself, and the values of `10_state.md` R45 hold
in it. That its PC is 0x0000 rests on the blank cartridge, the model's choice (notes/assumptions/2.md). -/
def Obligations.ResetStateIsLeftByReset : Prop :=
  cpuReset State.reset = .next State.reset ∧ State.reset.sp = 0xFD ∧ State.reset.a = 0 ∧ State.reset.x = 0 ∧
  State.reset.y = 0 ∧ State.reset.flags.i = true ∧ State.reset.flags.u = true ∧
  State.reset.ppu.latch = .awaitingHighByte ∧ State.reset.halted = none

/-- `00_scope.md` R8, `10_state.md` R29, R45 and R46, `70_reset_and_hazards.md` R273 and R274: which launches are admitted, and
the machine an admitted launch gives. The zero counters are the spec's own decision (D21; notes/assumptions/14.md). -/
def Obligations.LaunchAdmitsMapperZeroWithProgramRom : Prop :=
  ∀ (c : Cartridge) (p : Params) (l : LaunchContents),
    (c.mapper ≠ 0 ∨ c.prgBanks = 0 → launch c p l = .refused .cartridgeNotAdmitted) ∧
    (c.mapper = 0 → 1 ≤ c.prgBanks → tableWf p.table = false → launch c p l = .refused .tableNotAdmitted) ∧
    (c.mapper = 0 → 1 ≤ c.prgBanks → tableWf p.table = true → ∃ s lo hi, launch c p l = .next s ∧
      memRead s 0xFFFC = .ok lo ∧ memRead s 0xFFFD = .ok hi ∧ s.pc = hi ++ lo ∧
      s.sp = 0xFD ∧ s.a = 0 ∧ s.x = 0 ∧ s.y = 0 ∧ s.flags = ⟨false, false, true, false, Config.resetB, false, false⟩ ∧
      s.cart = c ∧ s.params = p ∧ s.ram = l.ram ∧ s.halted = none ∧
      s.ppu.latch = .awaitingHighByte ∧ s.ppu.dot = 0 ∧ s.ppu.scanline = 0 ∧ s.ppu.tiles = [] ∧
      s.ppu.ctrl = l.ctrl ∧ s.ppu.mask = l.mask ∧ s.ppu.vaddr = l.vaddr ∧ s.ppu.oamaddr = l.oamaddr ∧
      s.ppu.vram = l.vram ∧ s.ppu.oam = l.oam ∧ s.ppu.pal = l.pal ∧ s.ppu.frame = l.frame)

/-- `70_reset_and_hazards.md` R276, `60_exceptions.md` R241: the cartridge header, for images as long as it announces. A
byte of the image reads back from the program or character buffer it belongs to. -/
def Obligations.CartridgeHeaderIsRead : Prop :=
  (∀ image : List Byte, image.take 4 ≠ Config.cartridgeMagic.toList → parseCartridge image = .fault .formatError) ∧
  ∀ (prgBanks chrBanks flags flags2 : Byte) (unused prg chr : List Byte), unused.length = 8 →
    prg.length = prgBanks.toNat * 16384 → chr.length = chrBanks.toNat * 8192 →
    ∃ c, parseCartridge
        (Config.cartridgeMagic.toList ++ [prgBanks, chrBanks, flags, flags2] ++ unused ++ prg ++ chr) = .next c ∧
      c.prgBanks = prgBanks.toNat ∧ c.chrBanks = chrBanks.toNat ∧
      c.mapper.toNat = flags2.toNat / 16 * 16 + flags.toNat / 16 ∧
      c.verticalMirroring = decide (flags.toNat % 2 = 1) ∧ c.battery = decide (flags.toNat / 2 % 2 = 1) ∧
      (∀ k, Cells.read c.prg k = prg.getD k 0) ∧ (∀ k, Cells.read c.chr k = chr.getD k 0) ∧
      Memory.wf c.prg = true ∧ Memory.wf c.chr = true

/-! ### The step -/

/-- `40_fetch_decode_dispatch.md` R120, R138 and R139, `70_reset_and_hazards.md` R277: a step runs the instruction that the
bytes at PC decode to, in whatever instruction table the machine has, with PC past its bytes, then `advance` with its entry's
base cycle count; a fault of the instruction is the step's. That a step takes in `advance` is the model's reading
(notes/assumptions/5.md). -/
def Obligations.StepRunsTheDecodedInstruction : Prop :=
  ∀ (s : State) (e : Entry) (bytes : List Byte) (i : Instr), s.halted = none → BytesAt s s.pc bytes →
    bytes.head? = some e.opcode → lookup s.params.table e.opcode = some e → decode s.params.table bytes = .ok (i, []) →
    (∀ t, exec i { s with pc := s.pc + BitVec.ofNat 16 bytes.length } = .next t → step s = advance e.cycles t) ∧
    (∀ f, exec i { s with pc := s.pc + BitVec.ofNat 16 bytes.length } = .fault f → step s = .fault f)

/-- `60_exceptions.md` R251, `10_state.md` R48: a step that raises a fault, in the fetch, the instruction or `advance`, sets
the fault status of a machine that had none, and "no further `step()`" follows: a step of a machine that a fault has halted,
this one or another, is stuck. That the stop is called `stuck` is the model's name (notes/assumptions/9.md). -/
def Obligations.FaultHaltsTheMachineForGood : Prop :=
  (∀ (s t : State) (f : FaultValue), step s = .fault (.raised f t) →
    s.halted = none ∧ t.halted = some f ∧ step t = .fault (.stuck f)) ∧
  (∀ (s : State) (f : FaultValue), s.halted = some f → step s = .fault (.stuck f))

/-- `40_fetch_decode_dispatch.md` R121: a fault of the opcode fetch ends the step with PC unchanged. -/
def Obligations.OpcodeFetchFaultLeavesPc : Prop :=
  ∀ (s : State) (f : FaultValue), s.halted = none → memRead s s.pc = .error f →
    step s = .fault (.raised f { s with halted := some f })

/-- `60_exceptions.md` R243, `30_encoding.md` R105: an opcode whose table entry is empty faults, with PC past the opcode byte,
no operand read and nothing else changed; in the default table the empty entries are those of all but the 34 opcodes, 222 of
them (D2; notes/assumptions/14.md). -/
def Obligations.IllegalOpcodeFaults : Prop :=
  (∀ (s : State) (op : Byte), s.halted = none → memRead s s.pc = .ok op → lookup s.params.table op = none →
    step s = .fault (.raised (.illegalOpcode op s.pc)
      { s with pc := s.pc + 1, halted := some (.illegalOpcode op s.pc) })) ∧
  (∀ op : Byte, lookup instrTable op = none ↔
    op ∉ ([0xA9, 0xA5, 0xB5, 0xAD, 0xBD, 0xB9, 0xA1, 0xB1, 0xA2, 0xA6, 0xB6, 0xAE, 0xBE, 0xA0, 0xA4, 0xB4, 0xAC,
      0xBC, 0x85, 0x95, 0x8D, 0x9D, 0x99, 0x81, 0x91, 0xE8, 0xC8, 0xCA, 0x88, 0x9A, 0x4C, 0x6C, 0xD0, 0x78] : List Byte)) ∧
  ((List.range 256).filter (fun n => (lookup instrTable (BitVec.ofNat 8 n)).isNone)).length = 222

/-- `40_fetch_decode_dispatch.md` R126 to R136: where PC stands when an operand read faults: at the operand (both reads of
a three-byte instruction come before PC moves), but past it for an Immediate, whose operand the handler reads if it is a load
(D31) and nothing reads otherwise. That the model's fetch does the load's read is its own form (notes/assumptions/10.md). -/
def Obligations.OperandFetchFaultLeavesPc : Prop :=
  ∀ (s : State) (op : Byte) (e : Entry), s.halted = none → memRead s s.pc = .ok op → lookup s.params.table op = some e →
    (∀ f, e.mode.format = .f2 → e.mode ≠ .immediate → memRead s (s.pc + 1) = .error f →
      step s = .fault (.raised f { s with pc := s.pc + 1, halted := some f })) ∧
    (∀ f, e.mode = .immediate → e.mnemonic.loads = true → memRead s (s.pc + 1) = .error f →
      step s = .fault (.raised f { s with pc := s.pc + 2, halted := some f })) ∧
    (e.mode = .immediate → e.mnemonic.loads = false →
      fetch s = .ok (build e.mnemonic .immediate 0 0, e.cycles, { s with pc := s.pc + 2 })) ∧
    (∀ f, e.mode.format = .f3 → memRead s (s.pc + 1) = .error f →
      step s = .fault (.raised f { s with pc := s.pc + 1, halted := some f })) ∧
    (∀ lo f, e.mode.format = .f3 → memRead s (s.pc + 1) = .ok lo → memRead s (s.pc + 2) = .error f →
      step s = .fault (.raised f { s with pc := s.pc + 1, halted := some f }))

/-- `40_fetch_decode_dispatch.md` R126: the value of an Immediate load is the byte at the operand's own address, which is
the one before the PC the handler sees. -/
def Obligations.ImmediateIsTheByteAtItsOwnAddress : Prop :=
  ∀ (s t : State) (v : Byte) (i : Instr) (n : Nat), (i = .ldaImm v ∨ i = .ldxImm v ∨ i = .ldyImm v) →
    fetch s = .ok (i, n, t) →
    memRead t (eaImmediate t) = .ok v ∧ eaImmediate t = s.pc + 1 ∧ t.pc = s.pc + 2

/-- `00_scope.md` R13: a step ends in a next state or a fault, and is never refused. -/
def Obligations.StepIsNeverRefused : Prop :=
  ∀ (s : State) (q : Refusal), step s ≠ .refused q

/-- `60_exceptions.md` R249: a fault of the CPU's `step()` leaves A, X, Y, SP, the flags and all memory as before the step;
PC may have moved, and the machine is halted by it. -/
def Obligations.CpuFaultChangesPcAlone : Prop :=
  ∀ (s t : State) (f : FaultValue), cpuStep s = .fault (.raised f t) →
    t = { s with pc := t.pc, halted := some f }

/-! ### Whole-machine rules -/

/-- From every state that meets the invariant, reached by a run or not, a step leads to one that meets it: every memory
canonical and within its capacity (`20_memory.md` R62), the scanline counter in 0 to 261 and, where no entry of the table
counts more than 314 cycles, the dot counter at most 340 (`45_ppu_render_pipeline.md` R213, R214), Z and N never both set
(`40_fetch_decode_dispatch.md` R137). -/
def Obligations.StepKeepsTheInvariant : Prop :=
  ∀ s t : State, s.Inv → step s = .next t → t.Inv

/-- The invariant holds right after reset. -/
def Obligations.ResetMeetsTheInvariant : Prop := State.reset.Inv

/-- `10_state.md` R26, R31, R32, R48 and R49: no step writes the cartridge, the parameters, the fault status of a machine that
goes on, or the flags C, D, B and V; the interrupt-disable flag, once set, stays set. -/
def Obligations.StepNeverWritesLaunchDataOrUnusedFlags : Prop :=
  ∀ s t : State, step s = .next t →
    t.cart = s.cart ∧ t.params = s.params ∧ s.halted = none ∧ t.halted = none ∧
    t.flags.c = s.flags.c ∧ t.flags.d = s.flags.d ∧ t.flags.b = s.flags.b ∧ t.flags.v = s.flags.v ∧
    (s.flags.i = true → t.flags.i = true)

/-- `44_ppu_register_port.md` R188: "Nothing but a write to 0x2006 changes `ppu.latch`". A step that moves the latch ran a
store whose address is 0x2006, and it moved it to the other state. -/
def Obligations.LatchMovesOnlyAtPort2006 : Prop :=
  ∀ s t : State, step s = .next t → t.ppu.latch ≠ s.ppu.latch →
    ∃ i n u, fetch s = .ok (i, n, u) ∧ storeAddress u i = some (.ok 0x2006)

/-! ### The bus -/

/-- `20_memory.md` R61, R63 and R64: the read side of the routing table, by address. That reads of 0x2000 to 0x7FFF, and of
0x0800 to 0x1FFF without mirroring, fault is the spec's own decision (D8, D9; notes/assumptions/14.md). -/
def Obligations.BusReadRouting : Prop :=
  ∀ (s : State) (addr : Word),
    (addr.toNat < 0x0800 → memRead s addr = .ok (Cells.read s.ram addr.toNat)) ∧
    (0x0800 ≤ addr.toNat → addr.toNat < 0x2000 → s.params.ramMirror = true →
      memRead s addr = .ok (Cells.read s.ram (addr.toNat % 0x0800))) ∧
    (0x0800 ≤ addr.toNat → addr.toNat < 0x2000 → s.params.ramMirror = false →
      memRead s addr = .error (.storageOutOfRange .ram addr.toNat)) ∧
    (0x2000 ≤ addr.toNat → addr.toNat < 0x8000 → memRead s addr = .error (.unmappedAddress .cpuBus addr .read)) ∧
    (0x8000 ≤ addr.toNat → s.cart.prgBanks = 0 →
      memRead s addr = .error (.storageOutOfRange .prg (addr.toNat - 0x8000))) ∧
    (0x8000 ≤ addr.toNat → s.cart.prgBanks = 1 → memRead s addr = .ok (Cells.read s.cart.prg (addr.toNat % 0x4000))) ∧
    (0x8000 ≤ addr.toNat → 2 ≤ s.cart.prgBanks →
      memRead s addr = .ok (Cells.read s.cart.prg (addr.toNat - 0x8000)))

/-- `20_memory.md` R65, R67, R68, R69 and R71: the write side of the routing table, by address. What a write to 0x0800 to
0x1FFF does is the spec's own decision (D9; notes/assumptions/14.md). -/
def Obligations.BusWriteRouting : Prop :=
  ∀ (s : State) (addr : Word) (v : Byte),
    (addr.toNat < 0x0800 → memWrite s addr v = .ok { s with ram := Cells.write s.ram addr.toNat v }) ∧
    (0x0800 ≤ addr.toNat → addr.toNat < 0x2000 → s.params.ramMirror = true →
      memWrite s addr v = .ok { s with ram := Cells.write s.ram (addr.toNat % 0x0800) v }) ∧
    (0x0800 ≤ addr.toNat → addr.toNat < 0x2000 → s.params.ramMirror = false →
      memWrite s addr v = .error (.storageOutOfRange .ram addr.toNat)) ∧
    (0x2000 ≤ addr.toNat → addr.toNat < 0x4000 →
      memWrite s addr v = (ppuWrite s.ppu addr v).map (fun p => { s with ppu := p })) ∧
    (0x4000 ≤ addr.toNat → memWrite s addr v = .ok s)

/-- `20_memory.md` R70: with a program bank no read of program ROM faults, and with exactly one the two halves are images
of it. -/
def Obligations.ProgramRomReadsNeverFault : Prop :=
  ∀ (s : State) (addr : Word), 0x8000 ≤ addr.toNat → 1 ≤ s.cart.prgBanks →
    (∃ v, memRead s addr = .ok v) ∧
    (s.cart.prgBanks = 1 → addr.toNat < 0xC000 → memRead s (addr + 0x4000) = memRead s addr)

/-- `20_memory.md` R77 and R79: a read after a write to work RAM gives the value written, and every address that is no
image of the one written reads as before. -/
def Obligations.WorkRamReadAfterWrite : Prop :=
  ∀ (s t : State) (addr : Word) (v : Byte), Memory.wf s.ram = true → addr.toNat < 0x2000 → memWrite s addr v = .ok t →
    memRead t addr = .ok v ∧
    ∀ other : Word, ¬ (other.toNat < 0x2000 ∧ ramIndex s other = ramIndex s addr) → memRead t other = memRead s other

/-! ### Loads and stores -/

/-- `41_load_store.md` R150: LDA in its eight modes. An Immediate's operand is the byte at the effective address, the one
before the next instruction; a page-zero read cannot fault. The pointers of `(zp,X)` and `(zp),Y` are R135's and R136's, from
general knowledge (D3), in rows the model keeps (notes/assumptions/8.md); which addresses fault is the spec's own decision
(D8, D9; notes/assumptions/14.md). -/
def Obligations.LdaLoadsTheAccumulator : Prop :=
  ∀ s : State,
    let after := fun v : Byte => { s with a := v, flags := { s.flags with z := v == 0, n := v.getLsbD 7 } }
    (∀ v, exec (.ldaImm v) s = .next (after v) ∧ HasRow (.ldaImm v) 0xA9 2 2) ∧
    (∀ u n v, fetch u = .ok (.ldaImm v, n, s) → memRead s (s.pc - 1) = .ok v) ∧
    (∀ b, exec (.ldaZp b) s = .next (after (Cells.read s.ram b.toNat)) ∧ HasRow (.ldaZp b) 0xA5 2 3) ∧
    (∀ b, exec (.ldaZpX b) s = .next (after (Cells.read s.ram (b + s.x).toNat)) ∧ HasRow (.ldaZpX b) 0xB5 2 4) ∧
    (∀ w, ReadsInto (.ldaAbs w) s w after ∧ HasRow (.ldaAbs w) 0xAD 3 4) ∧
    (∀ w, ReadsInto (.ldaAbsX w) s (w + s.x.setWidth 16) after ∧ HasRow (.ldaAbsX w) 0xBD 3 4) ∧
    (∀ w, ReadsInto (.ldaAbsY w) s (w + s.y.setWidth 16) after ∧ HasRow (.ldaAbsY w) 0xB9 3 4) ∧
    (∀ b, ReadsInto (.ldaIndX b) s (pointerWord s (b + s.x)) after ∧ HasRow (.ldaIndX b) 0xA1 2 6) ∧
    (∀ b, ReadsInto (.ldaIndY b) s (pointerWord s b + s.y.setWidth 16) after ∧ HasRow (.ldaIndY b) 0xB1 2 5)

/-- `41_load_store.md` R151: LDX in its five modes; it indexes with Y. Which addresses fault is the spec's own decision
(D8, D9; notes/assumptions/14.md). -/
def Obligations.LdxLoadsIndexX : Prop :=
  ∀ s : State,
    let after := fun v : Byte => { s with x := v, flags := { s.flags with z := v == 0, n := v.getLsbD 7 } }
    (∀ v, exec (.ldxImm v) s = .next (after v) ∧ HasRow (.ldxImm v) 0xA2 2 2) ∧
    (∀ u n v, fetch u = .ok (.ldxImm v, n, s) → memRead s (s.pc - 1) = .ok v) ∧
    (∀ b, exec (.ldxZp b) s = .next (after (Cells.read s.ram b.toNat)) ∧ HasRow (.ldxZp b) 0xA6 2 3) ∧
    (∀ b, exec (.ldxZpY b) s = .next (after (Cells.read s.ram (b + s.y).toNat)) ∧ HasRow (.ldxZpY b) 0xB6 2 4) ∧
    (∀ w, ReadsInto (.ldxAbs w) s w after ∧ HasRow (.ldxAbs w) 0xAE 3 4) ∧
    (∀ w, ReadsInto (.ldxAbsY w) s (w + s.y.setWidth 16) after ∧ HasRow (.ldxAbsY w) 0xBE 3 4)

/-- `41_load_store.md` R152: LDY in its five modes; it indexes with X. Which addresses fault is the spec's own decision
(D8, D9; notes/assumptions/14.md). -/
def Obligations.LdyLoadsIndexY : Prop :=
  ∀ s : State,
    let after := fun v : Byte => { s with y := v, flags := { s.flags with z := v == 0, n := v.getLsbD 7 } }
    (∀ v, exec (.ldyImm v) s = .next (after v) ∧ HasRow (.ldyImm v) 0xA0 2 2) ∧
    (∀ u n v, fetch u = .ok (.ldyImm v, n, s) → memRead s (s.pc - 1) = .ok v) ∧
    (∀ b, exec (.ldyZp b) s = .next (after (Cells.read s.ram b.toNat)) ∧ HasRow (.ldyZp b) 0xA4 2 3) ∧
    (∀ b, exec (.ldyZpX b) s = .next (after (Cells.read s.ram (b + s.x).toNat)) ∧ HasRow (.ldyZpX b) 0xB4 2 4) ∧
    (∀ w, ReadsInto (.ldyAbs w) s w after ∧ HasRow (.ldyAbs w) 0xAC 3 4) ∧
    (∀ w, ReadsInto (.ldyAbsX w) s (w + s.x.setWidth 16) after ∧ HasRow (.ldyAbsX w) 0xBC 3 4)

/-- `41_load_store.md` R153: STA in its seven modes; no register and no flag changes. The pointers of `(zp,X)` and `(zp),Y` are
R135's and R136's, from general knowledge (D3), in rows the model keeps (notes/assumptions/8.md); what a store to 0x0800 to
0x1FFF does is the spec's own decision (D9; notes/assumptions/14.md). -/
def Obligations.StaStoresTheAccumulator : Prop :=
  ∀ s : State,
    (∀ b, exec (.staZp b) s = .next { s with ram := Cells.write s.ram b.toNat s.a } ∧ HasRow (.staZp b) 0x85 2 3) ∧
    (∀ b, exec (.staZpX b) s = .next { s with ram := Cells.write s.ram (b + s.x).toNat s.a } ∧
      HasRow (.staZpX b) 0x95 2 4) ∧
    (∀ w, StoresAt (.staAbs w) s w ∧ HasRow (.staAbs w) 0x8D 3 4) ∧
    (∀ w, StoresAt (.staAbsX w) s (w + s.x.setWidth 16) ∧ HasRow (.staAbsX w) 0x9D 3 5) ∧
    (∀ w, StoresAt (.staAbsY w) s (w + s.y.setWidth 16) ∧ HasRow (.staAbsY w) 0x99 3 5) ∧
    (∀ b, StoresAt (.staIndX b) s (pointerWord s (b + s.x)) ∧ HasRow (.staIndX b) 0x81 2 6) ∧
    (∀ b, StoresAt (.staIndY b) s (pointerWord s b + s.y.setWidth 16) ∧ HasRow (.staIndY b) 0x91 2 6)

/-! ### Register instructions -/

/-- `42_register_ops.md` R160. -/
def Obligations.InxIncrementsX : Prop :=
  ∀ s : State, HasRow .inx 0xE8 1 2 ∧ ∃ r : Byte, r.toNat = (s.x.toNat + 1) % 256 ∧
    exec .inx s = .next { s with x := r, flags := { s.flags with z := r == 0, n := r.getLsbD 7 } }

/-- `42_register_ops.md` R161. -/
def Obligations.InyIncrementsY : Prop :=
  ∀ s : State, HasRow .iny 0xC8 1 2 ∧ ∃ r : Byte, r.toNat = (s.y.toNat + 1) % 256 ∧
    exec .iny s = .next { s with y := r, flags := { s.flags with z := r == 0, n := r.getLsbD 7 } }

/-- `42_register_ops.md` R162. -/
def Obligations.DexDecrementsX : Prop :=
  ∀ s : State, HasRow .dex 0xCA 1 2 ∧ ∃ r : Byte, r.toNat = (s.x.toNat + 255) % 256 ∧
    exec .dex s = .next { s with x := r, flags := { s.flags with z := r == 0, n := r.getLsbD 7 } }

/-- `42_register_ops.md` R163. -/
def Obligations.DeyDecrementsY : Prop :=
  ∀ s : State, HasRow .dey 0x88 1 2 ∧ ∃ r : Byte, r.toNat = (s.y.toNat + 255) % 256 ∧
    exec .dey s = .next { s with y := r, flags := { s.flags with z := r == 0, n := r.getLsbD 7 } }

/-- `42_register_ops.md` R164: SP only, no flag. -/
def Obligations.TxsCopiesXToSp : Prop :=
  ∀ s : State, exec .txs s = .next { s with sp := s.x } ∧ HasRow .txs 0x9A 1 2

/-! ### Control transfer and SEI -/

/-- `43_control_and_flag.md` R170, `40_fetch_decode_dispatch.md` R130 and R134: JMP in its two modes. Where the pointer's low
byte is 0xFF the high byte comes from where the open parameter `JMP_IND_PAGE_WRAP` says (notes/assumptions/7.md). The pointer
rule is from general knowledge (D3), in a row the model keeps (notes/assumptions/8.md). -/
def Obligations.JmpSetsPc : Prop :=
  ∀ (s : State) (w : Word),
    let hiAt := if w.toNat % 256 = 0xFF ∧ Config.jmpIndPageWrap = true then w - 0xFF else w + 1
    exec (.jmpAbs w) s = .next { s with pc := w } ∧ HasRow (.jmpAbs w) 0x4C 3 3 ∧
    (∀ f, memRead s w = .error f ∨ (∃ lo, memRead s w = .ok lo) ∧ memRead s hiAt = .error f →
      Faults (.jmpInd w) s f) ∧
    (∀ lo hi, memRead s w = .ok lo → memRead s hiAt = .ok hi → exec (.jmpInd w) s = .next { s with pc := hi ++ lo }) ∧
    HasRow (.jmpInd w) 0x6C 3 5

/-- `43_control_and_flag.md` R171, `40_fetch_decode_dispatch.md` R133: not taken, nothing changes; taken, PC is the sum of
the PC past the branch and the signed offset, modulo 65536. The cycle count is 2 either way. The modulus is the spec's own
decision (D6; notes/assumptions/14.md). -/
def Obligations.BneBranchesOnZeroClear : Prop :=
  ∀ (s : State) (offset : Byte),
    (s.flags.z = true → exec (.bne offset) s = .next s) ∧
    (s.flags.z = false → exec (.bne offset) s = .next { s with pc := BitVec.ofInt 16 (s.pc.toNat + offset.toInt) }) ∧
    HasRow (.bne offset) 0xD0 2 2

/-- `43_control_and_flag.md` R172. -/
def Obligations.SeiSetsInterruptDisable : Prop :=
  ∀ s : State, exec .sei s = .next { s with flags := { s.flags with i := true } } ∧ HasRow .sei 0x78 1 2

/-! ### Every handler in every mode -/

/-- `40_fetch_decode_dispatch.md` R120, R123 to R136 and R138, `41_load_store.md` R150 to R153, `42_register_ops.md` R160 to R164,
`43_control_and_flag.md` R170 to R172: what each mode resolves to, and what each of the twelve handlers does with the address,
in whatever mode an `INSTR_TABLE` other than the default pairs it with (`00_scope.md` R7). A fault of the resolution is the
instruction's, also where the handler does not look at the address. The pointer rules are from general knowledge (D3), the
moduli the spec's own decision (D6; notes/assumptions/14.md), and the constructors for these pairs the model's form
(notes/assumptions/8.md). -/
def Obligations.EveryHandlerRunsInEveryMode : Prop :=
  ∀ (s : State) (w : Word),
    let lo := (w.setWidth 8 : Byte)
    let hiAt := if w.toNat % 256 = 0xFF ∧ Config.jmpIndPageWrap = true then w - 0xFF else w + 1
    let zn := fun v : Byte => { s.flags with z := v == 0, n := v.getLsbD 7 }
    resolve s .implied w = .ok 0 ∧ resolve s .accumulator w = .ok 0 ∧ resolve s .immediate w = .ok (s.pc - 1) ∧
    resolve s .zeroPage w = .ok (lo.setWidth 16) ∧ resolve s .zeroPageX w = .ok ((lo + s.x).setWidth 16) ∧
    resolve s .zeroPageY w = .ok ((lo + s.y).setWidth 16) ∧ resolve s .absolute w = .ok w ∧
    resolve s .absoluteX w = .ok (w + s.x.setWidth 16) ∧ resolve s .absoluteY w = .ok (w + s.y.setWidth 16) ∧
    resolve s .relative w = .ok (BitVec.ofInt 16 (s.pc.toNat + lo.toInt)) ∧
    (∀ l h, memRead s w = .ok l → memRead s hiAt = .ok h → resolve s .indirect w = .ok (h ++ l)) ∧
    (∀ f, memRead s w = .error f ∨ (∃ l, memRead s w = .ok l) ∧ memRead s hiAt = .error f →
      resolve s .indirect w = .error f) ∧
    resolve s .indexedIndirect w = .ok (pointerWord s (lo + s.x)) ∧
    resolve s .indirectIndexed w = .ok (pointerWord s lo + s.y.setWidth 16) ∧
    ∀ m : Mode,
      (∀ f, resolve s m w = .error f →
        Faults (.ldaMode m w) s f ∧ Faults (.ldxMode m w) s f ∧ Faults (.ldyMode m w) s f ∧ Faults (.staMode m w) s f ∧
        Faults (.inxMode m w) s f ∧ Faults (.inyMode m w) s f ∧ Faults (.dexMode m w) s f ∧ Faults (.deyMode m w) s f ∧
        Faults (.txsMode m w) s f ∧ Faults (.jmpMode m w) s f ∧ Faults (.bneMode m w) s f ∧ Faults (.seiMode m w) s f) ∧
      (∀ ea, resolve s m w = .ok ea →
        ReadsInto (.ldaMode m w) s ea (fun v => { s with a := v, flags := zn v }) ∧
        ReadsInto (.ldxMode m w) s ea (fun v => { s with x := v, flags := zn v }) ∧
        ReadsInto (.ldyMode m w) s ea (fun v => { s with y := v, flags := zn v }) ∧
        StoresAt (.staMode m w) s ea ∧
        exec (.inxMode m w) s = .next { s with x := s.x + 1, flags := zn (s.x + 1) } ∧
        exec (.inyMode m w) s = .next { s with y := s.y + 1, flags := zn (s.y + 1) } ∧
        exec (.dexMode m w) s = .next { s with x := s.x - 1, flags := zn (s.x - 1) } ∧
        exec (.deyMode m w) s = .next { s with y := s.y - 1, flags := zn (s.y - 1) } ∧
        exec (.txsMode m w) s = .next { s with sp := s.x } ∧
        exec (.jmpMode m w) s = .next { s with pc := ea } ∧
        (s.flags.z = true → exec (.bneMode m w) s = .next s) ∧
        (s.flags.z = false → exec (.bneMode m w) s = .next { s with pc := ea }) ∧
        exec (.seiMode m w) s = .next { s with flags := { s.flags with i := true } })

/-! ### Flags and frames -/

/-- `40_fetch_decode_dispatch.md` R137: every load, increment and decrement (`destination` lists them) leaves Z and N as the
value now in its register says, whichever instruction it is, and writes no other flag. -/
def Obligations.ZeroAndNegativeFollowTheRegister : Prop :=
  ∀ (s t : State) (i : Instr) (r : Reg), destination i = some r → exec i s = .next t →
    (t.flags.z = true ↔ (t.reg r).toNat = 0) ∧ (t.flags.n = true ↔ 128 ≤ (t.reg r).toNat) ∧
    t.flags = { s.flags with z := t.flags.z, n := t.flags.n }

/-- Frame of LDA, LDX, LDY, INX, INY, DEX and DEY in all their modes (`10_state.md` R21, R22, R26): the destination register
and the flags Z and N change, nothing else, and no byte of memory. -/
def Obligations.LoadAndCountFrame : Prop :=
  ∀ (s t : State) (i : Instr) (r : Reg), destination i = some r → exec i s = .next t →
    (∀ q, q ≠ r → t.reg q = s.reg q) ∧ t.sp = s.sp ∧ t.pc = s.pc ∧
    t.flags = { s.flags with z := t.flags.z, n := t.flags.n } ∧
    t.ram = s.ram ∧ t.ppu = s.ppu ∧ t.cart = s.cart ∧ t.params = s.params ∧ t.halted = s.halted ∧ SameMemory s t

/-- Frame of STA in every mode (`41_load_store.md` R153): no register and no flag changes; with `addr` the address its
meaning stores to, every address that is no image of it in work RAM reads as before; outside the PPU port the PPU is as it
was, and each port leaves alone every register and every memory cell that is not its own (`44_ppu_register_port.md` R181 to
R196). -/
def Obligations.StoreFrame : Prop :=
  ∀ (s t : State) (i : Instr) (ea : Except FaultValue Word), storeAddress s i = some ea → exec i s = .next t →
    ∃ addr, ea = .ok addr ∧
      t.a = s.a ∧ t.x = s.x ∧ t.y = s.y ∧ t.sp = s.sp ∧ t.pc = s.pc ∧ t.flags = s.flags ∧
      t.cart = s.cart ∧ t.params = s.params ∧ t.halted = s.halted ∧
      (∀ other : Word, ¬ (addr.toNat < 0x2000 ∧ other.toNat < 0x2000 ∧ ramIndex s other = ramIndex s addr) →
        memRead t other = memRead s other) ∧
      (¬ (0x2000 ≤ addr.toNat ∧ addr.toNat < 0x4000) → t.ppu = s.ppu) ∧
      (addr ≠ 0x2000 → t.ppu.ctrl = s.ppu.ctrl) ∧ (addr ≠ 0x2001 → t.ppu.mask = s.ppu.mask) ∧
      (addr ≠ 0x2003 → addr ≠ 0x2004 → t.ppu.oamaddr = s.ppu.oamaddr) ∧
      (addr ≠ 0x2006 → t.ppu.latch = s.ppu.latch) ∧
      (addr ≠ 0x2006 → addr ≠ 0x2007 → t.ppu.vaddr = s.ppu.vaddr) ∧
      (∀ k, addr ≠ 0x2004 ∨ k ≠ s.ppu.oamaddr.toNat → Cells.read t.ppu.oam k = Cells.read s.ppu.oam k) ∧
      (∀ k, addr ≠ 0x2007 ∨ k ≠ s.ppu.vaddr.toNat % 0x1000 → Cells.read t.ppu.vram k = Cells.read s.ppu.vram k) ∧
      (∀ k, addr ≠ 0x2007 ∨ k ≠ palIndex (s.ppu.vaddr.toNat % 32) → Cells.read t.ppu.pal k = Cells.read s.ppu.pal k) ∧
      t.ppu.dot = s.ppu.dot ∧ t.ppu.scanline = s.ppu.scanline ∧ t.ppu.tiles = s.ppu.tiles ∧ t.ppu.frame = s.ppu.frame

/-- Frame of TXS, JMP, BNE and SEI in every mode (`42_register_ops.md` R164, `43_control_and_flag.md` R170 to R172): TXS writes
SP only, JMP and BNE PC only, SEI the interrupt-disable flag only. -/
def Obligations.TransferAndControlFrame : Prop :=
  ∀ (s t : State) (i : Instr), destination i = none → storeAddress s i = none → exec i s = .next t →
    t.a = s.a ∧ t.x = s.x ∧ t.y = s.y ∧ (i.mnemonic ≠ .txs → t.sp = s.sp) ∧
    (i.mnemonic = .txs ∨ i.mnemonic = .sei → t.pc = s.pc) ∧
    (i.mnemonic ≠ .sei → t.flags = s.flags) ∧ t.flags = { s.flags with i := t.flags.i } ∧
    t.ram = s.ram ∧ t.ppu = s.ppu ∧ t.cart = s.cart ∧ t.params = s.params ∧ t.halted = s.halted ∧ SameMemory s t

/-! ### The PPU register port -/

/-- `44_ppu_register_port.md` R181, R184 and R185: a store to 0x2000, 0x2001 or 0x2003 stores the raw byte in its register and
does nothing else. -/
def Obligations.PlainPortsStoreTheByte : Prop :=
  ∀ s : State,
    exec (.staAbs 0x2000) s = .next { s with ppu := { s.ppu with ctrl := s.a } } ∧
    exec (.staAbs 0x2001) s = .next { s with ppu := { s.ppu with mask := s.a } } ∧
    exec (.staAbs 0x2003) s = .next { s with ppu := { s.ppu with oamaddr := s.a } }

/-- `44_ppu_register_port.md` R187: a store to the scroll port 0x2005 changes nothing. That it leaves the latch alone too is
the spec's own decision (D34; notes/assumptions/14.md). -/
def Obligations.ScrollPortChangesNothing : Prop :=
  ∀ s : State, exec (.staAbs 0x2005) s = .next s

/-- `44_ppu_register_port.md` R182 and R183: bit 2 of the control register selects the increment, bit 4 the background
pattern table, and no other bit does (R201). -/
def Obligations.ControlSelectsIncrementAndBase : Prop :=
  ∀ p : Ppu,
    p.increment = (if p.ctrl.toNat / 4 % 2 = 1 then 0x0020 else 0x0001) ∧
    p.bgBase = (if p.ctrl.toNat / 16 % 2 = 1 then 0x1000 else 0x0000)

/-- `44_ppu_register_port.md` R186: the byte goes to sprite RAM at the current address, which then moves on by 1 modulo 256;
no fault. -/
def Obligations.OamDataPortWritesAndIncrements : Prop :=
  ∀ s : State, ∃ next : Byte, next.toNat = (s.ppu.oamaddr.toNat + 1) % 256 ∧
    exec (.staAbs 0x2004) s = .next { s with ppu := { s.ppu with
      oam := Cells.write s.ppu.oam s.ppu.oamaddr.toNat s.a, oamaddr := next } }

/-- `44_ppu_register_port.md` R188, R189 and R190: the two writes of the address port. That the high write clears the low
byte, and the low write replaces it, is the spec's own decision (D11; notes/assumptions/14.md). -/
def Obligations.VramAddressPortLatches : Prop :=
  ∀ s : State,
    (s.ppu.latch = .awaitingHighByte → exec (.staAbs 0x2006) s = .next { s with ppu := { s.ppu with
      vaddr := BitVec.ofNat 16 (s.a.toNat * 256), latch := .awaitingLowByte } }) ∧
    (s.ppu.latch = .awaitingLowByte → exec (.staAbs 0x2006) s = .next { s with ppu := { s.ppu with
      vaddr := BitVec.ofNat 16 (s.ppu.vaddr.toNat / 256 * 256 + s.a.toNat), latch := .awaitingHighByte } })

/-- `44_ppu_register_port.md` R188, the source's test S6: from the waiting state, two writes of the bytes `hi`, `lo` give the
address `hi:lo`, whatever it was before, and a third write begins a new pair. -/
def Obligations.TwoAddressWritesFormTheAddress : Prop :=
  ∀ (s : State) (hi lo third : Byte), s.ppu.latch = .awaitingHighByte →
    ∃ t u v, exec (.staAbs 0x2006) { s with a := hi } = .next t ∧ exec (.staAbs 0x2006) { t with a := lo } = .next u ∧
      u.ppu.vaddr.toNat = hi.toNat * 256 + lo.toNat ∧ u.ppu.latch = .awaitingHighByte ∧
      exec (.staAbs 0x2006) { u with a := third } = .next v ∧
      v.ppu.vaddr.toNat = third.toNat * 256 ∧ v.ppu.latch = .awaitingLowByte

/-- `44_ppu_register_port.md` R191 to R198: the data port, by the current VRAM address: pattern space, nametable space and its
image, the indices past video RAM, palette space with its mirror rule, and addresses with no classification. A write that
faults changes nothing; every other one moves the address on. The modulus of the increment and the two faults are the spec's
own decisions (D12, D13; notes/assumptions/14.md). -/
def Obligations.VramDataPortByAddress : Prop :=
  ∀ s : State,
    let a := s.ppu.vaddr.toNat
    let moved := s.ppu.vaddr + (if s.ppu.ctrl.toNat / 4 % 2 = 1 then 0x0020 else 0x0001)
    let vramAt := fun i => exec (.staAbs 0x2007) s = .next { s with ppu := { s.ppu with
      vram := Cells.write s.ppu.vram i s.a, vaddr := moved } }
    (a < 0x2000 → exec (.staAbs 0x2007) s = .next { s with ppu := { s.ppu with vaddr := moved } }) ∧
    (0x2000 ≤ a → a < 0x2800 → vramAt (a - 0x2000)) ∧
    (0x2800 ≤ a → a < 0x3000 → Faults (.staAbs 0x2007) s (.storageOutOfRange .vram (a - 0x2000))) ∧
    (0x3000 ≤ a → a < 0x3800 → vramAt (a - 0x3000)) ∧
    (0x3800 ≤ a → a < 0x3F00 → Faults (.staAbs 0x2007) s (.storageOutOfRange .vram (a - 0x3000))) ∧
    (0x3F00 ≤ a → a < 0x4000 → exec (.staAbs 0x2007) s = .next { s with ppu := { s.ppu with
      pal := Cells.write s.ppu.pal (if a % 4 = 0 then a % 16 else a % 32) s.a, vaddr := moved } }) ∧
    (0x4000 ≤ a → Faults (.staAbs 0x2007) s (.unmappedAddress .ppuVram s.ppu.vaddr .write))

/-- `44_ppu_register_port.md` R195 and R196, the source's test S7: a byte stored with the address at a palette image reads
back through `PalIndex` at that address and at its mirror 0x10 below. -/
def Obligations.PaletteMirrorReadsBack : Prop :=
  ∀ (s t : State), Memory.wf s.ppu.pal = true → 0x3F00 ≤ s.ppu.vaddr.toNat → s.ppu.vaddr.toNat < 0x4000 →
    exec (.staAbs 0x2007) s = .next t →
    Cells.read t.ppu.pal (palIndex (s.ppu.vaddr.toNat % 32)) = s.a ∧
    (s.ppu.vaddr.toNat % 32 = 0x10 → Cells.read t.ppu.pal (palIndex 0x00) = s.a) ∧
    (s.ppu.vaddr.toNat % 32 = 0x14 → Cells.read t.ppu.pal (palIndex 0x04) = s.a) ∧
    (s.ppu.vaddr.toNat % 32 = 0x18 → Cells.read t.ppu.pal (palIndex 0x08) = s.a) ∧
    (s.ppu.vaddr.toNat % 32 = 0x1C → Cells.read t.ppu.pal (palIndex 0x0C) = s.a) ∧
    (∀ i < 32, palIndex i ≠ palIndex (s.ppu.vaddr.toNat % 32) →
      Cells.read t.ppu.pal (palIndex i) = Cells.read s.ppu.pal (palIndex i))

/-- `44_ppu_register_port.md` R199: a store to 0x2002 or to 0x2008 to 0x3FFF faults and changes nothing. That it faults is the
spec's own decision (D10; notes/assumptions/14.md). -/
def Obligations.UnlistedPortsFault : Prop :=
  ∀ (s : State) (addr : Word), 0x2000 ≤ addr.toNat → addr.toNat < 0x4000 →
    (addr.toNat = 0x2002 ∨ 0x2008 ≤ addr.toNat) →
    Faults (.staAbs addr) s (.unmappedAddress .ppuPort addr .write)

/-! ### advance -/

/-- `45_ppu_render_pipeline.md` R211 and R212: below 341 dots the counter grows by the cycles forwarded, at scanline 0 the
tile sequence is emptied, and nothing else happens. -/
def Obligations.AdvanceBelowTheWrap : Prop :=
  ∀ (s : State) (n : Nat), s.ppu.dot + n < 341 →
    advance n s = .next { s with ppu := { s.ppu with
      dot := s.ppu.dot + n, tiles := if s.ppu.scanline = 0 then [] else s.ppu.tiles } }

/-- `45_ppu_render_pipeline.md` R213, R214, R215 and R217: at 341 dots and more, one wrap; the constant subtracted is 341 or
314, the open parameter `DOT_WRAP_SUB` (D14; notes/assumptions/7.md); at a scanline that is no band's and not the frame's last, the counters are all that changes. -/
def Obligations.AdvanceWrapsTheDotCounter : Prop :=
  ∀ (s : State) (n : Nat), 341 ≤ s.ppu.dot + n → s.ppu.scanline ≠ 261 →
    (240 < s.ppu.scanline + 1 ∨ (s.ppu.scanline + 1) % 8 ≠ 0) →
    (Config.dotWrapSub = 341 ∨ Config.dotWrapSub = 314) ∧
    advance n s = .next { s with ppu := { s.ppu with
      dot := s.ppu.dot + n - Config.dotWrapSub, scanline := s.ppu.scanline + 1,
      tiles := if s.ppu.scanline = 0 then [] else s.ppu.tiles } }

/-- `45_ppu_render_pipeline.md` R213 to R224 and R229: reaching scanline 8, 16, ..., 240 appends exactly the 32 tiles of one tile
row, in column order, each built from video RAM and character ROM as the rules say; where `NT_OFFSET` takes a tile's pattern
index or attribute byte past video RAM, the first such tile faults, and those before it stay appended. With an `NT_OFFSET` of at
most 0x400 none does. Which tile row a band is, and the block formula, are the spec's own decisions (D17, D18;
notes/assumptions/14.md); the constant subtracted from the dot counter is the open parameter `DOT_WRAP_SUB` (D14;
notes/assumptions/7.md). -/
def Obligations.BandAppendsTheTileRow : Prop :=
  ∀ (s : State) (n : Nat), 1 ≤ s.cart.chrBanks → 341 ≤ s.ppu.dot + n →
    s.ppu.scanline + 1 ≤ 240 → (s.ppu.scanline + 1) % 8 = 0 →
    ((∀ col < 32, s.TileInVram col s.bandRow) →
      ∃ ts : List Tile, ts.length = 32 ∧ TilesBuiltFrom s s.bandRow ts ∧
        advance n s = .next { s with ppu := { s.ppu with
          dot := s.ppu.dot + n - Config.dotWrapSub, scanline := s.ppu.scanline + 1, tiles := s.ppu.tiles ++ ts } }) ∧
    (∀ k < 32, (∀ col < k, s.TileInVram col s.bandRow) → ¬ s.TileInVram k s.bandRow →
      ∃ (ts : List Tile) (index : Nat), ts.length = k ∧ TilesBuiltFrom s s.bandRow ts ∧
        index = (if 0x0800 ≤ s.patternIndexAt k s.bandRow then s.patternIndexAt k s.bandRow
          else s.attributeByteAt k s.bandRow) ∧
        advance n s = .fault (.raised (.storageOutOfRange .vram index) { s with
          ppu := { s.ppu with
            dot := s.ppu.dot + n - Config.dotWrapSub, scanline := s.ppu.scanline + 1, tiles := s.ppu.tiles ++ ts }
          halted := some (.storageOutOfRange .vram index) })) ∧
    (s.params.ntOffset ≤ 0x0400 → ∀ col < 32, s.TileInVram col s.bandRow)

/-- `45_ppu_render_pipeline.md` R213, R217, R225, R226 and R229: the frame wrap renders the sequence. A pixel shows the colour of
the last tile in the sequence that covers it, looked up through palette RAM as it is now; a pixel no tile covers keeps its value;
then the sequence is empty, the scanline counter 0, and the dot counter as after every wrap. It cannot fault where every rendered
palette byte is below 64; the first one, in the order of rendering, that is not has no entry in the colour table and faults,
with the pixels before it written and the sequence kept. Placement, the time palette RAM is read and that fault are the spec's
own decisions (D19, D20; notes/assumptions/14.md); the colours and the constant subtracted from the dot counter are the open
parameters `RGB_TABLE` and `DOT_WRAP_SUB` (D20, D14; notes/assumptions/7.md). -/
def Obligations.FrameWrapRendersTheSequence : Prop :=
  ∀ (s : State) (n : Nat), Cells.wf s.ppu.frame = true → s.ppu.scanline = 261 → 341 ≤ s.ppu.dot + n →
    (∀ t, advance n s = .next t →
      t.ppu.dot = s.ppu.dot + n - Config.dotWrapSub ∧ t.ppu.scanline = 0 ∧ t.ppu.tiles = [] ∧
      ∀ (x : Fin 256) (y : Fin 240),
        ((∀ tile ∈ s.ppu.tiles, ¬ tile.Covers x y) →
          Cells.read t.ppu.frame (y.val * 256 + x.val) = Cells.read s.ppu.frame (y.val * 256 + x.val)) ∧
        (∀ (before after : List Tile) (tile : Tile), s.ppu.tiles = before ++ tile :: after → tile.Covers x y →
          (∀ u ∈ after, ¬ u.Covers x y) →
          ∃ h : (paletteByte s.ppu tile ⟨y.val % 8, by omega⟩ ⟨x.val % 8, by omega⟩).toNat < 64,
            Cells.read t.ppu.frame (y.val * 256 + x.val) = Config.rgbTable ⟨_, h⟩)) ∧
    ((∀ tile ∈ s.ppu.tiles, ∀ y x, (paletteByte s.ppu tile y x).toNat < 64) → ∃ t, advance n s = .next t) ∧
    (∀ (before after : List Tile) (tile : Tile) (y x : Fin 8), s.ppu.tiles = before ++ tile :: after →
      (∀ u ∈ before, ∀ y' x', (paletteByte s.ppu u y' x').toNat < 64) →
      (∀ y' x', PixelBefore y' x' y x → (paletteByte s.ppu tile y' x').toNat < 64) →
      64 ≤ (paletteByte s.ppu tile y x).toNat →
      ∃ t, advance n s = .fault (.raised (.storageOutOfRange .rgbTable (paletteByte s.ppu tile y x).toNat) t) ∧
        t.ppu.dot = s.ppu.dot + n - Config.dotWrapSub ∧ t.ppu.scanline = 0 ∧ t.ppu.tiles = s.ppu.tiles ∧
        (∀ y' x', PixelBefore y' x' y x → ∃ h : (paletteByte s.ppu tile y' x').toNat < 64,
          Cells.read t.ppu.frame (frameIndex tile y' x') = Config.rgbTable ⟨_, h⟩) ∧
        (∀ (b1 b2 : List Tile) (u : Tile) (px : Fin 256) (py : Fin 240), before = b1 ++ u :: b2 → u.Covers px py →
          (∀ v ∈ b2 ++ [tile], ¬ v.Covers px py) →
          ∃ h : (paletteByte s.ppu u ⟨py.val % 8, by omega⟩ ⟨px.val % 8, by omega⟩).toNat < 64,
            Cells.read t.ppu.frame (py.val * 256 + px.val) = Config.rgbTable ⟨_, h⟩) ∧
        (∀ (px : Fin 256) (py : Fin 240), (∀ u ∈ before ++ [tile], ¬ u.Covers px py) →
          Cells.read t.ppu.frame (py.val * 256 + px.val) = Cells.read s.ppu.frame (py.val * 256 + px.val)))

/-- `45_ppu_render_pipeline.md` R229: with a character bank, an `NT_OFFSET` of at most 0x400 and palette cells 0 to 15 below 64,
`advance` cannot fault: it answers a next state. -/
def Obligations.AdvanceCannotFaultWhenRenderable : Prop :=
  ∀ (s : State) (n : Nat), s.Renderable → ∃ t, advance n s = .next t

/-- `45_ppu_render_pipeline.md` R213 to R216, R218, R220, R221, R223 and R229: without a character bank a dot wrap that reaches
scanline 8, 16, ..., 240 faults at the first tile of the band: at its first pattern byte, or, where `NT_OFFSET` takes the tile's
pattern index or attribute byte past video RAM, there; with no tile appended, the counters already moved, and nothing else changed
but the fault status. Which tile is the band's first, column 0 of row `bandRow`, is the spec's own decision (D17;
notes/assumptions/14.md); the constant subtracted from the dot counter is the open parameter `DOT_WRAP_SUB` (D14;
notes/assumptions/7.md). -/
def Obligations.BandWithoutCharacterRomFaults : Prop :=
  ∀ (s : State) (n : Nat), s.cart.chrBanks = 0 → 341 ≤ s.ppu.dot + n →
    s.ppu.scanline + 1 ≤ 240 → (s.ppu.scanline + 1) % 8 = 0 →
    ∃ f : FaultValue,
      f = (if 0x0800 ≤ s.patternIndexAt 0 s.bandRow then .storageOutOfRange .vram (s.patternIndexAt 0 s.bandRow)
        else if 0x0800 ≤ s.attributeByteAt 0 s.bandRow then .storageOutOfRange .vram (s.attributeByteAt 0 s.bandRow)
        else .storageOutOfRange .chr
          ((Cells.read s.ppu.vram (s.patternIndexAt 0 s.bandRow)).toNat * 16 + s.ppu.bgBase)) ∧
      advance n s = .fault (.raised f { s with
        ppu := { s.ppu with dot := s.ppu.dot + n - Config.dotWrapSub, scanline := s.ppu.scanline + 1 }
        halted := some f })

/-- `45_ppu_render_pipeline.md` R210, `10_state.md` R47: whether it answers a next state or faults, `advance` writes the PPU's
dot counter, scanline counter, tile sequence and frame, and nothing else but the fault status. -/
def Obligations.AdvanceTouchesThePipelineOnly : Prop :=
  ∀ (s t : State) (n : Nat),
    (advance n s = .next t → t = { s with ppu := { s.ppu with
      dot := t.ppu.dot, scanline := t.ppu.scanline, tiles := t.ppu.tiles, frame := t.ppu.frame } }) ∧
    (∀ f, advance n s = .fault (.raised f t) → t = { s with halted := some f, ppu := { s.ppu with
      dot := t.ppu.dot, scanline := t.ppu.scanline, tiles := t.ppu.tiles, frame := t.ppu.frame } })

/-- `45_ppu_render_pipeline.md` R210: `advance` "does not read `ppu.mask`, `ppu.oam`, `ppu.oamaddr`, `ppu.vaddr` or `ppu.latch`",
nor any CPU state, work RAM or program ROM: two states that differ only there are advanced alike. -/
def Obligations.AdvanceIgnoresWhatItDoesNotRead : Prop :=
  ∀ (s s' t : State) (n : Nat), SamePipelineInput s s' → advance n s = .next t →
    ∃ t', advance n s' = .next t' ∧ t'.ppu.dot = t.ppu.dot ∧ t'.ppu.scanline = t.ppu.scanline ∧
      t'.ppu.tiles = t.ppu.tiles ∧ t'.ppu.frame = t.ppu.frame

/-- `45_ppu_render_pipeline.md` R227: a step that does not wrap the frame, from scanline 261 to 0, leaves the frame buffer as it
was. -/
def Obligations.FrameChangesOnlyAtTheFrameWrap : Prop :=
  ∀ s t : State, step s = .next t → ¬ (s.ppu.scanline = 261 ∧ t.ppu.scanline = 0) → t.ppu.frame = s.ppu.frame

/-- `45_ppu_render_pipeline.md` R219 and R222: the block is one of four, and two tiles of one 2×2 square share it. The reading
of the formula that gives four blocks is the spec's own decision (D18; notes/assumptions/14.md). -/
def Obligations.BlockIdNamesOneOfFourBlocks : Prop :=
  ∀ (col col' : Fin 32) (row row' : Fin 30), blockId col row < 4 ∧
    (col.val / 2 = col'.val / 2 → row.val / 2 = row'.val / 2 → blockId col row = blockId col' row') ∧
    (blockId col row = 0 ↔ col.val % 4 < 2 ∧ row.val % 4 < 2) ∧
    (blockId col row = 1 ↔ 2 ≤ col.val % 4 ∧ row.val % 4 < 2) ∧
    (blockId col row = 2 ↔ col.val % 4 < 2 ∧ 2 ≤ row.val % 4) ∧
    (blockId col row = 3 ↔ 2 ≤ col.val % 4 ∧ 2 ≤ row.val % 4)
end

