-- ==== Sys2Proof/Laws/Cells.lean ====
section
/-! SUPPORT. The laws of cells: canonical form kept by a write, a read after a write, other cells left alone. -/

namespace Sys2Proof.Machine

variable {w : Nat}

@[simp] theorem Cells.read_nil (i : Nat) : Cells.read ([] : List (Nat × BitVec w)) i = 0 := rfl

@[simp] theorem Cells.wf_nil : Cells.wf ([] : List (Nat × BitVec w)) = true := rfl

@[simp] theorem Cells.below_nil (cap : Nat) : Cells.below cap ([] : List (Nat × BitVec w)) = true := rfl

theorem Cells.wf_cons {j : Nat} {u : BitVec w} {m : List (Nat × BitVec w)} :
    Cells.wf ((j, u) :: m) = true ↔ u ≠ 0 ∧ (∀ c ∈ m, j < c.1) ∧ Cells.wf m = true := by
  simp [Cells.wf, and_assoc]

/-- A cell below every listed one reads as 0. -/
theorem Cells.read_of_lt {m : List (Nat × BitVec w)} {i : Nat} (h : ∀ c ∈ m, i < c.1) : Cells.read m i = 0 := by
  induction m with
  | nil => rfl
  | cons c m ih =>
    obtain ⟨j, u⟩ := c
    have hj : i < j := h (j, u) (by simp)
    rw [Cells.read, if_neg (by omega)]
    exact ih fun c hc => h c (by simp [hc])

/-- The indices of a written list are the written index and indices listed before. -/
theorem Cells.mem_write {m : List (Nat × BitVec w)} {i : Nat} {v : BitVec w} {c : Nat × BitVec w}
    (h : c ∈ Cells.write m i v) : c = (i, v) ∨ c ∈ m := by
  induction m with
  | nil =>
    rw [Cells.write] at h
    split at h <;> simp_all
  | cons d m ih =>
    obtain ⟨j, u⟩ := d
    rw [Cells.write] at h
    split at h
    · split at h <;> simp_all
    · split at h
      · split at h
        · simp [h]
        · simp only [List.mem_cons] at h ⊢
          tauto
      · simp only [List.mem_cons] at h ⊢
        rcases h with h | h
        · exact .inr (.inl h)
        · rcases ih h with h | h
          · exact .inl h
          · exact .inr (.inr h)

/-- A write keeps the canonical form. -/
theorem Cells.wf_write {m : List (Nat × BitVec w)} {i : Nat} {v : BitVec w} (h : Cells.wf m = true) :
    Cells.wf (Cells.write m i v) = true := by
  induction m with
  | nil =>
    rw [Cells.write]
    split <;> simp_all [Cells.wf]
  | cons d m ih =>
    obtain ⟨j, u⟩ := d
    obtain ⟨hu, hlt, hm⟩ := Cells.wf_cons.mp h
    rw [Cells.write]
    split
    · rename_i hij
      split
      · exact h
      · rename_i hv
        refine Cells.wf_cons.mpr ⟨hv, ?_, h⟩
        intro c hc
        rcases List.mem_cons.mp hc with rfl | hc
        · exact hij
        · exact Nat.lt_trans hij (hlt c hc)
    · split
      · split
        · exact hm
        · rename_i hv
          subst_vars
          exact Cells.wf_cons.mpr ⟨hv, hlt, hm⟩
      · refine Cells.wf_cons.mpr ⟨hu, ?_, ih hm⟩
        intro c hc
        rcases Cells.mem_write hc with rfl | hc
        · show j < i
          omega
        · exact hlt c hc

/-- A write below the capacity keeps the list within the capacity. -/
theorem Cells.below_write {m : List (Nat × BitVec w)} {i cap : Nat} {v : BitVec w} (hi : i < cap)
    (h : Cells.below cap m = true) : Cells.below cap (Cells.write m i v) = true := by
  simp only [Cells.below, List.all_eq_true, decide_eq_true_eq] at h ⊢
  intro c hc
  rcases Cells.mem_write hc with rfl | hc
  · exact hi
  · exact h c hc

/-- A read after a write to the same cell gives the value written. -/
theorem Cells.read_write_same {m : List (Nat × BitVec w)} (i : Nat) (v : BitVec w) (h : Cells.wf m = true) :
    Cells.read (Cells.write m i v) i = v := by
  induction m with
  | nil =>
    rw [Cells.write]
    split <;> simp_all [Cells.read]
  | cons d m ih =>
    obtain ⟨j, u⟩ := d
    obtain ⟨hu, hlt, hm⟩ := Cells.wf_cons.mp h
    rw [Cells.write]
    split
    · rename_i hij
      split
      · rename_i hv
        rw [hv]
        refine Cells.read_of_lt ?_
        intro c hc
        rcases List.mem_cons.mp hc with rfl | hc
        · exact hij
        · exact Nat.lt_trans hij (hlt c hc)
      · simp [Cells.read]
    · split
      · rename_i hij
        split
        · rename_i hv
          rw [hv]
          exact Cells.read_of_lt fun c hc => hij ▸ hlt c hc
        · simp [Cells.read]
      · rename_i hne
        rw [Cells.read, if_neg hne]
        exact ih hm

/-- A write leaves every other cell alone. -/
theorem Cells.read_write_other {m : List (Nat × BitVec w)} {i k : Nat} (v : BitVec w) (hk : k ≠ i)
    : Cells.read (Cells.write m i v) k = Cells.read m k := by
  induction m with
  | nil =>
    rw [Cells.write]
    split <;> simp [Cells.read, hk]
  | cons d m ih =>
    obtain ⟨j, u⟩ := d
    rw [Cells.write]
    split
    · split
      · rfl
      · simp [Cells.read, hk]
    · split
      · rename_i hij
        subst hij
        split <;> simp [Cells.read, hk]
      · simp only [Cells.read, ih]

theorem Memory.wf_iff (m : Memory) : Memory.wf m = Cells.wf m := rfl

/-- Bytes placed in order make a canonical memory. -/
theorem Memory.wf_ofBytes (i : Nat) (bs : List Byte) : Memory.wf (Memory.ofBytes i bs) = true := by
  induction bs generalizing i with
  | nil => rfl
  | cons b bs ih => exact Cells.wf_write (ih (i + 1))

/-- Where the storage primitive reads, it reads the cell; it faults exactly at and above the capacity. -/
theorem storeRead_ok_iff {dev : Device} {cap : Nat} {m : Memory} {i : Nat} {v : Byte} :
    storeRead dev cap m i = .ok v ↔ i < cap ∧ v = Cells.read m i := by
  unfold storeRead
  split <;> simp_all [eq_comm]

theorem storeWrite_ok_iff {dev : Device} {cap : Nat} {m t : Memory} {i : Nat} {v : Byte} :
    storeWrite dev cap m i v = .ok t ↔ i < cap ∧ t = Cells.write m i v := by
  unfold storeWrite
  split <;> simp_all [eq_comm]

end Sys2Proof.Machine
end

