-- ==== Sys2Proof/Laws/State.lean ====
section
/-! SUPPORT. One lemma per field per update of the state, so that no later proof unfolds a record update. -/

namespace Sys2Proof.Machine

section
variable (s : State) (v : Word)
@[simp] theorem State.setPc_a : (s.setPc v).a = s.a := rfl
@[simp] theorem State.setPc_x : (s.setPc v).x = s.x := rfl
@[simp] theorem State.setPc_y : (s.setPc v).y = s.y := rfl
@[simp] theorem State.setPc_sp : (s.setPc v).sp = s.sp := rfl
@[simp] theorem State.setPc_pc : (s.setPc v).pc = v := rfl
@[simp] theorem State.setPc_flags : (s.setPc v).flags = s.flags := rfl
@[simp] theorem State.setPc_ram : (s.setPc v).ram = s.ram := rfl
@[simp] theorem State.setPc_ppu : (s.setPc v).ppu = s.ppu := rfl
@[simp] theorem State.setPc_cart : (s.setPc v).cart = s.cart := rfl
@[simp] theorem State.setPc_params : (s.setPc v).params = s.params := rfl
@[simp] theorem State.setPc_halted : (s.setPc v).halted = s.halted := rfl
end

section
variable (s : State) (v : Byte)
@[simp] theorem State.setSp_a : (s.setSp v).a = s.a := rfl
@[simp] theorem State.setSp_x : (s.setSp v).x = s.x := rfl
@[simp] theorem State.setSp_y : (s.setSp v).y = s.y := rfl
@[simp] theorem State.setSp_sp : (s.setSp v).sp = v := rfl
@[simp] theorem State.setSp_pc : (s.setSp v).pc = s.pc := rfl
@[simp] theorem State.setSp_flags : (s.setSp v).flags = s.flags := rfl
@[simp] theorem State.setSp_ram : (s.setSp v).ram = s.ram := rfl
@[simp] theorem State.setSp_ppu : (s.setSp v).ppu = s.ppu := rfl
@[simp] theorem State.setSp_cart : (s.setSp v).cart = s.cart := rfl
@[simp] theorem State.setSp_params : (s.setSp v).params = s.params := rfl
@[simp] theorem State.setSp_halted : (s.setSp v).halted = s.halted := rfl
end

section
variable (s : State) (v : Flags)
@[simp] theorem State.setFlags_a : (s.setFlags v).a = s.a := rfl
@[simp] theorem State.setFlags_x : (s.setFlags v).x = s.x := rfl
@[simp] theorem State.setFlags_y : (s.setFlags v).y = s.y := rfl
@[simp] theorem State.setFlags_sp : (s.setFlags v).sp = s.sp := rfl
@[simp] theorem State.setFlags_pc : (s.setFlags v).pc = s.pc := rfl
@[simp] theorem State.setFlags_flags : (s.setFlags v).flags = v := rfl
@[simp] theorem State.setFlags_ram : (s.setFlags v).ram = s.ram := rfl
@[simp] theorem State.setFlags_ppu : (s.setFlags v).ppu = s.ppu := rfl
@[simp] theorem State.setFlags_cart : (s.setFlags v).cart = s.cart := rfl
@[simp] theorem State.setFlags_params : (s.setFlags v).params = s.params := rfl
@[simp] theorem State.setFlags_halted : (s.setFlags v).halted = s.halted := rfl
end

section
variable (s : State) (v : Memory)
@[simp] theorem State.setRam_a : (s.setRam v).a = s.a := rfl
@[simp] theorem State.setRam_x : (s.setRam v).x = s.x := rfl
@[simp] theorem State.setRam_y : (s.setRam v).y = s.y := rfl
@[simp] theorem State.setRam_sp : (s.setRam v).sp = s.sp := rfl
@[simp] theorem State.setRam_pc : (s.setRam v).pc = s.pc := rfl
@[simp] theorem State.setRam_flags : (s.setRam v).flags = s.flags := rfl
@[simp] theorem State.setRam_ram : (s.setRam v).ram = v := rfl
@[simp] theorem State.setRam_ppu : (s.setRam v).ppu = s.ppu := rfl
@[simp] theorem State.setRam_cart : (s.setRam v).cart = s.cart := rfl
@[simp] theorem State.setRam_params : (s.setRam v).params = s.params := rfl
@[simp] theorem State.setRam_halted : (s.setRam v).halted = s.halted := rfl
end

section
variable (s : State) (v : Ppu)
@[simp] theorem State.setPpu_a : (s.setPpu v).a = s.a := rfl
@[simp] theorem State.setPpu_x : (s.setPpu v).x = s.x := rfl
@[simp] theorem State.setPpu_y : (s.setPpu v).y = s.y := rfl
@[simp] theorem State.setPpu_sp : (s.setPpu v).sp = s.sp := rfl
@[simp] theorem State.setPpu_pc : (s.setPpu v).pc = s.pc := rfl
@[simp] theorem State.setPpu_flags : (s.setPpu v).flags = s.flags := rfl
@[simp] theorem State.setPpu_ram : (s.setPpu v).ram = s.ram := rfl
@[simp] theorem State.setPpu_ppu : (s.setPpu v).ppu = v := rfl
@[simp] theorem State.setPpu_cart : (s.setPpu v).cart = s.cart := rfl
@[simp] theorem State.setPpu_params : (s.setPpu v).params = s.params := rfl
@[simp] theorem State.setPpu_halted : (s.setPpu v).halted = s.halted := rfl
end

section
variable (s : State) (v : Cartridge)
@[simp] theorem State.setCart_a : (s.setCart v).a = s.a := rfl
@[simp] theorem State.setCart_x : (s.setCart v).x = s.x := rfl
@[simp] theorem State.setCart_y : (s.setCart v).y = s.y := rfl
@[simp] theorem State.setCart_sp : (s.setCart v).sp = s.sp := rfl
@[simp] theorem State.setCart_pc : (s.setCart v).pc = s.pc := rfl
@[simp] theorem State.setCart_flags : (s.setCart v).flags = s.flags := rfl
@[simp] theorem State.setCart_ram : (s.setCart v).ram = s.ram := rfl
@[simp] theorem State.setCart_ppu : (s.setCart v).ppu = s.ppu := rfl
@[simp] theorem State.setCart_cart : (s.setCart v).cart = v := rfl
@[simp] theorem State.setCart_params : (s.setCart v).params = s.params := rfl
@[simp] theorem State.setCart_halted : (s.setCart v).halted = s.halted := rfl
end

section
variable (s : State) (v : Option FaultValue)
@[simp] theorem State.setHalted_a : (s.setHalted v).a = s.a := rfl
@[simp] theorem State.setHalted_x : (s.setHalted v).x = s.x := rfl
@[simp] theorem State.setHalted_y : (s.setHalted v).y = s.y := rfl
@[simp] theorem State.setHalted_sp : (s.setHalted v).sp = s.sp := rfl
@[simp] theorem State.setHalted_pc : (s.setHalted v).pc = s.pc := rfl
@[simp] theorem State.setHalted_flags : (s.setHalted v).flags = s.flags := rfl
@[simp] theorem State.setHalted_ram : (s.setHalted v).ram = s.ram := rfl
@[simp] theorem State.setHalted_ppu : (s.setHalted v).ppu = s.ppu := rfl
@[simp] theorem State.setHalted_cart : (s.setHalted v).cart = s.cart := rfl
@[simp] theorem State.setHalted_params : (s.setHalted v).params = s.params := rfl
@[simp] theorem State.setHalted_halted : (s.setHalted v).halted = v := rfl
end

section
variable (s : State) (r : Reg) (v : Byte)
@[simp] theorem State.setReg_sp : (s.setReg r v).sp = s.sp := by cases r <;> rfl
@[simp] theorem State.setReg_pc : (s.setReg r v).pc = s.pc := by cases r <;> rfl
@[simp] theorem State.setReg_flags : (s.setReg r v).flags = s.flags := by cases r <;> rfl
@[simp] theorem State.setReg_ram : (s.setReg r v).ram = s.ram := by cases r <;> rfl
@[simp] theorem State.setReg_ppu : (s.setReg r v).ppu = s.ppu := by cases r <;> rfl
@[simp] theorem State.setReg_cart : (s.setReg r v).cart = s.cart := by cases r <;> rfl
@[simp] theorem State.setReg_params : (s.setReg r v).params = s.params := by cases r <;> rfl
@[simp] theorem State.setReg_halted : (s.setReg r v).halted = s.halted := by cases r <;> rfl
@[simp] theorem State.setReg_a_a : (s.setReg .a v).a = v := rfl
@[simp] theorem State.setReg_a_x : (s.setReg .a v).x = s.x := rfl
@[simp] theorem State.setReg_a_y : (s.setReg .a v).y = s.y := rfl
@[simp] theorem State.setReg_x_a : (s.setReg .x v).a = s.a := rfl
@[simp] theorem State.setReg_x_x : (s.setReg .x v).x = v := rfl
@[simp] theorem State.setReg_x_y : (s.setReg .x v).y = s.y := rfl
@[simp] theorem State.setReg_y_a : (s.setReg .y v).a = s.a := rfl
@[simp] theorem State.setReg_y_x : (s.setReg .y v).x = s.x := rfl
@[simp] theorem State.setReg_y_y : (s.setReg .y v).y = v := rfl
@[simp] theorem State.reg_a : s.reg .a = s.a := rfl
@[simp] theorem State.reg_x : s.reg .x = s.x := rfl
@[simp] theorem State.reg_y : s.reg .y = s.y := rfl
end

section
variable (s : State) (v : Byte)
@[simp] theorem State.setZN_a : (s.setZN v).a = s.a := rfl
@[simp] theorem State.setZN_x : (s.setZN v).x = s.x := rfl
@[simp] theorem State.setZN_y : (s.setZN v).y = s.y := rfl
@[simp] theorem State.setZN_sp : (s.setZN v).sp = s.sp := rfl
@[simp] theorem State.setZN_pc : (s.setZN v).pc = s.pc := rfl
@[simp] theorem State.setZN_flags : (s.setZN v).flags = s.flags.setZN v := rfl
@[simp] theorem State.setZN_ram : (s.setZN v).ram = s.ram := rfl
@[simp] theorem State.setZN_ppu : (s.setZN v).ppu = s.ppu := rfl
@[simp] theorem State.setZN_cart : (s.setZN v).cart = s.cart := rfl
@[simp] theorem State.setZN_params : (s.setZN v).params = s.params := rfl
@[simp] theorem State.setZN_halted : (s.setZN v).halted = s.halted := rfl
end

section
variable (s : State) (r : Reg) (v : Byte)
@[simp] theorem State.loaded_sp : (s.loaded r v).sp = s.sp := by cases r <;> rfl
@[simp] theorem State.loaded_pc : (s.loaded r v).pc = s.pc := by cases r <;> rfl
@[simp] theorem State.loaded_flags : (s.loaded r v).flags = s.flags.setZN v := by cases r <;> rfl
@[simp] theorem State.loaded_ram : (s.loaded r v).ram = s.ram := by cases r <;> rfl
@[simp] theorem State.loaded_ppu : (s.loaded r v).ppu = s.ppu := by cases r <;> rfl
@[simp] theorem State.loaded_cart : (s.loaded r v).cart = s.cart := by cases r <;> rfl
@[simp] theorem State.loaded_params : (s.loaded r v).params = s.params := by cases r <;> rfl
@[simp] theorem State.loaded_halted : (s.loaded r v).halted = s.halted := by cases r <;> rfl
@[simp] theorem State.loaded_a_a : (s.loaded .a v).a = v := rfl
@[simp] theorem State.loaded_a_x : (s.loaded .a v).x = s.x := rfl
@[simp] theorem State.loaded_a_y : (s.loaded .a v).y = s.y := rfl
@[simp] theorem State.loaded_x_a : (s.loaded .x v).a = s.a := rfl
@[simp] theorem State.loaded_x_x : (s.loaded .x v).x = v := rfl
@[simp] theorem State.loaded_x_y : (s.loaded .x v).y = s.y := rfl
@[simp] theorem State.loaded_y_a : (s.loaded .y v).a = s.a := rfl
@[simp] theorem State.loaded_y_x : (s.loaded .y v).x = s.x := rfl
@[simp] theorem State.loaded_y_y : (s.loaded .y v).y = v := rfl
@[simp] theorem State.bumped_sp : (s.bumped r v).sp = s.sp := by cases r <;> rfl
@[simp] theorem State.bumped_pc : (s.bumped r v).pc = s.pc := by cases r <;> rfl
@[simp] theorem State.bumped_flags : (s.bumped r v).flags = s.flags.setZN (s.reg r + v) := by cases r <;> rfl
@[simp] theorem State.bumped_ram : (s.bumped r v).ram = s.ram := by cases r <;> rfl
@[simp] theorem State.bumped_ppu : (s.bumped r v).ppu = s.ppu := by cases r <;> rfl
@[simp] theorem State.bumped_cart : (s.bumped r v).cart = s.cart := by cases r <;> rfl
@[simp] theorem State.bumped_params : (s.bumped r v).params = s.params := by cases r <;> rfl
@[simp] theorem State.bumped_halted : (s.bumped r v).halted = s.halted := by cases r <;> rfl
@[simp] theorem State.bumped_a_a : (s.bumped .a v).a = s.a + v := rfl
@[simp] theorem State.bumped_a_x : (s.bumped .a v).x = s.x := rfl
@[simp] theorem State.bumped_a_y : (s.bumped .a v).y = s.y := rfl
@[simp] theorem State.bumped_x_a : (s.bumped .x v).a = s.a := rfl
@[simp] theorem State.bumped_x_x : (s.bumped .x v).x = s.x + v := rfl
@[simp] theorem State.bumped_x_y : (s.bumped .x v).y = s.y := rfl
@[simp] theorem State.bumped_y_a : (s.bumped .y v).a = s.a := rfl
@[simp] theorem State.bumped_y_x : (s.bumped .y v).x = s.x := rfl
@[simp] theorem State.bumped_y_y : (s.bumped .y v).y = s.y + v := rfl
end

section
variable (p : Flags) (v : Byte)
@[simp] theorem Flags.setZN_c : (p.setZN v).c = p.c := rfl
@[simp] theorem Flags.setZN_z : (p.setZN v).z = (v == 0) := rfl
@[simp] theorem Flags.setZN_i : (p.setZN v).i = p.i := rfl
@[simp] theorem Flags.setZN_d : (p.setZN v).d = p.d := rfl
@[simp] theorem Flags.setZN_b : (p.setZN v).b = p.b := rfl
@[simp] theorem Flags.setZN_v : (p.setZN v).v = p.v := rfl
@[simp] theorem Flags.setZN_n : (p.setZN v).n = v.getLsbD 7 := rfl
@[simp] theorem Flags.setI_c : p.setI.c = p.c := rfl
@[simp] theorem Flags.setI_z : p.setI.z = p.z := rfl
@[simp] theorem Flags.setI_i : p.setI.i = true := rfl
@[simp] theorem Flags.setI_d : p.setI.d = p.d := rfl
@[simp] theorem Flags.setI_b : p.setI.b = p.b := rfl
@[simp] theorem Flags.setI_v : p.setI.v = p.v := rfl
@[simp] theorem Flags.setI_n : p.setI.n = p.n := rfl
end

section
variable (p : Ppu) (v : Byte)
@[simp] theorem Ppu.setCtrl_ctrl : (p.setCtrl v).ctrl = v := rfl
@[simp] theorem Ppu.setCtrl_mask : (p.setCtrl v).mask = p.mask := rfl
@[simp] theorem Ppu.setCtrl_latch : (p.setCtrl v).latch = p.latch := rfl
@[simp] theorem Ppu.setCtrl_vaddr : (p.setCtrl v).vaddr = p.vaddr := rfl
@[simp] theorem Ppu.setCtrl_oamaddr : (p.setCtrl v).oamaddr = p.oamaddr := rfl
@[simp] theorem Ppu.setCtrl_vram : (p.setCtrl v).vram = p.vram := rfl
@[simp] theorem Ppu.setCtrl_oam : (p.setCtrl v).oam = p.oam := rfl
@[simp] theorem Ppu.setCtrl_pal : (p.setCtrl v).pal = p.pal := rfl
@[simp] theorem Ppu.setCtrl_dot : (p.setCtrl v).dot = p.dot := rfl
@[simp] theorem Ppu.setCtrl_scanline : (p.setCtrl v).scanline = p.scanline := rfl
@[simp] theorem Ppu.setCtrl_tiles : (p.setCtrl v).tiles = p.tiles := rfl
@[simp] theorem Ppu.setCtrl_frame : (p.setCtrl v).frame = p.frame := rfl
end

section
variable (p : Ppu) (v : Byte)
@[simp] theorem Ppu.setMask_ctrl : (p.setMask v).ctrl = p.ctrl := rfl
@[simp] theorem Ppu.setMask_mask : (p.setMask v).mask = v := rfl
@[simp] theorem Ppu.setMask_latch : (p.setMask v).latch = p.latch := rfl
@[simp] theorem Ppu.setMask_vaddr : (p.setMask v).vaddr = p.vaddr := rfl
@[simp] theorem Ppu.setMask_oamaddr : (p.setMask v).oamaddr = p.oamaddr := rfl
@[simp] theorem Ppu.setMask_vram : (p.setMask v).vram = p.vram := rfl
@[simp] theorem Ppu.setMask_oam : (p.setMask v).oam = p.oam := rfl
@[simp] theorem Ppu.setMask_pal : (p.setMask v).pal = p.pal := rfl
@[simp] theorem Ppu.setMask_dot : (p.setMask v).dot = p.dot := rfl
@[simp] theorem Ppu.setMask_scanline : (p.setMask v).scanline = p.scanline := rfl
@[simp] theorem Ppu.setMask_tiles : (p.setMask v).tiles = p.tiles := rfl
@[simp] theorem Ppu.setMask_frame : (p.setMask v).frame = p.frame := rfl
end

section
variable (p : Ppu) (v : Latch)
@[simp] theorem Ppu.setLatch_ctrl : (p.setLatch v).ctrl = p.ctrl := rfl
@[simp] theorem Ppu.setLatch_mask : (p.setLatch v).mask = p.mask := rfl
@[simp] theorem Ppu.setLatch_latch : (p.setLatch v).latch = v := rfl
@[simp] theorem Ppu.setLatch_vaddr : (p.setLatch v).vaddr = p.vaddr := rfl
@[simp] theorem Ppu.setLatch_oamaddr : (p.setLatch v).oamaddr = p.oamaddr := rfl
@[simp] theorem Ppu.setLatch_vram : (p.setLatch v).vram = p.vram := rfl
@[simp] theorem Ppu.setLatch_oam : (p.setLatch v).oam = p.oam := rfl
@[simp] theorem Ppu.setLatch_pal : (p.setLatch v).pal = p.pal := rfl
@[simp] theorem Ppu.setLatch_dot : (p.setLatch v).dot = p.dot := rfl
@[simp] theorem Ppu.setLatch_scanline : (p.setLatch v).scanline = p.scanline := rfl
@[simp] theorem Ppu.setLatch_tiles : (p.setLatch v).tiles = p.tiles := rfl
@[simp] theorem Ppu.setLatch_frame : (p.setLatch v).frame = p.frame := rfl
end

section
variable (p : Ppu) (v : Word)
@[simp] theorem Ppu.setVaddr_ctrl : (p.setVaddr v).ctrl = p.ctrl := rfl
@[simp] theorem Ppu.setVaddr_mask : (p.setVaddr v).mask = p.mask := rfl
@[simp] theorem Ppu.setVaddr_latch : (p.setVaddr v).latch = p.latch := rfl
@[simp] theorem Ppu.setVaddr_vaddr : (p.setVaddr v).vaddr = v := rfl
@[simp] theorem Ppu.setVaddr_oamaddr : (p.setVaddr v).oamaddr = p.oamaddr := rfl
@[simp] theorem Ppu.setVaddr_vram : (p.setVaddr v).vram = p.vram := rfl
@[simp] theorem Ppu.setVaddr_oam : (p.setVaddr v).oam = p.oam := rfl
@[simp] theorem Ppu.setVaddr_pal : (p.setVaddr v).pal = p.pal := rfl
@[simp] theorem Ppu.setVaddr_dot : (p.setVaddr v).dot = p.dot := rfl
@[simp] theorem Ppu.setVaddr_scanline : (p.setVaddr v).scanline = p.scanline := rfl
@[simp] theorem Ppu.setVaddr_tiles : (p.setVaddr v).tiles = p.tiles := rfl
@[simp] theorem Ppu.setVaddr_frame : (p.setVaddr v).frame = p.frame := rfl
end

section
variable (p : Ppu) (v : Byte)
@[simp] theorem Ppu.setOamaddr_ctrl : (p.setOamaddr v).ctrl = p.ctrl := rfl
@[simp] theorem Ppu.setOamaddr_mask : (p.setOamaddr v).mask = p.mask := rfl
@[simp] theorem Ppu.setOamaddr_latch : (p.setOamaddr v).latch = p.latch := rfl
@[simp] theorem Ppu.setOamaddr_vaddr : (p.setOamaddr v).vaddr = p.vaddr := rfl
@[simp] theorem Ppu.setOamaddr_oamaddr : (p.setOamaddr v).oamaddr = v := rfl
@[simp] theorem Ppu.setOamaddr_vram : (p.setOamaddr v).vram = p.vram := rfl
@[simp] theorem Ppu.setOamaddr_oam : (p.setOamaddr v).oam = p.oam := rfl
@[simp] theorem Ppu.setOamaddr_pal : (p.setOamaddr v).pal = p.pal := rfl
@[simp] theorem Ppu.setOamaddr_dot : (p.setOamaddr v).dot = p.dot := rfl
@[simp] theorem Ppu.setOamaddr_scanline : (p.setOamaddr v).scanline = p.scanline := rfl
@[simp] theorem Ppu.setOamaddr_tiles : (p.setOamaddr v).tiles = p.tiles := rfl
@[simp] theorem Ppu.setOamaddr_frame : (p.setOamaddr v).frame = p.frame := rfl
end

section
variable (p : Ppu) (v : Memory)
@[simp] theorem Ppu.setVram_ctrl : (p.setVram v).ctrl = p.ctrl := rfl
@[simp] theorem Ppu.setVram_mask : (p.setVram v).mask = p.mask := rfl
@[simp] theorem Ppu.setVram_latch : (p.setVram v).latch = p.latch := rfl
@[simp] theorem Ppu.setVram_vaddr : (p.setVram v).vaddr = p.vaddr := rfl
@[simp] theorem Ppu.setVram_oamaddr : (p.setVram v).oamaddr = p.oamaddr := rfl
@[simp] theorem Ppu.setVram_vram : (p.setVram v).vram = v := rfl
@[simp] theorem Ppu.setVram_oam : (p.setVram v).oam = p.oam := rfl
@[simp] theorem Ppu.setVram_pal : (p.setVram v).pal = p.pal := rfl
@[simp] theorem Ppu.setVram_dot : (p.setVram v).dot = p.dot := rfl
@[simp] theorem Ppu.setVram_scanline : (p.setVram v).scanline = p.scanline := rfl
@[simp] theorem Ppu.setVram_tiles : (p.setVram v).tiles = p.tiles := rfl
@[simp] theorem Ppu.setVram_frame : (p.setVram v).frame = p.frame := rfl
end

section
variable (p : Ppu) (v : Memory)
@[simp] theorem Ppu.setOam_ctrl : (p.setOam v).ctrl = p.ctrl := rfl
@[simp] theorem Ppu.setOam_mask : (p.setOam v).mask = p.mask := rfl
@[simp] theorem Ppu.setOam_latch : (p.setOam v).latch = p.latch := rfl
@[simp] theorem Ppu.setOam_vaddr : (p.setOam v).vaddr = p.vaddr := rfl
@[simp] theorem Ppu.setOam_oamaddr : (p.setOam v).oamaddr = p.oamaddr := rfl
@[simp] theorem Ppu.setOam_vram : (p.setOam v).vram = p.vram := rfl
@[simp] theorem Ppu.setOam_oam : (p.setOam v).oam = v := rfl
@[simp] theorem Ppu.setOam_pal : (p.setOam v).pal = p.pal := rfl
@[simp] theorem Ppu.setOam_dot : (p.setOam v).dot = p.dot := rfl
@[simp] theorem Ppu.setOam_scanline : (p.setOam v).scanline = p.scanline := rfl
@[simp] theorem Ppu.setOam_tiles : (p.setOam v).tiles = p.tiles := rfl
@[simp] theorem Ppu.setOam_frame : (p.setOam v).frame = p.frame := rfl
end

section
variable (p : Ppu) (v : Memory)
@[simp] theorem Ppu.setPal_ctrl : (p.setPal v).ctrl = p.ctrl := rfl
@[simp] theorem Ppu.setPal_mask : (p.setPal v).mask = p.mask := rfl
@[simp] theorem Ppu.setPal_latch : (p.setPal v).latch = p.latch := rfl
@[simp] theorem Ppu.setPal_vaddr : (p.setPal v).vaddr = p.vaddr := rfl
@[simp] theorem Ppu.setPal_oamaddr : (p.setPal v).oamaddr = p.oamaddr := rfl
@[simp] theorem Ppu.setPal_vram : (p.setPal v).vram = p.vram := rfl
@[simp] theorem Ppu.setPal_oam : (p.setPal v).oam = p.oam := rfl
@[simp] theorem Ppu.setPal_pal : (p.setPal v).pal = v := rfl
@[simp] theorem Ppu.setPal_dot : (p.setPal v).dot = p.dot := rfl
@[simp] theorem Ppu.setPal_scanline : (p.setPal v).scanline = p.scanline := rfl
@[simp] theorem Ppu.setPal_tiles : (p.setPal v).tiles = p.tiles := rfl
@[simp] theorem Ppu.setPal_frame : (p.setPal v).frame = p.frame := rfl
end

section
variable (p : Ppu) (v : Nat)
@[simp] theorem Ppu.setDot_ctrl : (p.setDot v).ctrl = p.ctrl := rfl
@[simp] theorem Ppu.setDot_mask : (p.setDot v).mask = p.mask := rfl
@[simp] theorem Ppu.setDot_latch : (p.setDot v).latch = p.latch := rfl
@[simp] theorem Ppu.setDot_vaddr : (p.setDot v).vaddr = p.vaddr := rfl
@[simp] theorem Ppu.setDot_oamaddr : (p.setDot v).oamaddr = p.oamaddr := rfl
@[simp] theorem Ppu.setDot_vram : (p.setDot v).vram = p.vram := rfl
@[simp] theorem Ppu.setDot_oam : (p.setDot v).oam = p.oam := rfl
@[simp] theorem Ppu.setDot_pal : (p.setDot v).pal = p.pal := rfl
@[simp] theorem Ppu.setDot_dot : (p.setDot v).dot = v := rfl
@[simp] theorem Ppu.setDot_scanline : (p.setDot v).scanline = p.scanline := rfl
@[simp] theorem Ppu.setDot_tiles : (p.setDot v).tiles = p.tiles := rfl
@[simp] theorem Ppu.setDot_frame : (p.setDot v).frame = p.frame := rfl
end

section
variable (p : Ppu) (v : Nat)
@[simp] theorem Ppu.setScanline_ctrl : (p.setScanline v).ctrl = p.ctrl := rfl
@[simp] theorem Ppu.setScanline_mask : (p.setScanline v).mask = p.mask := rfl
@[simp] theorem Ppu.setScanline_latch : (p.setScanline v).latch = p.latch := rfl
@[simp] theorem Ppu.setScanline_vaddr : (p.setScanline v).vaddr = p.vaddr := rfl
@[simp] theorem Ppu.setScanline_oamaddr : (p.setScanline v).oamaddr = p.oamaddr := rfl
@[simp] theorem Ppu.setScanline_vram : (p.setScanline v).vram = p.vram := rfl
@[simp] theorem Ppu.setScanline_oam : (p.setScanline v).oam = p.oam := rfl
@[simp] theorem Ppu.setScanline_pal : (p.setScanline v).pal = p.pal := rfl
@[simp] theorem Ppu.setScanline_dot : (p.setScanline v).dot = p.dot := rfl
@[simp] theorem Ppu.setScanline_scanline : (p.setScanline v).scanline = v := rfl
@[simp] theorem Ppu.setScanline_tiles : (p.setScanline v).tiles = p.tiles := rfl
@[simp] theorem Ppu.setScanline_frame : (p.setScanline v).frame = p.frame := rfl
end

section
variable (p : Ppu) (v : List Tile)
@[simp] theorem Ppu.setTiles_ctrl : (p.setTiles v).ctrl = p.ctrl := rfl
@[simp] theorem Ppu.setTiles_mask : (p.setTiles v).mask = p.mask := rfl
@[simp] theorem Ppu.setTiles_latch : (p.setTiles v).latch = p.latch := rfl
@[simp] theorem Ppu.setTiles_vaddr : (p.setTiles v).vaddr = p.vaddr := rfl
@[simp] theorem Ppu.setTiles_oamaddr : (p.setTiles v).oamaddr = p.oamaddr := rfl
@[simp] theorem Ppu.setTiles_vram : (p.setTiles v).vram = p.vram := rfl
@[simp] theorem Ppu.setTiles_oam : (p.setTiles v).oam = p.oam := rfl
@[simp] theorem Ppu.setTiles_pal : (p.setTiles v).pal = p.pal := rfl
@[simp] theorem Ppu.setTiles_dot : (p.setTiles v).dot = p.dot := rfl
@[simp] theorem Ppu.setTiles_scanline : (p.setTiles v).scanline = p.scanline := rfl
@[simp] theorem Ppu.setTiles_tiles : (p.setTiles v).tiles = v := rfl
@[simp] theorem Ppu.setTiles_frame : (p.setTiles v).frame = p.frame := rfl
end

section
variable (p : Ppu) (v : FrameBuffer)
@[simp] theorem Ppu.setFrame_ctrl : (p.setFrame v).ctrl = p.ctrl := rfl
@[simp] theorem Ppu.setFrame_mask : (p.setFrame v).mask = p.mask := rfl
@[simp] theorem Ppu.setFrame_latch : (p.setFrame v).latch = p.latch := rfl
@[simp] theorem Ppu.setFrame_vaddr : (p.setFrame v).vaddr = p.vaddr := rfl
@[simp] theorem Ppu.setFrame_oamaddr : (p.setFrame v).oamaddr = p.oamaddr := rfl
@[simp] theorem Ppu.setFrame_vram : (p.setFrame v).vram = p.vram := rfl
@[simp] theorem Ppu.setFrame_oam : (p.setFrame v).oam = p.oam := rfl
@[simp] theorem Ppu.setFrame_pal : (p.setFrame v).pal = p.pal := rfl
@[simp] theorem Ppu.setFrame_dot : (p.setFrame v).dot = p.dot := rfl
@[simp] theorem Ppu.setFrame_scanline : (p.setFrame v).scanline = p.scanline := rfl
@[simp] theorem Ppu.setFrame_tiles : (p.setFrame v).tiles = p.tiles := rfl
@[simp] theorem Ppu.setFrame_frame : (p.setFrame v).frame = v := rfl
end

end Sys2Proof.Machine
end

