-- ==== Sys2Proof/Laws/Bus.lean ====
section
/-! SUPPORT. The masks of the bus as arithmetic, and everything `MemRead`, `MemWrite` and the PPU port can do. -/

namespace Sys2Proof.Machine

/-! ### Masks -/

theorem and_regionMask (a : Word) : a &&& (0xE000 : Word) = (a >>> 13) <<< 13 := by
  apply BitVec.eq_of_getLsbD_eq
  intro i hi
  interval_cases i <;> simp

theorem and_regionMask_toNat (a : Word) : (a &&& 0xE000).toNat = a.toNat / 8192 * 8192 := by
  have h := a.isLt
  rw [and_regionMask]
  simp only [BitVec.toNat_shiftLeft, BitVec.toNat_ushiftRight, Nat.shiftRight_eq_div_pow, Nat.shiftLeft_eq]
  omega

theorem and_lowMask_toNat (a : Word) (k : Nat) (hk : k ≤ 16) :
    (a &&& BitVec.ofNat 16 (2 ^ k - 1)).toNat = a.toNat % 2 ^ k := by
  have h : 2 ^ k ≤ 65536 := by
    have := Nat.pow_le_pow_right (n := 2) (by omega) hk
    simpa using this
  have h0 : 0 < 2 ^ k := by positivity
  rw [BitVec.toNat_and, BitVec.toNat_ofNat, Nat.mod_eq_of_lt (by omega), Nat.and_two_pow_sub_one_eq_mod]

theorem and_07FF_toNat (a : Word) : (a &&& 0x07FF).toNat = a.toNat % 0x0800 := and_lowMask_toNat a 11 (by omega)

theorem and_3FFF_toNat (a : Word) : (a &&& 0x3FFF).toNat = a.toNat % 0x4000 := and_lowMask_toNat a 14 (by omega)

theorem and_7FFF_toNat (a : Word) : (a &&& 0x7FFF).toNat = a.toNat % 0x8000 := and_lowMask_toNat a 15 (by omega)

theorem and_001F_toNat (a : Word) : (a &&& 0x001F).toNat = a.toNat % 0x20 := and_lowMask_toNat a 5 (by omega)

/-- The region of an address as ranges (`20_memory.md` R63). -/
theorem region_eq (a : Word) : region a =
    if a.toNat < 0x2000 then .workRam else if a.toNat < 0x4000 then .ppuPort
    else if a.toNat < 0x6000 then .audioIo else if a.toNat < 0x8000 then .batteryRam else .programRom := by
  have h := a.isLt
  have hm := and_regionMask_toNat a
  have key : ∀ k : Word, (a &&& 0xE000 = k) ↔ a.toNat / 8192 * 8192 = k.toNat := fun k => by
    rw [← hm, BitVec.toNat_inj]
  unfold region
  simp only [key]
  have e0 : (0x0000 : Word).toNat = 0 := rfl
  have e2 : (0x2000 : Word).toNat = 8192 := rfl
  have e4 : (0x4000 : Word).toNat = 16384 := rfl
  have e6 : (0x6000 : Word).toNat = 24576 := rfl
  simp only [e0, e2, e4, e6]
  repeat' split
  all_goals first | rfl | omega

theorem ramIndex_eq (s : State) (a : Word) :
    ramIndex s a = if s.params.ramMirror then a.toNat % 0x0800 else a.toNat := by
  unfold ramIndex
  split
  · exact and_07FF_toNat a
  · rfl

theorem prgIndex_eq (s : State) (a : Word) :
    prgIndex s a = if s.cart.prgBanks = 1 then a.toNat % 0x4000 else a.toNat % 0x8000 := by
  unfold prgIndex
  split
  · exact and_3FFF_toNat a
  · exact and_7FFF_toNat a

/-! ### MemRead -/

/-- A read depends on work RAM and the launch data alone. -/
theorem memRead_congr {s t : State} (hr : t.ram = s.ram) (hc : t.cart = s.cart) (hp : t.params = s.params) (a : Word) :
    memRead t a = memRead s a := by
  unfold memRead ramIndex prgIndex
  rw [hr, hc, hp]

@[simp] theorem memRead_setPc (s : State) (v a : Word) : memRead (s.setPc v) a = memRead s a := rfl

/-- With a program bank, no read of program ROM faults (`20_memory.md` R70). -/
theorem prgIndex_lt {s : State} (h : 1 ≤ s.cart.prgBanks) (a : Word) : prgIndex s a < capacity s.cart .prg := by
  rw [prgIndex_eq]
  show _ < s.cart.prgBanks * 16384
  split <;> omega

/-- A read in region 0x0000 (`20_memory.md` R69). -/
theorem memRead_workRam {s : State} {a : Word} (h : a.toNat < 0x2000) :
    memRead s a = storeRead .ram 0x0800 s.ram (ramIndex s a) := by
  unfold memRead
  rw [region_eq, if_pos h]

/-- A read in regions 0x2000 to 0x6000 (`20_memory.md` R72). -/
theorem memRead_unmapped {s : State} {a : Word} (h : 0x2000 ≤ a.toNat) (h' : a.toNat < 0x8000) :
    memRead s a = .error (.unmappedAddress .cpuBus a .read) := by
  unfold memRead
  rw [region_eq, if_neg (by omega)]
  by_cases h1 : a.toNat < 0x4000
  · rw [if_pos h1]
  rw [if_neg h1]
  by_cases h2 : a.toNat < 0x6000
  · rw [if_pos h2]
  rw [if_neg h2, if_pos h']

/-- A read in regions 0x8000 to 0xE000 (`20_memory.md` R70). -/
theorem memRead_programRom {s : State} {a : Word} (h : 0x8000 ≤ a.toNat) :
    memRead s a = storeRead .prg (capacity s.cart .prg) s.cart.prg (prgIndex s a) := by
  unfold memRead
  rw [region_eq, if_neg (by omega), if_neg (by omega), if_neg (by omega), if_neg (by omega)]

/-- A read below 0x0800 reaches work RAM whatever `RAM_MIRROR` is, and cannot fault. -/
theorem memRead_low {s : State} {a : Word} (h : a.toNat < 0x0800) : memRead s a = .ok (Cells.read s.ram a.toNat) := by
  rw [memRead_workRam (by omega), ramIndex_eq, Nat.mod_eq_of_lt h, ite_self]
  exact if_pos h

/-! ### The PPU port -/

/-- The classification of a VRAM address as one chain of ranges (`44_ppu_register_port.md` R192 to R198). -/
theorem vramWrite_eq (p : Ppu) (a : Word) (v : Byte) :
    vramWrite p a v =
      if a.toNat < 0x2000 then .ok p
      else if a.toNat < 0x2800 then .ok (p.setVram (Cells.write p.vram (a.toNat - 0x2000) v))
      else if a.toNat < 0x3000 then .error (.storageOutOfRange .vram (a.toNat - 0x2000))
      else if a.toNat < 0x3800 then .ok (p.setVram (Cells.write p.vram (a.toNat - 0x3000) v))
      else if a.toNat < 0x3F00 then .error (.storageOutOfRange .vram (a.toNat - 0x3000))
      else if a.toNat < 0x4000 then .ok (p.setPal (Cells.write p.pal (palIndex (a.toNat % 0x20)) v))
      else .error (.unmappedAddress .ppuVram a .write) := by
  unfold vramWrite storeWrite
  rw [and_001F_toNat]
  repeat' split
  all_goals first | omega | rfl

/-- Where a PPU port write goes through, all it can have done: it touched the registers, video RAM, sprite RAM and
palette RAM only, kept every memory canonical and within its capacity, and moved the latch at port 0x2006 only. -/
theorem vramWrite_ok {p q : Ppu} {a : Word} {v : Byte} (h : vramWrite p a v = .ok q) :
    q = p ∨ (q = p.setPal (Cells.write p.pal (palIndex (a.toNat % 0x20)) v) ∧ 0x3F00 ≤ a.toNat ∧ a.toNat ≤ 0x3FFF) ∨
    ∃ i, i < 0x0800 ∧ q = p.setVram (Cells.write p.vram i v) := by
  have key : ∀ i, (storeWrite .vram 0x0800 p.vram i v).map p.setVram = .ok q →
      ∃ i, i < 0x0800 ∧ q = p.setVram (Cells.write p.vram i v) := fun i hi => by
    unfold storeWrite at hi
    split at hi
    · exact ⟨i, ‹_›, (Except.ok.inj hi).symm⟩
    · exact nomatch hi
  unfold vramWrite at h
  rw [and_001F_toNat] at h
  split at h
  · exact .inl (Except.ok.inj h).symm
  · split at h
    · exact .inr (.inl ⟨(Except.ok.inj h).symm, by omega⟩)
    · split at h
      · exact .inr (.inr (key _ h))
      · split at h
        · exact .inr (.inr (key _ h))
        · exact nomatch h

theorem palIndex_lt {i : Nat} (h : i < 0x20) : palIndex i < 0x20 := by
  unfold palIndex
  split <;> omega

/-- What a PPU port write that goes through leaves alone and keeps (`44_ppu_register_port.md` R180). -/
structure PortFrame (p q : Ppu) : Prop where
  dot : q.dot = p.dot
  scanline : q.scanline = p.scanline
  tiles : q.tiles = p.tiles
  frame : q.frame = p.frame
  vramWf : Memory.wf p.vram = true → Memory.wf q.vram = true
  vramBelow : Cells.below 0x0800 p.vram = true → Cells.below 0x0800 q.vram = true
  oamWf : Memory.wf p.oam = true → Memory.wf q.oam = true
  oamBelow : Cells.below 256 p.oam = true → Cells.below 256 q.oam = true
  palWf : Memory.wf p.pal = true → Memory.wf q.pal = true
  palBelow : Cells.below 32 p.pal = true → Cells.below 32 q.pal = true

theorem vramWrite_frame {p q : Ppu} {a : Word} {v : Byte} (h : vramWrite p a v = .ok q) :
    PortFrame p q ∧ q.latch = p.latch := by
  rcases vramWrite_ok h with rfl | ⟨rfl, -⟩ | ⟨i, hi, rfl⟩
  · exact ⟨⟨rfl, rfl, rfl, rfl, id, id, id, id, id, id⟩, rfl⟩
  · exact ⟨⟨rfl, rfl, rfl, rfl, id, id, id, id, Cells.wf_write,
      Cells.below_write (palIndex_lt (Nat.mod_lt _ (by omega)))⟩, rfl⟩
  · exact ⟨⟨rfl, rfl, rfl, rfl, Cells.wf_write, Cells.below_write hi, id, id, id, id⟩, rfl⟩

theorem writeVdata_frame {p q : Ppu} {v : Byte} (h : writeVdata p v = .ok q) :
    PortFrame p q ∧ q.latch = p.latch := by
  unfold writeVdata at h
  cases hw : vramWrite p p.vaddr v with
  | error f => rw [hw] at h; exact nomatch h
  | ok r =>
    rw [hw] at h
    obtain rfl := (Except.ok.inj h).symm
    obtain ⟨⟨h1, h2, h3, h4, h5, h6, h7, h8, h9, h10⟩, hl⟩ := vramWrite_frame hw
    exact ⟨⟨h1, h2, h3, h4, h5, h6, h7, h8, h9, h10⟩, hl⟩

theorem writeOamData_eq (p : Ppu) (v : Byte) :
    writeOamData p v = .ok ((p.setOam (Cells.write p.oam p.oamaddr.toNat v)).setOamaddr (p.oamaddr + 1)) := by
  have h : p.oamaddr.toNat < 256 := p.oamaddr.isLt
  simp [writeOamData, storeWrite, h, Except.map]

theorem ppuWrite_frame {p q : Ppu} {addr : Word} {v : Byte} (h : ppuWrite p addr v = .ok q) :
    PortFrame p q ∧ (addr ≠ 0x2006 → q.latch = p.latch) := by
  have same : ∀ {r : Ppu}, r.vram = p.vram → r.oam = p.oam → r.pal = p.pal → r.dot = p.dot → r.scanline = p.scanline →
      r.tiles = p.tiles → r.frame = p.frame → PortFrame p r := fun h1 h2 h3 h4 h5 h6 h7 =>
    ⟨h4, h5, h6, h7, by rw [h1]; exact id, by rw [h1]; exact id, by rw [h2]; exact id, by rw [h2]; exact id,
      by rw [h3]; exact id, by rw [h3]; exact id⟩
  unfold ppuWrite at h
  split at h
  · obtain rfl := Except.ok.inj h
    exact ⟨same rfl rfl rfl rfl rfl rfl rfl, fun _ => rfl⟩
  split at h
  · obtain rfl := Except.ok.inj h
    exact ⟨same rfl rfl rfl rfl rfl rfl rfl, fun _ => rfl⟩
  split at h
  · obtain rfl := Except.ok.inj h
    exact ⟨same rfl rfl rfl rfl rfl rfl rfl, fun _ => rfl⟩
  split at h
  · rw [writeOamData_eq] at h
    obtain rfl := Except.ok.inj h
    exact ⟨⟨rfl, rfl, rfl, rfl, id, id, Cells.wf_write, Cells.below_write p.oamaddr.isLt, id, id⟩, fun _ => rfl⟩
  split at h
  · obtain rfl := Except.ok.inj h
    exact ⟨same rfl rfl rfl rfl rfl rfl rfl, fun _ => rfl⟩
  split at h
  · obtain rfl := Except.ok.inj h
    refine ⟨?_, fun hne => absurd ‹addr = 0x2006› hne⟩
    unfold writeVaddr
    split <;> exact same rfl rfl rfl rfl rfl rfl rfl
  split at h
  · obtain ⟨hf, hl⟩ := writeVdata_frame h
    exact ⟨hf, fun _ => hl⟩
  · exact nomatch h

/-! ### MemWrite -/

/-- A write in region 0x0000 (`20_memory.md` R69). -/
theorem memWrite_workRam {s : State} {a : Word} {v : Byte} (h : a.toNat < 0x2000) :
    memWrite s a v = (storeWrite .ram 0x0800 s.ram (ramIndex s a) v).map s.setRam := by
  unfold memWrite
  rw [region_eq, if_pos h]

/-- A write in region 0x2000 (`20_memory.md` R66). -/
theorem memWrite_ppuPort {s : State} {a : Word} {v : Byte} (h : 0x2000 ≤ a.toNat) (h' : a.toNat < 0x4000) :
    memWrite s a v = (ppuWrite s.ppu a v).map s.setPpu := by
  unfold memWrite
  rw [region_eq, if_neg (by omega), if_pos h']

/-- A write from 0x4000 on is a sink (`20_memory.md` R67, R68, R71). -/
theorem memWrite_sink {s : State} {a : Word} {v : Byte} (h : 0x4000 ≤ a.toNat) : memWrite s a v = .ok s := by
  unfold memWrite
  rw [region_eq, if_neg (by omega), if_neg (by omega)]
  by_cases h1 : a.toNat < 0x6000
  · rw [if_pos h1]
  rw [if_neg h1]
  by_cases h2 : a.toNat < 0x8000
  · rw [if_pos h2]
  rw [if_neg h2]

/-- Everything a bus write that goes through can do: store one cell of work RAM, act on a PPU port, or nothing. -/
theorem memWrite_cases {s t : State} {a : Word} {v : Byte} (h : memWrite s a v = .ok t) :
    (region a = .workRam ∧ ramIndex s a < 0x0800 ∧ t = s.setRam (Cells.write s.ram (ramIndex s a) v)) ∨
    (region a = .ppuPort ∧ ∃ q, ppuWrite s.ppu a v = .ok q ∧ t = s.setPpu q) ∨
    (region a ≠ .workRam ∧ region a ≠ .ppuPort ∧ t = s) := by
  unfold memWrite at h
  split at h
  · unfold storeWrite at h
    split at h
    · exact .inl ⟨‹_›, ‹_›, (Except.ok.inj h).symm⟩
    · exact nomatch h
  · cases hq : ppuWrite s.ppu a v with
    | error f => rw [hq] at h; exact nomatch h
    | ok q => rw [hq] at h; exact .inr (.inl ⟨‹_›, q, rfl, (Except.ok.inj h).symm⟩)
  all_goals
    rename_i hr
    exact .inr (.inr ⟨by rw [hr]; decide, by rw [hr]; decide, (Except.ok.inj h).symm⟩)

end Sys2Proof.Machine
end

