-- ==== Sys2Proof/Laws/Exec.lean ====
section
/-! SUPPORT. What an instruction can do, said once: its next state is one of six effects, its faults leave the state it
began in, and it is never refused. -/

namespace Sys2Proof.Machine

variable {i : Instr} {s t : State}

@[simp] theorem orRaise_ok {α σ : Type} (v : α) (s : State) (k : α → Host.Outcome σ Fault Refusal) :
    orRaise (.ok v) s k = k v := rfl

@[simp] theorem orRaise_error {α σ : Type} (f : FaultValue) (s : State) (k : α → Host.Outcome σ Fault Refusal) :
    orRaise (.error f) s k = raise f s := rfl

/-- A sequence that ends in a next state had one after its first half. -/
theorem andThen_next {σ τ : Type} {r : Host.Outcome σ Fault Refusal} {k : σ → Host.Outcome τ Fault Refusal} {t : τ} :
    andThen r k = .next t ↔ ∃ u, r = .next u ∧ k u = .next t := by
  cases r <;> simp [andThen]

theorem andThen_fault {σ τ : Type} {r : Host.Outcome σ Fault Refusal} {k : σ → Host.Outcome τ Fault Refusal} {f : Fault} :
    andThen r k = .fault f ↔ r = .fault f ∨ ∃ u, r = .next u ∧ k u = .fault f := by
  cases r <;> simp [andThen]

theorem andThen_refused {σ τ : Type} {r : Host.Outcome σ Fault Refusal} {k : σ → Host.Outcome τ Fault Refusal}
    {q : Refusal} : andThen r k = .refused q ↔ r = .refused q ∨ ∃ u, r = .next u ∧ k u = .refused q := by
  cases r <;> simp [andThen]

theorem orRaise_next {α σ : Type} {r : Except FaultValue α} {s : State} {k : α → Host.Outcome σ Fault Refusal} {t : σ} :
    orRaise r s k = .next t ↔ ∃ v, r = .ok v ∧ k v = .next t := by
  cases r <;> simp [orRaise, raise]

theorem orRaise_fault {α σ : Type} {r : Except FaultValue α} {s : State} {k : α → Host.Outcome σ Fault Refusal}
    {f : Fault} : orRaise r s k = .fault f ↔ (∃ v, r = .error v ∧ f = raised v s) ∨ ∃ v, r = .ok v ∧ k v = .fault f := by
  cases r <;> simp [orRaise, raise, eq_comm]

theorem orRaise_refused {α σ : Type} {r : Except FaultValue α} {s : State} {k : α → Host.Outcome σ Fault Refusal}
    {q : Refusal} : orRaise r s k = .refused q ↔ ∃ v, r = .ok v ∧ k v = .refused q := by
  cases r <;> simp [orRaise, raise]

/-- A page-zero pointer is always readable (`40_fetch_decode_dispatch.md` R135, R136). -/
theorem zeroPagePointer_ok (s : State) (p : Byte) : zeroPagePointer s p = .ok (pointerWord s p) := by
  have key : ∀ b : Byte, (zext16 b).toNat = b.toNat := fun b => by
    have := b.isLt
    rw [zext16, BitVec.toNat_setWidth]
    omega
  have read : ∀ b : Byte, memRead s (zext16 b) = .ok (Cells.read s.ram b.toNat) := fun b => by
    have := b.isLt
    rw [memRead_low (by rw [key]; omega), key]
  unfold zeroPagePointer
  rw [read]
  dsimp only
  rw [read]
  rfl

/-- The effects an instruction can have. -/
inductive ExecEffect (i : Instr) (s : State) : State → Prop
  | loaded (r : Reg) (v : Byte) (h : destination i = some r) : ExecEffect i s (s.loaded r v)
  | bumped (r : Reg) (d : Byte) (h : destination i = some r) : ExecEffect i s (s.bumped r d)
  | stored (addr : Word) (h : storeAddress s i = some (.ok addr)) {t : State} (hw : memWrite s addr s.a = .ok t) :
      ExecEffect i s t
  | sp (h : i.mnemonic = .txs) (hd : destination i = none) (hs : storeAddress s i = none) : ExecEffect i s (s.setSp s.x)
  | pc (v : Word) (ht : i.mnemonic ≠ .txs) (hi : i.mnemonic ≠ .sei) (hd : destination i = none)
      (hs : storeAddress s i = none) : ExecEffect i s (s.setPc v)
  | sei (h : i.mnemonic = .sei) (hd : destination i = none) (hs : storeAddress s i = none) :
      ExecEffect i s (s.setFlags s.flags.setI)

theorem loadInto_next {r : Reg} {ea : Except FaultValue Word} (h : loadInto r ea s = .next t) :
    ∃ v, t = s.loaded r v := by
  obtain ⟨addr, -, h⟩ := orRaise_next.mp h
  obtain ⟨v, -, h⟩ := orRaise_next.mp h
  exact ⟨v, by simpa using h.symm⟩

theorem storeA_next {ea : Except FaultValue Word} (h : storeA ea s = .next t) :
    ∃ addr, ea = .ok addr ∧ memWrite s addr s.a = .ok t := by
  obtain ⟨addr, ha, h⟩ := orRaise_next.mp h
  obtain ⟨u, hu, h⟩ := orRaise_next.mp h
  exact ⟨addr, ha, by rw [hu]; simpa using h⟩

theorem jumpTo_next {ea : Except FaultValue Word} (h : jumpTo ea s = .next t) :
    ∃ addr, ea = .ok addr ∧ t = s.setPc addr := by
  obtain ⟨addr, ha, h⟩ := orRaise_next.mp h
  exact ⟨addr, ha, by simpa using h.symm⟩

theorem resolveThen_next {m : Mode} {w : Word} {k : State → Result} (h : resolveThen m w s k = .next t) : k s = .next t := by
  obtain ⟨_, -, h⟩ := orRaise_next.mp h
  exact h

/-- An instruction that answers a next state had one of the effects. -/
theorem exec_effect (h : exec i s = .next t) : ExecEffect i s t := by
  cases i
  case ldaImm v => cases h; exact .loaded .a v rfl
  case ldxImm v => cases h; exact .loaded .x v rfl
  case ldyImm v => cases h; exact .loaded .y v rfl
  case inx => cases h; exact .bumped .x 1 rfl
  case iny => cases h; exact .bumped .y 1 rfl
  case dex => cases h; exact .bumped .x (-1) rfl
  case dey => cases h; exact .bumped .y (-1) rfl
  case inxMode => cases resolveThen_next h; exact .bumped .x 1 rfl
  case inyMode => cases resolveThen_next h; exact .bumped .y 1 rfl
  case dexMode => cases resolveThen_next h; exact .bumped .x (-1) rfl
  case deyMode => cases resolveThen_next h; exact .bumped .y (-1) rfl
  case txs => cases h; exact .sp rfl rfl rfl
  case txsMode => cases resolveThen_next h; exact .sp rfl rfl rfl
  case sei => cases h; exact .sei rfl rfl rfl
  case seiMode => cases resolveThen_next h; exact .sei rfl rfl rfl
  case jmpAbs | jmpInd | jmpMode =>
    simp only [exec, execJmpAbs, execJmpInd, execJmpMode] at h
    obtain ⟨addr, -, rfl⟩ := jumpTo_next h
    exact .pc addr nofun nofun rfl rfl
  case bne o =>
    simp only [exec, execBne] at h
    split at h
    · cases h; exact .pc s.pc nofun nofun rfl rfl
    · cases h; exact .pc (eaRelative s o) nofun nofun rfl rfl
  case bneMode m w =>
    obtain ⟨ea, -, h⟩ := orRaise_next.mp h
    split at h
    · cases h; exact .pc s.pc nofun nofun rfl rfl
    · cases h; exact .pc ea nofun nofun rfl rfl
  case staZp | staZpX | staAbs | staAbsX | staAbsY | staIndX | staIndY | staMode =>
    simp only [exec, execStaZp, execStaZpX, execStaAbs, execStaAbsX, execStaAbsY, execStaIndX, execStaIndY,
      execStaMode] at h
    obtain ⟨addr, ha, hw⟩ := storeA_next h
    refine .stored addr ?_ hw
    simp [storeAddress, ha]
  case ldaZp | ldaZpX | ldaAbs | ldaAbsX | ldaAbsY | ldaIndX | ldaIndY | ldaMode =>
    simp only [exec, execLdaZp, execLdaZpX, execLdaAbs, execLdaAbsX, execLdaAbsY, execLdaIndX, execLdaIndY,
      execLdaMode] at h
    obtain ⟨v, rfl⟩ := loadInto_next h
    exact .loaded .a v rfl
  case ldxZp | ldxZpY | ldxAbs | ldxAbsY | ldxMode =>
    simp only [exec, execLdxZp, execLdxZpY, execLdxAbs, execLdxAbsY, execLdxMode] at h
    obtain ⟨v, rfl⟩ := loadInto_next h
    exact .loaded .x v rfl
  case ldyZp | ldyZpX | ldyAbs | ldyAbsX | ldyMode =>
    simp only [exec, execLdyZp, execLdyZpX, execLdyAbs, execLdyAbsX, execLdyMode] at h
    obtain ⟨v, rfl⟩ := loadInto_next h
    exact .loaded .y v rfl

/-- What runs after an access, whichever it is, ends in a next state. -/
theorem orRaise_total {α : Type} {r : Except FaultValue α} {k : α → Result} {o : Result}
    (h : orRaise r s k = o) (hk : ∀ v, (∃ t, k v = .next t) ∨ ∃ f, k v = raise f s) :
    (∃ t, o = .next t) ∨ ∃ f, o = raise f s := by
  subst h
  cases r with
  | ok v => exact hk v
  | error f => exact .inr ⟨f, rfl⟩

/-- An instruction answers a next state, or raises a fault in the state it began in (`60_exceptions.md` R249). -/
theorem exec_total (i : Instr) (s : State) : (∃ t, exec i s = .next t) ∨ ∃ f, exec i s = raise f s := by
  have hl : ∀ r ea, (∃ t, loadInto r ea s = .next t) ∨ ∃ f, loadInto r ea s = raise f s := fun r ea =>
    orRaise_total rfl fun _ => orRaise_total rfl fun _ => .inl ⟨_, rfl⟩
  have hs : ∀ ea, (∃ t, storeA ea s = .next t) ∨ ∃ f, storeA ea s = raise f s := fun ea =>
    orRaise_total rfl fun _ => orRaise_total rfl fun _ => .inl ⟨_, rfl⟩
  have hj : ∀ ea, (∃ t, jumpTo ea s = .next t) ∨ ∃ f, jumpTo ea s = raise f s := fun ea =>
    orRaise_total rfl fun _ => .inl ⟨_, rfl⟩
  have hr : ∀ m w k, (∃ t, k s = .next t) →
      (∃ t, resolveThen m w s k = .next t) ∨ ∃ f, resolveThen m w s k = raise f s := fun m w k hk =>
    orRaise_total rfl fun _ => .inl hk
  cases i
  case ldaImm | ldxImm | ldyImm | inx | iny | dex | dey | txs | sei | bne => exact .inl ⟨_, rfl⟩
  case inxMode | inyMode | dexMode | deyMode | txsMode | seiMode => exact hr _ _ _ ⟨_, rfl⟩
  case bneMode => exact orRaise_total rfl fun _ => .inl ⟨_, rfl⟩
  case jmpAbs | jmpInd | jmpMode =>
    simp only [exec, execJmpAbs, execJmpInd, execJmpMode]
    exact hj _
  case staZp | staZpX | staAbs | staAbsX | staAbsY | staIndX | staIndY | staMode =>
    simp only [exec, execStaZp, execStaZpX, execStaAbs, execStaAbsX, execStaAbsY, execStaIndX, execStaIndY, execStaMode]
    exact hs _
  all_goals
    simp only [exec, execLdaZp, execLdaZpX, execLdaAbs, execLdaAbsX, execLdaAbsY, execLdaIndX, execLdaIndY, execLdaMode,
      execLdxZp, execLdxZpY, execLdxAbs, execLdxAbsY, execLdxMode, execLdyZp, execLdyZpX, execLdyAbs, execLdyAbsX,
      execLdyMode]
    exact hl _ _

/-- A fault of an instruction leaves the state the instruction began in, halted (`60_exceptions.md` R249). -/
theorem exec_fault {f : Fault} (h : exec i s = .fault f) : ∃ v, f = raised v s := by
  rcases exec_total i s with ⟨t, e⟩ | ⟨v, e⟩ <;> rw [e] at h
  · exact nomatch h
  · exact ⟨v, (Host.Outcome.fault.inj h).symm⟩

/-- No instruction is refused. -/
theorem exec_not_refused {q : Refusal} : exec i s ≠ .refused q := by
  rcases exec_total i s with ⟨t, e⟩ | ⟨v, e⟩ <;> rw [e] <;> exact nofun

/-- What a bus write leaves alone: the CPU, the launch data, and the PPU's counters, tiles and frame. -/
theorem memWrite_leaves {addr : Word} {v : Byte} (h : memWrite s addr v = .ok t) :
    t.a = s.a ∧ t.x = s.x ∧ t.y = s.y ∧ t.sp = s.sp ∧ t.pc = s.pc ∧ t.flags = s.flags ∧ t.cart = s.cart ∧
    t.params = s.params ∧ t.halted = s.halted ∧ PortFrame s.ppu t.ppu := by
  have refl : PortFrame s.ppu s.ppu := ⟨rfl, rfl, rfl, rfl, id, id, id, id, id, id⟩
  rcases memWrite_cases h with ⟨-, -, rfl⟩ | ⟨-, q, hq, rfl⟩ | ⟨-, -, rfl⟩
  · exact ⟨rfl, rfl, rfl, rfl, rfl, rfl, rfl, rfl, rfl, refl⟩
  · exact ⟨rfl, rfl, rfl, rfl, rfl, rfl, rfl, rfl, rfl, (ppuWrite_frame hq).1⟩
  · exact ⟨rfl, rfl, rfl, rfl, rfl, rfl, rfl, rfl, rfl, refl⟩

end Sys2Proof.Machine
end

