-- ==== Sys2Proof/Laws/PerInstr.lean ====
section
/-! SUPPORT. Statements for every instruction, one lemma a constructor. `TableRow`: an entry with the instruction's mnemonic
and mode builds the instruction from its operand bytes, its format has as many operand bytes as the encoder writes, and the
default table has such an entry for the default pairs (`30_encoding.md` R101, R104). -/

namespace Sys2Proof

/-- `hi:lo` as a number (`00_scope.md` R9). -/
theorem wordOfBytes_toNat (lo hi : Byte) : (wordOfBytes lo hi).toNat = hi.toNat * 256 + lo.toNat := by
  have h := lo.isLt
  rw [wordOfBytes, BitVec.toNat_append, ← Nat.shiftLeft_add_eq_or_of_lt h, Nat.shiftLeft_eq]

theorem lowByte_toNat (w : Word) : (lowByte w).toNat = w.toNat % 256 := by
  rw [lowByte, BitVec.toNat_setWidth]

theorem highByte_toNat (w : Word) : (highByte w).toNat = w.toNat / 256 := by
  have h := w.isLt
  rw [highByte, BitVec.toNat_setWidth, BitVec.toNat_ushiftRight, Nat.shiftRight_eq_div_pow]
  omega

@[simp] theorem wordOfBytes_low_high (w : Word) : wordOfBytes (lowByte w) (highByte w) = w := by
  apply BitVec.eq_of_toNat_eq
  rw [wordOfBytes_toNat, lowByte_toNat, highByte_toNat]
  omega

@[simp] theorem lowByte_wordOfBytes (lo hi : Byte) : lowByte (wordOfBytes lo hi) = lo := by
  apply BitVec.eq_of_toNat_eq
  have h := lo.isLt
  rw [lowByte_toNat, wordOfBytes_toNat]
  omega

@[simp] theorem highByte_wordOfBytes (lo hi : Byte) : highByte (wordOfBytes lo hi) = hi := by
  apply BitVec.eq_of_toNat_eq
  have h := lo.isLt
  rw [highByte_toNat, wordOfBytes_toNat]
  omega

namespace Laws.TableRow

/-- The first operand byte of an instruction, and the second; 0 where it has none. -/
def firstOperand (i : Instr) : Byte := i.operandBytes.getD 0 0
def secondOperand (i : Instr) : Byte := i.operandBytes.getD 1 0

def Statement (i : Instr) : Prop :=
  i.wf = true → build i.mnemonic i.mode (firstOperand i) (secondOperand i) = i ∧
    i.operandBytes.length = i.mode.format.operandBytes ∧
    (defaultPair i.mnemonic i.mode = true → ∃ e ∈ instrTable, e.mnemonic = i.mnemonic ∧ e.mode = i.mode)

/-- A pair of the default table has an entry there. -/
theorem default_entry : ∀ (h : Mnemonic) (m : Mode), defaultPair h m = true →
    ∃ e ∈ instrTable, e.mnemonic = h ∧ e.mode = m := by
  intro h m
  cases h <;> cases m <;> decide

theorem setWidth_lowByte {w : Word} (h : w.toNat < 256) : ((lowByte w).setWidth 16 : Word) = w := by
  apply BitVec.eq_of_toNat_eq
  rw [BitVec.toNat_setWidth, lowByte_toNat]
  omega

/-- The operand of a handler outside the default pairs comes back from its bytes. -/
theorem operandOf_bytes {m : Mode} {w : Word} (h : m.operandFits w = true) :
    operandOf m ((m.operandBytes w).getD 0 0) ((m.operandBytes w).getD 1 0) = w ∧
      (m.operandBytes w).length = m.format.operandBytes := by
  have zero : (w == 0) = true → (0 : Word) = w := fun h => (eq_of_beq h).symm
  have byte : decide (w.toNat < 256) = true → ((lowByte w).setWidth 16 : Word) = w :=
    fun h => setWidth_lowByte (of_decide_eq_true h)
  cases m
  case implied | accumulator | immediate => exact ⟨zero h, rfl⟩
  case zeroPage | zeroPageX | zeroPageY | relative | indexedIndirect | indirectIndexed => exact ⟨byte h, rfl⟩
  all_goals exact ⟨wordOfBytes_low_high w, rfl⟩

theorem ldaImm (v : Byte) : Statement (.ldaImm v) := fun _ => ⟨rfl, rfl, default_entry _ _⟩
theorem ldaZp (b : Byte) : Statement (.ldaZp b) := fun _ => ⟨rfl, rfl, default_entry _ _⟩
theorem ldaZpX (b : Byte) : Statement (.ldaZpX b) := fun _ => ⟨rfl, rfl, default_entry _ _⟩
theorem ldaAbs (w : Word) : Statement (.ldaAbs w) := fun _ =>
  ⟨congrArg Instr.ldaAbs (wordOfBytes_low_high w), rfl, default_entry _ _⟩
theorem ldaAbsX (w : Word) : Statement (.ldaAbsX w) := fun _ =>
  ⟨congrArg Instr.ldaAbsX (wordOfBytes_low_high w), rfl, default_entry _ _⟩
theorem ldaAbsY (w : Word) : Statement (.ldaAbsY w) := fun _ =>
  ⟨congrArg Instr.ldaAbsY (wordOfBytes_low_high w), rfl, default_entry _ _⟩
theorem ldaIndX (b : Byte) : Statement (.ldaIndX b) := fun _ => ⟨rfl, rfl, default_entry _ _⟩
theorem ldaIndY (b : Byte) : Statement (.ldaIndY b) := fun _ => ⟨rfl, rfl, default_entry _ _⟩
theorem ldxImm (v : Byte) : Statement (.ldxImm v) := fun _ => ⟨rfl, rfl, default_entry _ _⟩
theorem ldxZp (b : Byte) : Statement (.ldxZp b) := fun _ => ⟨rfl, rfl, default_entry _ _⟩
theorem ldxZpY (b : Byte) : Statement (.ldxZpY b) := fun _ => ⟨rfl, rfl, default_entry _ _⟩
theorem ldxAbs (w : Word) : Statement (.ldxAbs w) := fun _ =>
  ⟨congrArg Instr.ldxAbs (wordOfBytes_low_high w), rfl, default_entry _ _⟩
theorem ldxAbsY (w : Word) : Statement (.ldxAbsY w) := fun _ =>
  ⟨congrArg Instr.ldxAbsY (wordOfBytes_low_high w), rfl, default_entry _ _⟩
theorem ldyImm (v : Byte) : Statement (.ldyImm v) := fun _ => ⟨rfl, rfl, default_entry _ _⟩
theorem ldyZp (b : Byte) : Statement (.ldyZp b) := fun _ => ⟨rfl, rfl, default_entry _ _⟩
theorem ldyZpX (b : Byte) : Statement (.ldyZpX b) := fun _ => ⟨rfl, rfl, default_entry _ _⟩
theorem ldyAbs (w : Word) : Statement (.ldyAbs w) := fun _ =>
  ⟨congrArg Instr.ldyAbs (wordOfBytes_low_high w), rfl, default_entry _ _⟩
theorem ldyAbsX (w : Word) : Statement (.ldyAbsX w) := fun _ =>
  ⟨congrArg Instr.ldyAbsX (wordOfBytes_low_high w), rfl, default_entry _ _⟩
theorem staZp (b : Byte) : Statement (.staZp b) := fun _ => ⟨rfl, rfl, default_entry _ _⟩
theorem staZpX (b : Byte) : Statement (.staZpX b) := fun _ => ⟨rfl, rfl, default_entry _ _⟩
theorem staAbs (w : Word) : Statement (.staAbs w) := fun _ =>
  ⟨congrArg Instr.staAbs (wordOfBytes_low_high w), rfl, default_entry _ _⟩
theorem staAbsX (w : Word) : Statement (.staAbsX w) := fun _ =>
  ⟨congrArg Instr.staAbsX (wordOfBytes_low_high w), rfl, default_entry _ _⟩
theorem staAbsY (w : Word) : Statement (.staAbsY w) := fun _ =>
  ⟨congrArg Instr.staAbsY (wordOfBytes_low_high w), rfl, default_entry _ _⟩
theorem staIndX (b : Byte) : Statement (.staIndX b) := fun _ => ⟨rfl, rfl, default_entry _ _⟩
theorem staIndY (b : Byte) : Statement (.staIndY b) := fun _ => ⟨rfl, rfl, default_entry _ _⟩
theorem inx : Statement .inx := fun _ => ⟨rfl, rfl, default_entry _ _⟩
theorem iny : Statement .iny := fun _ => ⟨rfl, rfl, default_entry _ _⟩
theorem dex : Statement .dex := fun _ => ⟨rfl, rfl, default_entry _ _⟩
theorem dey : Statement .dey := fun _ => ⟨rfl, rfl, default_entry _ _⟩
theorem txs : Statement .txs := fun _ => ⟨rfl, rfl, default_entry _ _⟩
theorem jmpAbs (w : Word) : Statement (.jmpAbs w) := fun _ =>
  ⟨congrArg Instr.jmpAbs (wordOfBytes_low_high w), rfl, default_entry _ _⟩
theorem jmpInd (w : Word) : Statement (.jmpInd w) := fun _ =>
  ⟨congrArg Instr.jmpInd (wordOfBytes_low_high w), rfl, default_entry _ _⟩
theorem bne (offset : Byte) : Statement (.bne offset) := fun _ => ⟨rfl, rfl, default_entry _ _⟩
theorem sei : Statement .sei := fun _ => ⟨rfl, rfl, default_entry _ _⟩

theorem ldaMode (m : Mode) (w : Word) : Statement (.ldaMode m w) := fun h => by
  obtain ⟨hp, hf⟩ := Bool.and_eq_true_iff.mp h
  obtain ⟨ho, hl⟩ := operandOf_bytes hf
  refine ⟨?_, hl, default_entry _ _⟩
  cases m <;> first | exact congrArg (Instr.ldaMode _) ho | exact absurd hp (by decide)
theorem ldxMode (m : Mode) (w : Word) : Statement (.ldxMode m w) := fun h => by
  obtain ⟨hp, hf⟩ := Bool.and_eq_true_iff.mp h
  obtain ⟨ho, hl⟩ := operandOf_bytes hf
  refine ⟨?_, hl, default_entry _ _⟩
  cases m <;> first | exact congrArg (Instr.ldxMode _) ho | exact absurd hp (by decide)
theorem ldyMode (m : Mode) (w : Word) : Statement (.ldyMode m w) := fun h => by
  obtain ⟨hp, hf⟩ := Bool.and_eq_true_iff.mp h
  obtain ⟨ho, hl⟩ := operandOf_bytes hf
  refine ⟨?_, hl, default_entry _ _⟩
  cases m <;> first | exact congrArg (Instr.ldyMode _) ho | exact absurd hp (by decide)
theorem staMode (m : Mode) (w : Word) : Statement (.staMode m w) := fun h => by
  obtain ⟨hp, hf⟩ := Bool.and_eq_true_iff.mp h
  obtain ⟨ho, hl⟩ := operandOf_bytes hf
  refine ⟨?_, hl, default_entry _ _⟩
  cases m <;> first | exact congrArg (Instr.staMode _) ho | exact absurd hp (by decide)
theorem inxMode (m : Mode) (w : Word) : Statement (.inxMode m w) := fun h => by
  obtain ⟨hp, hf⟩ := Bool.and_eq_true_iff.mp h
  obtain ⟨ho, hl⟩ := operandOf_bytes hf
  refine ⟨?_, hl, default_entry _ _⟩
  cases m <;> first | exact congrArg (Instr.inxMode _) ho | exact absurd hp (by decide)
theorem inyMode (m : Mode) (w : Word) : Statement (.inyMode m w) := fun h => by
  obtain ⟨hp, hf⟩ := Bool.and_eq_true_iff.mp h
  obtain ⟨ho, hl⟩ := operandOf_bytes hf
  refine ⟨?_, hl, default_entry _ _⟩
  cases m <;> first | exact congrArg (Instr.inyMode _) ho | exact absurd hp (by decide)
theorem dexMode (m : Mode) (w : Word) : Statement (.dexMode m w) := fun h => by
  obtain ⟨hp, hf⟩ := Bool.and_eq_true_iff.mp h
  obtain ⟨ho, hl⟩ := operandOf_bytes hf
  refine ⟨?_, hl, default_entry _ _⟩
  cases m <;> first | exact congrArg (Instr.dexMode _) ho | exact absurd hp (by decide)
theorem deyMode (m : Mode) (w : Word) : Statement (.deyMode m w) := fun h => by
  obtain ⟨hp, hf⟩ := Bool.and_eq_true_iff.mp h
  obtain ⟨ho, hl⟩ := operandOf_bytes hf
  refine ⟨?_, hl, default_entry _ _⟩
  cases m <;> first | exact congrArg (Instr.deyMode _) ho | exact absurd hp (by decide)
theorem txsMode (m : Mode) (w : Word) : Statement (.txsMode m w) := fun h => by
  obtain ⟨hp, hf⟩ := Bool.and_eq_true_iff.mp h
  obtain ⟨ho, hl⟩ := operandOf_bytes hf
  refine ⟨?_, hl, default_entry _ _⟩
  cases m <;> first | exact congrArg (Instr.txsMode _) ho | exact absurd hp (by decide)
theorem jmpMode (m : Mode) (w : Word) : Statement (.jmpMode m w) := fun h => by
  obtain ⟨hp, hf⟩ := Bool.and_eq_true_iff.mp h
  obtain ⟨ho, hl⟩ := operandOf_bytes hf
  refine ⟨?_, hl, default_entry _ _⟩
  cases m <;> first | exact congrArg (Instr.jmpMode _) ho | exact absurd hp (by decide)
theorem bneMode (m : Mode) (w : Word) : Statement (.bneMode m w) := fun h => by
  obtain ⟨hp, hf⟩ := Bool.and_eq_true_iff.mp h
  obtain ⟨ho, hl⟩ := operandOf_bytes hf
  refine ⟨?_, hl, default_entry _ _⟩
  cases m <;> first | exact congrArg (Instr.bneMode _) ho | exact absurd hp (by decide)
theorem seiMode (m : Mode) (w : Word) : Statement (.seiMode m w) := fun h => by
  obtain ⟨hp, hf⟩ := Bool.and_eq_true_iff.mp h
  obtain ⟨ho, hl⟩ := operandOf_bytes hf
  refine ⟨?_, hl, default_entry _ _⟩
  cases m <;> first | exact congrArg (Instr.seiMode _) ho | exact absurd hp (by decide)

end Laws.TableRow

end Sys2Proof
end

