-- ==== Sys2Proof/Laws/Render.lean ====
section
/-! SUPPORT. What the PPU's `advance` can do, said once: it moves the counters, the tile sequence and the frame and
nothing else, its faults leave a halted state, and it is never refused. -/

namespace Sys2Proof.Machine

variable {s t : State}

theorem dotWrapSub_cases : Config.dotWrapSub = 341 ∨ Config.dotWrapSub = 314 := by
  unfold Config.dotWrapSub
  split <;> simp

/-- `t` agrees with `s` but for the PPU's dot counter, scanline counter, tile sequence and frame buffer
(`45_ppu_render_pipeline.md` R210). -/
structure PipelineOnly (s t : State) : Prop where
  a : t.a = s.a
  x : t.x = s.x
  y : t.y = s.y
  sp : t.sp = s.sp
  pc : t.pc = s.pc
  flags : t.flags = s.flags
  ram : t.ram = s.ram
  cart : t.cart = s.cart
  params : t.params = s.params
  halted : t.halted = s.halted
  ctrl : t.ppu.ctrl = s.ppu.ctrl
  mask : t.ppu.mask = s.ppu.mask
  latch : t.ppu.latch = s.ppu.latch
  vaddr : t.ppu.vaddr = s.ppu.vaddr
  oamaddr : t.ppu.oamaddr = s.ppu.oamaddr
  vram : t.ppu.vram = s.ppu.vram
  oam : t.ppu.oam = s.ppu.oam
  pal : t.ppu.pal = s.ppu.pal

theorem PipelineOnly.refl (s : State) : PipelineOnly s s := by constructor <;> rfl

theorem PipelineOnly.trans {u : State} (h : PipelineOnly s t) (h' : PipelineOnly t u) : PipelineOnly s u where
  a := h'.a.trans h.a
  x := h'.x.trans h.x
  y := h'.y.trans h.y
  sp := h'.sp.trans h.sp
  pc := h'.pc.trans h.pc
  flags := h'.flags.trans h.flags
  ram := h'.ram.trans h.ram
  cart := h'.cart.trans h.cart
  params := h'.params.trans h.params
  halted := h'.halted.trans h.halted
  ctrl := h'.ctrl.trans h.ctrl
  mask := h'.mask.trans h.mask
  latch := h'.latch.trans h.latch
  vaddr := h'.vaddr.trans h.vaddr
  oamaddr := h'.oamaddr.trans h.oamaddr
  vram := h'.vram.trans h.vram
  oam := h'.oam.trans h.oam
  pal := h'.pal.trans h.pal

theorem pipelineOnly_setTiles (s : State) (ts : List Tile) : PipelineOnly s (s.setPpu (s.ppu.setTiles ts)) := by
  constructor <;> rfl

theorem pipelineOnly_setScanline (s : State) (n : Nat) : PipelineOnly s (s.setPpu (s.ppu.setScanline n)) := by
  constructor <;> rfl

theorem pipelineOnly_setFrame (s : State) (f : FrameBuffer) : PipelineOnly s (s.setPpu (s.ppu.setFrame f)) := by
  constructor <;> rfl

theorem pipelineOnly_setDot_setScanline (s : State) (d n : Nat) :
    PipelineOnly s (s.setPpu ((s.ppu.setDot d).setScanline n)) := by
  constructor <;> rfl

theorem accumulate_pipelineOnly (n : Nat) (s : State) : PipelineOnly s (accumulate n s) := by
  constructor <;> rfl

/-- What building a band can do: the tile sequence grows. -/
theorem appendTiles_next {row : Fin 30} {cols : List (Fin 32)} (h : appendTiles row cols s = .next t) :
    ∃ ts, t = s.setPpu (s.ppu.setTiles (s.ppu.tiles ++ ts)) ∧
      List.Forall₂ (fun col tile => buildTile s col row s.params.ntOffset = .ok tile) cols ts := by
  induction cols generalizing s with
  | nil =>
    cases h
    exact ⟨[], by rw [List.append_nil]; rfl, .nil⟩
  | cons col cols ih =>
    obtain ⟨tile, hb, h⟩ := orRaise_next.mp h
    obtain ⟨ts, ht, hts⟩ := ih h
    exact ⟨tile :: ts, by rw [ht]; simp [State.setPpu, Ppu.setTiles], .cons hb hts⟩

/-- What plotting can do: the frame buffer changes, and stays canonical and within its 61440 cells. -/
structure FrameOnly (s t : State) : Prop where
  pipeline : PipelineOnly s t
  dot : t.ppu.dot = s.ppu.dot
  scanline : t.ppu.scanline = s.ppu.scanline
  tiles : t.ppu.tiles = s.ppu.tiles
  wf : Cells.wf s.ppu.frame = true → Cells.wf t.ppu.frame = true
  below : Cells.below 61440 s.ppu.frame = true → Cells.below 61440 t.ppu.frame = true

theorem FrameOnly.refl (s : State) : FrameOnly s s := ⟨.refl s, rfl, rfl, rfl, id, id⟩

theorem FrameOnly.trans {u : State} (h : FrameOnly s t) (h' : FrameOnly t u) : FrameOnly s u :=
  ⟨h.pipeline.trans h'.pipeline, h'.dot.trans h.dot, h'.scanline.trans h.scanline, h'.tiles.trans h.tiles,
    h'.wf ∘ h.wf, h'.below ∘ h.below⟩

theorem frameIndex_lt (t : Tile) (y x : Fin 8) : frameIndex t y x < 61440 := by
  unfold frameIndex
  omega

theorem frameOnly_write (s : State) (tile : Tile) (y x : Fin 8) (c : BitVec 32) :
    FrameOnly s (s.setPpu (s.ppu.setFrame (Cells.write s.ppu.frame (frameIndex tile y x) c))) :=
  ⟨pipelineOnly_setFrame s _, rfl, rfl, rfl, Cells.wf_write, Cells.below_write (frameIndex_lt tile y x)⟩

theorem plotPixels_next {tile : Tile} {ps : List (Fin 8 × Fin 8)} (h : plotPixels tile ps s = .next t) :
    FrameOnly s t := by
  induction ps generalizing s with
  | nil => cases h; exact .refl _
  | cons p ps ih =>
    obtain ⟨c, -, h⟩ := orRaise_next.mp h
    exact (frameOnly_write _ tile p.1 p.2 c).trans (ih h)

theorem plotTiles_next {ts : List Tile} (h : plotTiles ts s = .next t) : FrameOnly s t := by
  induction ts generalizing s with
  | nil => cases h; exact .refl _
  | cons tile ts ih =>
    obtain ⟨u, hu, h⟩ := andThen_next.mp h
    exact (plotPixels_next hu).trans (ih h)

/-- What rendering can do: the frame is written and the sequence emptied. -/
theorem render_next (h : render s = .next t) :
    ∃ u, FrameOnly s u ∧ t = u.setPpu (u.ppu.setTiles []) := by
  obtain ⟨u, hu, h⟩ := andThen_next.mp h
  exact ⟨u, plotTiles_next hu, by simpa using h.symm⟩

/-! ### What a successful `advance` did -/

theorem bandStep_next (h : bandStep s = .next t) :
    ∃ ts, t = s.setPpu (s.ppu.setTiles (s.ppu.tiles ++ ts)) := by
  unfold bandStep at h
  split at h
  · obtain ⟨ts, ht, -⟩ := appendTiles_next h
    exact ⟨ts, ht⟩
  · cases h
    exact ⟨[], by rw [List.append_nil]; rfl⟩

/-- The frame step: nothing below scanline 262; at 262 the frame is rendered and the counter is 0. -/
theorem frameStep_next (h : frameStep s = .next t) :
    (s.ppu.scanline ≠ 262 ∧ t = s) ∨
    (s.ppu.scanline = 262 ∧ t.ppu.scanline = 0 ∧ t.ppu.dot = s.ppu.dot ∧ t.ppu.tiles = [] ∧ PipelineOnly s t ∧
      (Cells.wf s.ppu.frame = true → Cells.wf t.ppu.frame = true) ∧
      (Cells.below 61440 s.ppu.frame = true → Cells.below 61440 t.ppu.frame = true)) := by
  unfold frameStep at h
  split at h
  · obtain ⟨u, hu, rfl⟩ := render_next h
    exact .inr ⟨‹_›, hu.scanline, hu.dot, rfl,
      (pipelineOnly_setScanline s 0).trans (hu.pipeline.trans (pipelineOnly_setTiles u [])), hu.wf, hu.below⟩
  · cases h
    exact .inl ⟨‹_›, rfl⟩

/-- The state the band step of a wrap begins in, from the state `advance n` begins in. -/
theorem wrapped_pipelineOnly (n d k : Nat) (s : State) :
    PipelineOnly s ((accumulate n s).setPpu (((accumulate n s).ppu.setDot d).setScanline k)) :=
  (accumulate_pipelineOnly n s).trans (pipelineOnly_setDot_setScanline _ d k)

/-- `advance` touches the pipeline state only, and where it answers a next state the counters are as R211, R213, R214 and
R217 say: no wrap below 341 dots, else one; and the frame stays canonical. -/
theorem advance_next {n : Nat} (h : advance n s = .next t) :
    PipelineOnly s t ∧
    (Cells.wf s.ppu.frame = true → Cells.wf t.ppu.frame = true) ∧
    (Cells.below 61440 s.ppu.frame = true → Cells.below 61440 t.ppu.frame = true) ∧
    ((s.ppu.dot + n < 341 ∧ t.ppu.dot = s.ppu.dot + n ∧ t.ppu.scanline = s.ppu.scanline ∧ t.ppu.frame = s.ppu.frame ∧
        t.ppu.tiles = if s.ppu.scanline = 0 then [] else s.ppu.tiles) ∨
      (341 ≤ s.ppu.dot + n ∧ t.ppu.dot = s.ppu.dot + n - Config.dotWrapSub ∧
        ((s.ppu.scanline ≠ 261 ∧ t.ppu.scanline = s.ppu.scanline + 1 ∧ t.ppu.frame = s.ppu.frame) ∨
          (s.ppu.scanline = 261 ∧ t.ppu.scanline = 0 ∧ t.ppu.tiles = [])))) := by
  unfold advance at h
  split at h
  · rename_i hw
    obtain ⟨u, hb, hf⟩ := andThen_next.mp h
    obtain ⟨ts, rfl⟩ := bandStep_next hb
    have hp := (wrapped_pipelineOnly n ((accumulate n s).ppu.dot - Config.dotWrapSub)
      ((accumulate n s).ppu.scanline + 1) s).trans (pipelineOnly_setTiles _ ((accumulate n s).ppu.tiles ++ ts))
    rcases frameStep_next hf with ⟨hne, rfl⟩ | ⟨he, h0, hd, ht, hq, hwf, hbl⟩
    · simp only [accumulate, State.setPpu_ppu, Ppu.setTiles_scanline, Ppu.setScanline_scanline, Ppu.setDot_scanline] at hne
      refine ⟨hp, id, id, .inr ⟨hw, ?_, .inl ⟨by omega, ?_, ?_⟩⟩⟩ <;> simp [accumulate]
    · replace hq := hp.trans hq
      simp only [accumulate, State.setPpu_ppu, Ppu.setTiles_scanline, Ppu.setScanline_scanline, Ppu.setDot_scanline,
        Ppu.setTiles_dot, Ppu.setScanline_dot, Ppu.setDot_dot, Ppu.setTiles_frame, Ppu.setScanline_frame,
        Ppu.setDot_frame] at he hd hwf hbl
      exact ⟨hq, hwf, hbl, .inr ⟨hw, hd, .inr ⟨by omega, h0, ht⟩⟩⟩
  · cases h
    exact ⟨accumulate_pipelineOnly n s, id, id, .inl ⟨by omega, rfl, rfl, rfl, rfl⟩⟩

/-! ### `advance` as one operation at a band and at a frame wrap -/

theorem bandStep_none (h : ¬ (s.ppu.scanline ≤ 240 ∧ s.ppu.scanline % 8 = 0)) : bandStep s = .next s := dif_neg h

theorem frameStep_none (h : s.ppu.scanline ≠ 262) : frameStep s = .next s := if_neg h

theorem accumulate_of_ne (n : Nat) (h : s.ppu.scanline ≠ 0) : accumulate n s = s.setPpu (s.ppu.setDot (s.ppu.dot + n)) := by
  unfold accumulate
  rw [if_neg h]
  rfl

/-- At a band's scanline `advance` is the building of the band with the counters already moved
(`45_ppu_render_pipeline.md` R213 to R216). -/
theorem advance_band {n : Nat} (hw : 341 ≤ s.ppu.dot + n) (hl : s.ppu.scanline + 1 ≤ 240)
    (h8 : (s.ppu.scanline + 1) % 8 = 0) :
    advance n s = andThen (buildBand ⟨(s.ppu.scanline + 1) / 8 - 1, by omega⟩
      { s with ppu := { s.ppu with dot := s.ppu.dot + n - Config.dotWrapSub, scanline := s.ppu.scanline + 1 } })
      frameStep := by
  unfold advance
  rw [if_pos hw]
  unfold dotWrap bandStep
  rw [dif_pos (by show s.ppu.scanline + 1 ≤ 240 ∧ _; exact ⟨hl, h8⟩)]
  simp only [accumulate_of_ne n (s := s) (by omega)]
  rfl

/-- At the last scanline a wrap of `advance` is the rendering of the frame (`45_ppu_render_pipeline.md` R217). -/
theorem advance_frameWrap {n : Nat} (hw : 341 ≤ s.ppu.dot + n) (hs : s.ppu.scanline = 261) :
    advance n s = render
      { s with ppu := { s.ppu with dot := s.ppu.dot + n - Config.dotWrapSub, scanline := 0 } } := by
  unfold advance
  rw [if_pos hw]
  unfold dotWrap
  rw [bandStep_none (by show ¬ (s.ppu.scanline + 1 ≤ 240 ∧ _); omega), andThen]
  unfold frameStep
  rw [if_pos (by show s.ppu.scanline + 1 = 262; omega), accumulate_of_ne n (by omega)]
  rfl

/-! ### Faults of `advance` -/

theorem appendTiles_fault {row : Fin 30} {cols : List (Fin 32)} {f : Fault} (h : appendTiles row cols s = .fault f) :
    ∃ v u, f = raised v u ∧ PipelineOnly s u := by
  induction cols generalizing s with
  | nil => exact nomatch h
  | cons col cols ih =>
    rcases orRaise_fault.mp h with ⟨v, -, hf⟩ | ⟨tile, -, h⟩
    · exact ⟨v, _, hf, .refl _⟩
    · obtain ⟨v, u, hf, hp⟩ := ih h
      exact ⟨v, u, hf, (pipelineOnly_setTiles _ _).trans hp⟩

theorem plotPixels_fault {tile : Tile} {ps : List (Fin 8 × Fin 8)} {f : Fault} (h : plotPixels tile ps s = .fault f) :
    ∃ v u, f = raised v u ∧ PipelineOnly s u := by
  induction ps generalizing s with
  | nil => exact nomatch h
  | cons p ps ih =>
    rcases orRaise_fault.mp h with ⟨v, -, hf⟩ | ⟨c, -, h⟩
    · exact ⟨v, _, hf, .refl _⟩
    · obtain ⟨v, u, hf, hp⟩ := ih h
      exact ⟨v, u, hf, (pipelineOnly_setFrame _ _).trans hp⟩

theorem plotTiles_fault {ts : List Tile} {f : Fault} (h : plotTiles ts s = .fault f) :
    ∃ v u, f = raised v u ∧ PipelineOnly s u := by
  induction ts generalizing s with
  | nil => exact nomatch h
  | cons tile ts ih =>
    rcases andThen_fault.mp h with h | ⟨u, hu, h⟩
    · exact plotPixels_fault h
    · obtain ⟨v, w, hf, hp⟩ := ih h
      exact ⟨v, w, hf, (plotPixels_next hu).pipeline.trans hp⟩

/-- A fault of `advance` leaves a state that differs from the one before in the pipeline state only, halted
(`45_ppu_render_pipeline.md` R229). -/
theorem advance_fault {n : Nat} {f : Fault} (h : advance n s = .fault f) :
    ∃ v u, f = raised v u ∧ PipelineOnly s u := by
  have hband : ∀ r : State, bandStep r = .fault f → ∃ v u, f = raised v u ∧ PipelineOnly r u := fun r hr => by
    unfold bandStep at hr
    split at hr
    · exact appendTiles_fault hr
    · exact nomatch hr
  have hframe : ∀ r : State, frameStep r = .fault f → ∃ v u, f = raised v u ∧ PipelineOnly r u := fun r hr => by
    unfold frameStep at hr
    split at hr
    · rcases andThen_fault.mp hr with hr | ⟨_, -, hr⟩
      · obtain ⟨v, u, hf, hp⟩ := plotTiles_fault hr
        exact ⟨v, u, hf, (pipelineOnly_setScanline r 0).trans hp⟩
      · exact nomatch hr
    · exact nomatch hr
  unfold advance at h
  split at h
  · rcases andThen_fault.mp h with h | ⟨r, hb, h⟩
    · obtain ⟨v, u, hf, hp⟩ := hband _ h
      exact ⟨v, u, hf, (wrapped_pipelineOnly n _ _ s).trans hp⟩
    · obtain ⟨ts, rfl⟩ := bandStep_next hb
      obtain ⟨v, u, hf, hp⟩ := hframe _ h
      exact ⟨v, u, hf, ((wrapped_pipelineOnly n _ _ s).trans (pipelineOnly_setTiles _ _)).trans hp⟩
  · exact nomatch h

theorem advance_not_refused {n : Nat} {q : Refusal} : advance n s ≠ .refused q := by
  have hcols : ∀ (row : Fin 30) (cols : List (Fin 32)) (r : State), appendTiles row cols r ≠ .refused q := by
    intro row cols
    induction cols with
    | nil => exact fun r h => nomatch h
    | cons col cols ih =>
      intro r h
      obtain ⟨_, -, h⟩ := orRaise_refused.mp h
      exact ih _ h
  have hpix : ∀ (tile : Tile) (ps : List (Fin 8 × Fin 8)) (r : State), plotPixels tile ps r ≠ .refused q := by
    intro tile ps
    induction ps with
    | nil => exact fun r h => nomatch h
    | cons p ps ih =>
      intro r h
      obtain ⟨_, -, h⟩ := orRaise_refused.mp h
      exact ih _ h
  have htiles : ∀ (ts : List Tile) (r : State), plotTiles ts r ≠ .refused q := by
    intro ts
    induction ts with
    | nil => exact fun r h => nomatch h
    | cons tile ts ih =>
      intro r h
      rcases andThen_refused.mp h with h | ⟨_, -, h⟩
      · exact hpix _ _ _ h
      · exact ih _ h
  intro h
  unfold advance at h
  split at h
  · rcases andThen_refused.mp h with h | ⟨r, -, h⟩
    · unfold bandStep at h
      split at h
      · exact hcols _ _ _ h
      · exact nomatch h
    · unfold frameStep at h
      split at h
      · rcases andThen_refused.mp h with h | ⟨_, -, h⟩
        · exact htiles _ _ h
        · exact nomatch h
      · exact nomatch h
  · exact nomatch h

end Sys2Proof.Machine
end

