-- ==== Sys2Proof/Laws/Step.lean ====
section
/-! SUPPORT. What a fetch and a step can do, said once. -/

namespace Sys2Proof.Machine

variable {s t : State}

/-- Where a fetch answers an instruction, the state differs in PC only, and the cycle count is an entry's. -/
theorem fetch_ok {i : Instr} {n : Nat} (h : fetch s = .ok (i, n, t)) :
    (∃ v, t = s.setPc v) ∧ ∃ e ∈ s.params.table, e.cycles = n ∧ ∃ lo hi, e.build lo hi = i := by
  unfold fetch at h
  split at h
  · exact nomatch h
  split at h
  · exact nomatch h
  · rename_i e he
    have hm := List.mem_of_find?_eq_some he
    repeat' split at h
    all_goals cases h
    all_goals exact ⟨⟨_, rfl⟩, e, hm, rfl, _, _, rfl⟩

/-- Where a fetch faults, the state left differs in PC and the fault status only. -/
theorem fetch_error {f : Fault} (h : fetch s = .error f) : ∃ v pc, f = raised v (s.setPc pc) := by
  unfold fetch at h
  split at h
  · exact ⟨_, s.pc, (Except.error.inj h).symm⟩
  · repeat' split at h
    all_goals first | exact ⟨_, _, (Except.error.inj h).symm⟩ | exact nomatch h

/-- A step that answers a next state fetched an instruction, ran it, and advanced the PPU by its base cycle count. -/
theorem step_next (h : step s = .next t) :
    s.halted = none ∧ ∃ i n u v, fetch s = .ok (i, n, u) ∧ exec i u = .next v ∧ advance n v = .next t := by
  unfold step at h
  split at h
  · exact nomatch h
  · obtain ⟨⟨v, n⟩, hc, ha⟩ := andThen_next.mp h
    unfold cpuStep at hc
    split at hc
    · exact nomatch hc
    · obtain ⟨u, he, hn⟩ := andThen_next.mp hc
      obtain ⟨rfl, rfl⟩ := Prod.mk.inj (Host.Outcome.next.inj hn)
      exact ⟨‹_›, _, _, _, _, ‹_›, he, ha⟩

/-- A step that faults: the machine was halted, or the fetch, the instruction or `advance` raised. -/
theorem step_fault {f : Fault} (h : step s = .fault f) :
    (∃ v, s.halted = some v ∧ f = .stuck v) ∨
    (s.halted = none ∧ (fetch s = .error f ∨ ∃ i n u, fetch s = .ok (i, n, u) ∧
      (exec i u = .fault f ∨ ∃ v, exec i u = .next v ∧ advance n v = .fault f))) := by
  unfold step at h
  split at h
  · exact .inl ⟨_, ‹_›, (Host.Outcome.fault.inj h).symm⟩
  · refine .inr ⟨‹_›, ?_⟩
    unfold cpuStep at h
    split at h
    · exact .inl (by rw [‹fetch s = _›]; exact congrArg _ (Host.Outcome.fault.inj h))
    · rcases andThen_fault.mp h with h | ⟨⟨v, n⟩, hc, ha⟩
      · rcases andThen_fault.mp h with h | ⟨_, -, h⟩
        · exact .inr ⟨_, _, _, ‹_›, .inl h⟩
        · exact nomatch h
      · obtain ⟨u, he, hn⟩ := andThen_next.mp hc
        obtain ⟨rfl, rfl⟩ := Prod.mk.inj (Host.Outcome.next.inj hn)
        exact .inr ⟨_, _, _, ‹_›, .inr ⟨_, he, ha⟩⟩

/-- What an instruction leaves alone whichever it is: the launch data, the fault status, the PPU's counters, tiles and
frame, and the flags C, D, B and V; the memories stay canonical and within capacity. -/
theorem exec_leaves {i : Instr} (h : exec i s = .next t) :
    t.cart = s.cart ∧ t.params = s.params ∧ t.halted = s.halted ∧ PortFrame s.ppu t.ppu ∧
    t.flags.c = s.flags.c ∧ t.flags.d = s.flags.d ∧ t.flags.b = s.flags.b ∧ t.flags.v = s.flags.v ∧
    (Memory.wf s.ram = true → Memory.wf t.ram = true) ∧
    (Cells.below 0x0800 s.ram = true → Cells.below 0x0800 t.ram = true) := by
  have refl : PortFrame s.ppu s.ppu := ⟨rfl, rfl, rfl, rfl, id, id, id, id, id, id⟩
  cases exec_effect h with
  | loaded r v _ => cases r <;> exact ⟨rfl, rfl, rfl, refl, rfl, rfl, rfl, rfl, id, id⟩
  | bumped r d _ => cases r <;> exact ⟨rfl, rfl, rfl, refl, rfl, rfl, rfl, rfl, id, id⟩
  | stored addr _ hw =>
    obtain ⟨-, -, -, -, -, hf, hc, hp, hh, hq⟩ := memWrite_leaves hw
    refine ⟨hc, hp, hh, hq, by rw [hf], by rw [hf], by rw [hf], by rw [hf], ?_⟩
    rcases memWrite_cases hw with ⟨-, hi, rfl⟩ | ⟨-, q, -, rfl⟩ | ⟨-, -, rfl⟩
    · exact ⟨Cells.wf_write, Cells.below_write hi⟩
    · exact ⟨id, id⟩
    · exact ⟨id, id⟩
  | sp _ _ _ => exact ⟨rfl, rfl, rfl, refl, rfl, rfl, rfl, rfl, id, id⟩
  | pc v _ _ _ _ => exact ⟨rfl, rfl, rfl, refl, rfl, rfl, rfl, rfl, id, id⟩
  | sei _ _ _ => exact ⟨rfl, rfl, rfl, refl, rfl, rfl, rfl, rfl, id, id⟩

end Sys2Proof.Machine
end

