-- ==== Sys2Proof/Tests/Slice0.lean ====
section
/-! SUPPORT. Small tests of the model, their expected results from the worked vectors of `95_test_vectors.md` (its ids stand
in the comments) or written out by hand from a rule, and the witnesses of the statements' hypotheses. -/

namespace Sys2Proof.Tests

open Sys2Proof Sys2Proof.Machine

/-! ### Helpers -/

/-- The vectors' conventions: one program bank, `code` at 0x8000, reset vector 0x8000, the state right after reset. -/
def rom (code : List Byte) : State :=
  { State.reset with
    pc := 0x8000
    cart := { Cartridge.blank with prg := Cells.write (Memory.ofBytes 0 code) 0x3FFD 0x80 } }

/-- `rom code` with work RAM holding `bytes` from `addr` on. -/
def romRam (code : List Byte) (addr : Nat) (bytes : List Byte) : State :=
  { rom code with ram := Memory.ofBytes addr bytes }

/-- Code in work RAM, PC at it. -/
def inRam (addr : Word) (code : List Byte) : State :=
  { State.reset with pc := addr, ram := Memory.ofBytes addr.toNat code }

/-- The state after reset with the PPU replaced. -/
def withPpu (p : Ppu) : State := { State.reset with ppu := p }

/-- The PPU with counters set. -/
def counters (dot scanline : Nat) : Ppu := { Ppu.construction with dot := dot, scanline := scanline }

def mirrored (s : State) : State := { s with params := { s.params with ramMirror := true } }

def nextWith (r : Result) (p : State → Bool) : Bool :=
  match r with
  | .next t => p t
  | .fault _ => false
  | .refused _ => false

def faultWith (r : Result) (p : FaultValue → State → Bool) : Bool :=
  match r with
  | .fault (.raised f t) => p f t
  | .fault (.stuck _) => false
  | .fault .formatError => false
  | .next _ => false
  | .refused _ => false

/-! ### Well-formedness: each check, and a term it refuses -/

theorem test_wf_table : tableWf instrTable = true := by decide

/-- Two rows for opcode 0xA9 (`10_state.md` R29, `90_conflicts.md` C9). -/
theorem test_wf_refuses_duplicate_opcode :
    tableWf [⟨0xA9, .lda, .immediate, 2⟩, ⟨0xE8, .inx, .implied, 2⟩, ⟨0xA9, .ldx, .immediate, 2⟩] = false := by decide

/-- A handler in a mode that the default table pairs it with has a constructor of its own; LDA Zero Page,Y has none. -/
theorem test_wf_refuses_default_pair : (Instr.ldaMode .zeroPage 0x10).wf = false ∧ (Instr.bneMode .relative 0x10).wf = false ∧
    (Instr.ldaMode .zeroPageY 0x10).wf = true := by decide

/-- An operand wider than the mode's, and one where the mode has none. -/
theorem test_wf_refuses_operand : (Instr.inxMode .zeroPage 0x100).wf = false ∧ (Instr.inxMode .zeroPage 0xFF).wf = true ∧
    (Instr.staMode .immediate 0x01).wf = false ∧ (Instr.jmpMode .implied 0x01).wf = false := by decide

/-! ### Decoding: words written out bit by bit from `30_encoding.md` R101, R104 and R107 -/

/-- `LDA #$3F`: A9 3F, that is 1010 1001 and 0011 1111. -/
theorem test_decode_lda : decode instrTable [0b10101001, 0b00111111] = .ok (.ldaImm 0x3F, []) := by decide

/-- `LDX $10,Y`: B6 10. -/
theorem test_decode_ldx : decode instrTable [0b10110110, 0b00010000] = .ok (.ldxZpY 0x10, []) := by decide

/-- `LDY $1234`: AC 34 12, low byte first. -/
theorem test_decode_ldy : decode instrTable [0b10101100, 0b00110100, 0b00010010] = .ok (.ldyAbs 0x1234, []) := by decide

/-- `STA $2006`: 8D 06 20. -/
theorem test_decode_sta : decode instrTable [0b10001101, 0b00000110, 0b00100000] = .ok (.staAbs 0x2006, []) := by decide

/-- `STA ($10),Y`: 91 10. -/
theorem test_decode_sta_indirect : decode instrTable [0b10010001, 0b00010000, 0xFF] = .ok (.staIndY 0x10, [0xFF]) := by decide

/-- `INX`, `INY`, `DEX`, `DEY`, `TXS`: E8, C8, CA, 88, 9A. -/
theorem test_decode_register : [[0b11101000], [0b11001000], [0b11001010], [0b10001000], [0b10011010]].map
    (decode instrTable) =
    [.ok (.inx, []), .ok (.iny, []), .ok (.dex, []), .ok (.dey, []), .ok (.txs, [])] := by decide

/-- `JMP ($0010)`: 6C 10 00; `JMP $8005`: 4C 05 80. -/
theorem test_decode_jmp : decode instrTable [0b01101100, 0b00010000, 0x00] = .ok (.jmpInd 0x0010, []) ∧
    decode instrTable [0b01001100, 0b00000101, 0b10000000] = .ok (.jmpAbs 0x8005, []) := by decide

/-- `BNE loop` with offset −3: D0 FD; `SEI`: 78. -/
theorem test_decode_bne_sei : decode instrTable [0b11010000, 0b11111101] = .ok (.bne 0xFD, []) ∧
    decode instrTable [0b01111000] = .ok (.sei, []) := by decide

/-- 0xEA, a NOP on other members of the family, is illegal here (R105), and an operand may be missing. -/
theorem test_decode_rejects : decode instrTable [0xEA, 0x00] = .error (.illegalOpcode 0xEA) ∧
    decode instrTable [0xAD, 0x34] = .error (.truncated 0xAD) ∧ decode instrTable [] = .error .noBytes := by decide

/-- The table's numbering: the first byte is bits 7 to 0. -/
theorem test_decodeTableWord : decodeTableWord 24 0x20068D = some (.staAbs 0x2006) ∧
    decodeTableWord 8 0xE8 = some .inx ∧ decodeTableWord 8 0x0000A9 = some (.ldaImm 0) ∧
    decodeTableWord 8 0xEA = none := by decide

/-- An instruction placed with `withFetchWord` is the first one to run after reset: `LDX #$FF` (P1). -/
theorem test_withFetchWord : nextWith (step (State.reset.withFetchWord 16 0xFFA2))
    (fun t => t.x == 0xFF && t.pc == 0x0002 && t.flags.n) = true := by decide

/-! ### Another `INSTR_TABLE` (`00_scope.md` R7, `10_state.md` R29): the handlers and modes of R123 to R172, paired anew -/

/-- `s` with the instruction table `t`. -/
def withTable (t : Table) (s : State) : State := { s with params := { s.params with table := t } }

/-- LDA Zero Page,Y under opcode 0x02: the address is (0x10 + Y) mod 256, and the entry's cycles go to `advance`. -/
theorem test_table_lda : nextWith
    (step { withTable [⟨0x02, .lda, .zeroPageY, 7⟩] (romRam [0x02, 0xFE] 0x01 [0x80]) with y := 0x03 })
    (fun t => t.a == 0x80 && t.flags.n && t.pc == 0x8002 && t.ppu.dot == 7) = true := by decide

/-- The default's own rows with another count, and none for 0xE8: it is illegal there. -/
theorem test_table_counts :
    nextWith (step (withTable [⟨0xCA, .dex, .implied, 9⟩] (rom [0xCA]))) (fun t => t.x == 0xFF && t.ppu.dot == 9) = true ∧
    faultWith (step (withTable [⟨0xCA, .dex, .implied, 9⟩] (rom [0xE8])))
      (fun f t => f == .illegalOpcode 0xE8 0x8000 && t.pc == 0x8001) = true := by decide

/-- STA Immediate writes at the operand's own address and does not read it: after the last byte of work RAM the write faults,
with PC past the instruction; DEY Immediate, whose operand nothing accesses, does not fault there. -/
theorem test_table_sta_immediate :
    nextWith (step { withTable [⟨0x02, .sta, .immediate, 2⟩] (inRam 0x0000 [0x02, 0x55]) with a := 0x66 })
      (fun t => t.ram == [(0, 0x02), (1, 0x66)] && t.pc == 0x0002) = true ∧
    faultWith (step (withTable [⟨0x02, .sta, .immediate, 2⟩] (inRam 0x07FF [0x02])))
      (fun f t => f == .storageOutOfRange .ram 0x0800 && t.pc == 0x0801) = true ∧
    nextWith (step (withTable [⟨0x02, .dey, .immediate, 2⟩] (inRam 0x07FF [0x02])))
      (fun t => t.y == 0xFF && t.pc == 0x0801) = true := by decide

/-- JMP Relative, BNE Absolute and SEI Indirect, whose pointer read faults though SEI looks at no address. -/
theorem test_table_control :
    nextWith (step (withTable [⟨0x02, .jmp, .relative, 3⟩] (rom [0x02, 0xFD]))) (fun t => t.pc == 0x7FFF) = true ∧
    nextWith (step (withTable [⟨0x02, .bne, .absolute, 3⟩] (rom [0x02, 0x34, 0x12]))) (fun t => t.pc == 0x1234) = true ∧
    faultWith (step (withTable [⟨0x02, .sei, .indirect, 3⟩] (rom [0x02, 0x02, 0x20])))
      (fun f t => f == .unmappedAddress .cpuBus 0x2002 .read && t.pc == 0x8003) = true := by decide

/-! ### LDA, LDX, LDY (`95_test_vectors.md` 2.2; `ppu.dot` shows the cycles returned) -/

/-- L1. -/
theorem test_ldaImm_zero : nextWith (step { rom [0xA9, 0x00] with a := 0x12 })
    (fun t => t.a == 0 && t.flags.z && !t.flags.n && t.pc == 0x8002 && t.ppu.dot == 2) = true := by decide

/-- L2. -/
theorem test_ldaImm_negative : nextWith (step (rom [0xA9, 0x80]))
    (fun t => t.a == 0x80 && !t.flags.z && t.flags.n && t.pc == 0x8002) = true := by decide

/-- L5. -/
theorem test_ldaZp : nextWith (step (romRam [0xA5, 0x10] 0x10 [0x55]))
    (fun t => t.a == 0x55 && !t.flags.z && !t.flags.n && t.pc == 0x8002 && t.ppu.dot == 3) = true := by decide

/-- L6 with A6: the sum wraps inside page zero. -/
theorem test_ldaZpX_wraps : nextWith (step { romRam [0xB5, 0xF0] 0x10 [0x00] with x := 0x20, a := 1 })
    (fun t => t.a == 0 && t.flags.z && !t.flags.n && t.ppu.dot == 4) = true := by decide

/-- L7. -/
theorem test_ldaAbs : nextWith (step (rom [0xAD, 0x05, 0x80, 0, 0, 0xC3]))
    (fun t => t.a == 0xC3 && !t.flags.z && t.flags.n && t.pc == 0x8003 && t.ppu.dot == 4) = true := by decide

/-- X4: the read of a PPU port faults with PC past the instruction and A as it was. -/
theorem test_ldaAbs_port : faultWith (step { rom [0xAD, 0x02, 0x20] with a := 0x12 })
    (fun f t => f == .unmappedAddress .cpuBus 0x2002 .read && t.pc == 0x8003 && t.a == 0x12 && t.ppu.dot == 0) = true := by
  decide

/-- L8: the sum wraps at 65536. -/
theorem test_ldaAbsX_wraps : nextWith (step { romRam [0xBD, 0xFF, 0xFF] 0 [0x09] with x := 0x01 })
    (fun t => t.a == 0x09 && t.pc == 0x8003 && t.ppu.dot == 4) = true := by decide

/-- A13 on LDA: 0x80FF + 1 is 0x8100, and the page cross adds no cycle. -/
theorem test_ldaAbsY : nextWith
    (step { rom [] with
      y := 0x01, cart := { Cartridge.blank with prg := [(0, 0xB9), (1, 0xFF), (2, 0x80), (0x100, 0x66)] } })
    (fun t => t.a == 0x66 && t.pc == 0x8003 && t.ppu.dot == 4) = true := by decide

/-- L26. -/
theorem test_ldaIndX : nextWith
    (step { rom [0xA1, 0x10] with x := 0x04, ram := [(0x14, 0x34), (0x15, 0x02), (0x234, 0x80)] })
    (fun t => t.a == 0x80 && !t.flags.z && t.flags.n && t.pc == 0x8002 && t.ppu.dot == 6) = true := by decide

/-- A23: the pointer's successor wraps to 0x0000. -/
theorem test_ldaIndX_wraps : nextWith
    (step { rom [0xA1, 0xFE] with x := 0x01, ram := [(0x00, 0x03), (0x300, 0x5C)] })
    (fun t => t.a == 0x5C && t.pc == 0x8002) = true := by decide

/-- L27. -/
theorem test_ldaIndY : nextWith
    (step { rom [0xB1, 0x10] with a := 7, y := 0x05, ram := [(0x10, 0xFE), (0x11, 0x02), (0x302, 0x44)] })
    (fun t => t.a == 0x00 && t.flags.z && !t.flags.n && t.pc == 0x8002 && t.ppu.dot == 5) = true := by decide

/-- X11: the data read faults. -/
theorem test_ldaIndY_port : faultWith
    (step { rom [0xB1, 0x10] with y := 0x02, ram := [(0x11, 0x20)] })
    (fun f t => f == .unmappedAddress .cpuBus 0x2002 .read && t.pc == 0x8002 && t.a == 0) = true := by decide

/-- L9. -/
theorem test_ldxImm : nextWith (step (rom [0xA2, 0xFF]))
    (fun t => t.x == 0xFF && !t.flags.z && t.flags.n && t.pc == 0x8002 && t.ppu.dot == 2) = true := by decide

/-- A4 on LDX: top of the page. -/
theorem test_ldxZp : nextWith (step (romRam [0xA6, 0xFF] 0xFF [0x21]))
    (fun t => t.x == 0x21 && t.a == 0 && t.y == 0 && t.pc == 0x8002 && t.ppu.dot == 3) = true := by decide

/-- L10. -/
theorem test_ldxZpY : nextWith (step { romRam [0xB6, 0xFF] 0 [0x88, 0x00] with y := 0x02, x := 3 })
    (fun t => t.x == 0x00 && t.flags.z && !t.flags.n && t.ppu.dot == 4) = true := by decide

/-- A9 on LDX: low byte first. -/
theorem test_ldxAbs : nextWith (step (romRam [0xAE, 0x34, 0x02] 0x234 [0x7F]))
    (fun t => t.x == 0x7F && !t.flags.z && !t.flags.n && t.pc == 0x8003 && t.ppu.dot == 4) = true := by decide

/-- L11. -/
theorem test_ldxAbsY : nextWith (step { romRam [0xBE, 0x00, 0x02] 0x210 [0x40] with y := 0x10 })
    (fun t => t.x == 0x40 && !t.flags.z && !t.flags.n && t.ppu.dot == 4) = true := by decide

/-- L12. -/
theorem test_ldyImm : nextWith (step { rom [0xA0, 0x00] with y := 0x33 })
    (fun t => t.y == 0x00 && t.flags.z && !t.flags.n && t.ppu.dot == 2) = true := by decide

/-- L13. -/
theorem test_ldyZp : nextWith (step (romRam [0xA4, 0x10] 0x10 [0x7F]))
    (fun t => t.y == 0x7F && !t.flags.z && !t.flags.n && t.pc == 0x8002 && t.ppu.dot == 3) = true := by decide

/-- A7 on LDY: (0xFF + 0xFF) mod 256. -/
theorem test_ldyZpX : nextWith (step { romRam [0xB4, 0xFF] 0xFE [0x90] with x := 0xFF })
    (fun t => t.y == 0x90 && t.flags.n && t.x == 0xFF && t.ppu.dot == 4) = true := by decide

/-- A9 on LDY. -/
theorem test_ldyAbs : nextWith (step (romRam [0xAC, 0x34, 0x02] 0x234 [0x01]))
    (fun t => t.y == 0x01 && t.pc == 0x8003 && t.ppu.dot == 4) = true := by decide

/-- L14. -/
theorem test_ldyAbsX : nextWith (step { romRam [0xBC, 0x00, 0x03] 0x302 [0x90] with x := 0x02 })
    (fun t => t.y == 0x90 && !t.flags.z && t.flags.n && t.ppu.dot == 4) = true := by decide

/-! ### STA (2.2) -/

/-- L15: no flag moves. -/
theorem test_staZp : nextWith (step { rom [0x85, 0x10] with a := 0xAB, flags := { Flags.reset with z := true } })
    (fun t => t.ram == [(0x10, 0xAB)] && t.a == 0xAB && t.flags.z && !t.flags.n && t.pc == 0x8002 && t.ppu.dot == 3) =
    true := by decide

/-- L16. -/
theorem test_staZpX : nextWith (step { rom [0x95, 0xF0] with a := 0x01, x := 0x20 })
    (fun t => t.ram == [(0x10, 0x01)] && t.ppu.dot == 4) = true := by decide

/-- L17. -/
theorem test_staAbs : nextWith (step { rom [0x8D, 0xFF, 0x07] with a := 0x5A })
    (fun t => t.ram == [(0x7FF, 0x5A)] && t.pc == 0x8003 && t.ppu.dot == 4) = true := by decide

/-- L23: the store runs the port action. -/
theorem test_staAbs_port : nextWith (step { rom [0x8D, 0x06, 0x20] with a := 0x3F })
    (fun t => t.ppu.vaddr == 0x3F00 && t.ppu.latch == .awaitingLowByte && t.a == 0x3F && t.ram == []) = true := by decide

/-- L18: a store of zero sets no flag, and a cell that comes to hold 0 is not listed. -/
theorem test_staAbsX : nextWith
    (step { romRam [0x9D, 0x00, 0x02] 0x2FF [0x11] with x := 0xFF, flags := { Flags.reset with n := true } })
    (fun t => t.ram == [] && t.flags.n && !t.flags.z && t.ppu.dot == 5) = true := by decide

/-- L19. -/
theorem test_staAbsY_wraps : nextWith (step { rom [0x99, 0xF0, 0xFF] with a := 0x77, y := 0x20 })
    (fun t => t.ram == [(0x10, 0x77)] && t.ppu.dot == 5) = true := by decide

/-- L24. -/
theorem test_staIndX : nextWith (step { rom [0x81, 0x10] with a := 0x42, x := 0x04, ram := [(0x14, 0x34), (0x15, 0x02)] })
    (fun t => Cells.read t.ram 0x234 == 0x42 && t.pc == 0x8002 && t.ppu.dot == 6) = true := by decide

/-- L25. -/
theorem test_staIndY : nextWith (step { rom [0x91, 0x10] with a := 0x42, y := 0x05, ram := [(0x10, 0xFE), (0x11, 0x02)] })
    (fun t => Cells.read t.ram 0x303 == 0x42 && t.pc == 0x8002 && t.ppu.dot == 6) = true := by decide

/-! ### Register instructions (2.3) -/

/-- G1. -/
theorem test_inx_wraps : nextWith (step { rom [0xE8] with x := 0xFF })
    (fun t => t.x == 0 && t.flags.z && !t.flags.n && t.pc == 0x8001 && t.ppu.dot == 2) = true := by decide

/-- G2 and G13: the sign changes; V, C, A and Y do not. -/
theorem test_inx_sign : nextWith (step { rom [0xE8] with x := 0x7F, y := 0x55, a := 0xAA })
    (fun t => t.x == 0x80 && !t.flags.z && t.flags.n && !t.flags.v && !t.flags.c && t.y == 0x55 && t.a == 0xAA) = true := by
  decide

/-- G4. -/
theorem test_iny_wraps : nextWith (step { rom [0xC8] with y := 0xFF })
    (fun t => t.y == 0 && t.flags.z && !t.flags.n && t.pc == 0x8001) = true := by decide

/-- G5. -/
theorem test_iny : nextWith (step { rom [0xC8] with y := 0xFE })
    (fun t => t.y == 0xFF && !t.flags.z && t.flags.n && t.ppu.dot == 2) = true := by decide

/-- G6. -/
theorem test_dex_wraps : nextWith (step (rom [0xCA]))
    (fun t => t.x == 0xFF && !t.flags.z && t.flags.n && t.pc == 0x8001) = true := by decide

/-- G8. -/
theorem test_dex : nextWith (step { rom [0xCA] with x := 0x80 })
    (fun t => t.x == 0x7F && !t.flags.z && !t.flags.n && t.ppu.dot == 2) = true := by decide

/-- G9. -/
theorem test_dey_wraps : nextWith (step (rom [0x88]))
    (fun t => t.y == 0xFF && !t.flags.z && t.flags.n && t.pc == 0x8001) = true := by decide

/-- G10. -/
theorem test_dey : nextWith (step { rom [0x88] with y := 0x01 })
    (fun t => t.y == 0x00 && t.flags.z && !t.flags.n && t.ppu.dot == 2) = true := by decide

/-- G11: no flag moves, though the value is 0. -/
theorem test_txs : nextWith (step { rom [0x9A] with flags := { Flags.reset with n := true } })
    (fun t => t.sp == 0x00 && !t.flags.z && t.flags.n && t.pc == 0x8001 && t.ppu.dot == 2) = true := by decide

/-- G12. -/
theorem test_txs_ff : nextWith (step { rom [0x9A] with x := 0xFF, flags := { Flags.reset with z := true } })
    (fun t => t.sp == 0xFF && t.flags.z && !t.flags.n) = true := by decide

/-! ### Control transfer and SEI (2.4) -/

/-- B1. -/
theorem test_jmpAbs : nextWith (step (rom [0x4C, 0x05, 0x80])) (fun t => t.pc == 0x8005 && t.ppu.dot == 3) = true := by
  decide

/-- B4: the jump itself succeeds, whatever its target. -/
theorem test_jmpAbs_unreadable : nextWith (step (rom [0x4C, 0x00, 0x20])) (fun t => t.pc == 0x2000) = true := by decide

/-- B5. -/
theorem test_jmpInd : nextWith (step (romRam [0x6C, 0x10, 0x00] 0x10 [0x00, 0x80]))
    (fun t => t.pc == 0x8000 && t.ppu.dot == 5) = true := by decide

/-- A21: the one operand on which `JMP_IND_PAGE_WRAP` matters, for both of its values. -/
theorem test_jmpInd_page_edge :
    eaIndirect { rom [] with ram := [(0x00, 0x80), (0xFF, 0x34), (0x100, 0x12)] } 0x00FF =
      .ok (if Config.jmpIndPageWrap then 0x8034 else 0x1234) := by
  unfold eaIndirect
  cases Config.jmpIndPageWrap <;> decide

/-- B6. -/
theorem test_bne_taken : nextWith (step { rom [0, 0, 0, 0xD0, 0xFD] with pc := 0x8003 })
    (fun t => t.pc == 0x8002 && t.ppu.dot == 2) = true := by decide

/-- B7. -/
theorem test_bne_not_taken : nextWith
    (step { rom [0, 0, 0, 0xD0, 0xFD] with pc := 0x8003, flags := { Flags.reset with z := true } })
    (fun t => t.pc == 0x8005 && t.ppu.dot == 2) = true := by decide

/-- B14, with B13's unchanged flags. -/
theorem test_sei : nextWith (step { rom [0x78] with flags := { Flags.reset with i := false, n := true } })
    (fun t => t.flags.i && t.flags.n && !t.flags.z && !t.flags.c && t.pc == 0x8001 && t.ppu.dot == 2) = true := by decide

/-! ### The bus (2.5) -/

/-- M14 to M19 in small: one bank is seen twice, two banks once. -/
theorem test_prg_images :
    memRead { rom [0x11] with cart := { Cartridge.blank with prg := [(0, 0x11), (0x3FFF, 0x44)] } } 0xC000 = .ok 0x11 ∧
    memRead { rom [] with cart := { Cartridge.blank with prg := [(0x3FFF, 0x44)] } } 0xBFFF = .ok 0x44 ∧
    memRead { rom [] with cart := { Cartridge.blank with prgBanks := 2, prg := [(0x4000, 0x45)] } } 0xC000 = .ok 0x45 ∧
    memRead { rom [] with cart := { Cartridge.blank with prgBanks := 3, prg := [(0x7FFF, 0x89)] } } 0xFFFF = .ok 0x89 := by
  decide

/-- M3, M4 and M5: the mirror parameter. -/
theorem test_ram_mirror : memRead State.reset 0x0800 = .error (.storageOutOfRange .ram 0x0800) ∧
    memWrite State.reset 0x1FFF 1 = .error (.storageOutOfRange .ram 0x1FFF) ∧
    (memWrite (mirrored State.reset) 0x0800 0x77).map (fun t => memRead t 0x1000) = .ok (.ok 0x77) := by decide

/-- M6 to M9. -/
theorem test_unmapped_reads : [0x2002, 0x2007, 0x3FFF, 0x4016, 0x6000, 0x7FFF].map (memRead State.reset) =
    [0x2002, 0x2007, 0x3FFF, 0x4016, 0x6000, 0x7FFF].map (fun a => .error (.unmappedAddress .cpuBus a .read)) := by decide

/-- M12 and M13: sinks. -/
theorem test_sinks : [0x4000, 0x5FFF, 0x6000, 0x7FFF, 0x8000, 0xFFFF].map (fun a => memWrite State.reset a 0x99) =
    List.replicate 6 (.ok State.reset) := rfl

/-! ### The PPU port (2.7) -/

/-- Q1 to Q4: from 0x20FF the pair (0x23, 0x05) gives 0x2305. -/
theorem test_latch_pair :
    let p := writeVaddr { Ppu.construction with vaddr := 0x20FF } 0x23
    let q := writeVaddr p 0x05
    p.vaddr = 0x2300 ∧ p.latch = .awaitingLowByte ∧ q.vaddr = 0x2305 ∧ q.latch = .awaitingHighByte ∧
      (writeVaddr q 0x3F).vaddr = 0x3F00 := by decide

/-- Q5: a data write between the halves uses the half-formed address. -/
theorem test_data_between_halves :
    (writeVdata (writeVaddr Ppu.construction 0x21) 0xAA).map
      (fun p => (p.vram, p.vaddr, p.latch, (writeVaddr p 0x10).vaddr)) =
    .ok ([(0x100, 0xAA)], 0x2101, .awaitingLowByte, 0x2110) := by decide

/-- Q12 and Q13. -/
theorem test_vdata_nametable :
    (writeVdata { Ppu.construction with vaddr := 0x2000, ctrl := 0x04 } 0x5A).map (fun p => (p.vram, p.vaddr)) =
      .ok ([(0x000, 0x5A)], 0x2020) ∧
    (writeVdata { Ppu.construction with vaddr := 0x27FF } 0x01).map (fun p => (p.vram, p.vaddr)) =
      .ok ([(0x7FF, 0x01)], 0x2800) := by decide

/-- Q14 and Q17. -/
theorem test_vdata_past_vram :
    writeVdata { Ppu.construction with vaddr := 0x2800 } 1 = .error (.storageOutOfRange .vram 0x800) ∧
    writeVdata { Ppu.construction with vaddr := 0x3EFF } 1 = .error (.storageOutOfRange .vram 0xEFF) := by decide

/-- Q18, Q20, Q21, Q22 and Q24. -/
theorem test_vdata_palette :
    [0x1FFF, 0x3F10, 0x3F14, 0x3F18, 0x3F1C, 0x3F11, 0x3FE5].map
      (fun a => (writeVdata { Ppu.construction with vaddr := a } 0x2A).map (fun p => (p.pal, p.vaddr))) =
    [.ok ([], 0x2000), .ok ([(0x00, 0x2A)], 0x3F11), .ok ([(0x04, 0x2A)], 0x3F15), .ok ([(0x08, 0x2A)], 0x3F19),
      .ok ([(0x0C, 0x2A)], 0x3F1D), .ok ([(0x11, 0x2A)], 0x3F12), .ok ([(0x05, 0x2A)], 0x3FE6)] := by decide

/-- Q25: the address runs to 0x4000, where a data write faults. -/
theorem test_vdata_past_palette :
    (writeVdata { Ppu.construction with vaddr := 0x3FFF } 0x05).map (fun p => (p.pal, p.vaddr, writeVdata p 0x05)) =
    .ok ([(0x1F, 0x05)], 0x4000, .error (.unmappedAddress .ppuVram 0x4000 .write)) := by decide

/-- Q29. -/
theorem test_oam_wraps :
    (writeOamData { Ppu.construction with oamaddr := 0xFF } 0xCD).map (fun p => (p.oam, p.oamaddr)) =
    .ok ([(0xFF, 0xCD)], 0x00) := by decide

/-- Q6, Q11, Q31 and Q32. -/
theorem test_other_ports :
    ppuWrite { Ppu.construction with latch := .awaitingLowByte } 0x2005 0x7F =
      .ok { Ppu.construction with latch := .awaitingLowByte } ∧
    (writeCtrl Ppu.construction 0xEB).increment = 0x0001 ∧ (writeCtrl Ppu.construction 0xEB).bgBase = 0x0000 ∧
    (writeCtrl Ppu.construction 0x14).increment = 0x0020 ∧ (writeCtrl Ppu.construction 0x14).bgBase = 0x1000 ∧
    [0x2002, 0x2008, 0x200E, 0x3FFF].map (fun a => ppuWrite Ppu.construction a 1) =
      [0x2002, 0x2008, 0x200E, 0x3FFF].map (fun a => .error (.unmappedAddress .ppuPort a .write)) := by decide

/-! ### advance (2.6), for both values of `DOT_WRAP_SUB` -/

/-- V2. -/
theorem test_advance_below : nextWith (advance 2 (withPpu (counters 338 5)))
    (fun t => t.ppu.dot == 340 && t.ppu.scanline == 5) = true := by decide

/-- V3. -/
theorem test_advance_wrap : nextWith (advance 2 (withPpu (counters 339 5)))
    (fun t => t.ppu.dot == (if Config.dotWrapIs314 then 27 else 0) && t.ppu.scanline == 6 && t.ppu.tiles == []) = true := by
  simp only [advance, dotWrap, Config.dotWrapSub]
  cases Config.dotWrapIs314 <;> decide

/-- V5: tile row 0, 32 tiles. -/
theorem test_advance_band : nextWith (advance 2 (withPpu (counters 340 7)))
    (fun t => t.ppu.scanline == 8 && t.ppu.tiles.length == 32 && t.ppu.tiles.all (fun x => x.row == 0)) = true := by decide

/-- V9: 248 exceeds 240, no band. -/
theorem test_advance_no_band : nextWith (advance 2 (withPpu (counters 340 247)))
    (fun t => t.ppu.scanline == 248 && t.ppu.tiles == []) = true := by decide

/-- V11: the frame wrap. -/
theorem test_advance_frame_wrap : nextWith (advance 2 (withPpu (counters 340 261)))
    (fun t => t.ppu.dot == (if Config.dotWrapIs314 then 28 else 1) && t.ppu.scanline == 0 && t.ppu.tiles == []) = true := by
  simp only [advance, dotWrap, Config.dotWrapSub]
  cases Config.dotWrapIs314 <;> decide

/-- V15: one wrap a call, however many dots. -/
theorem test_advance_one_wrap : nextWith (advance 700 (withPpu (counters 0 0)))
    (fun t => t.ppu.dot == (if Config.dotWrapIs314 then 386 else 359) && t.ppu.scanline == 1) = true := by
  simp only [advance, dotWrap, Config.dotWrapSub]
  cases Config.dotWrapIs314 <;> decide

/-! ### Tiles and rendering (2.8) -/

/-- The table of block ids. -/
theorem test_blockId :
    [blockId 0 0, blockId 1 1, blockId 2 0, blockId 3 1, blockId 0 2, blockId 1 3, blockId 2 2, blockId 3 3, blockId 4 0,
      blockId 6 5, blockId 5 6, blockId 31 29] = [0, 0, 1, 1, 2, 2, 3, 3, 0, 1, 2, 1] := by decide

/-- The tables of indices and selectors. -/
theorem test_tile_indices : nametableIndex 5 6 0 = 0x0C5 ∧ attributeIndex 5 6 0 = 0x3C9 ∧ nametableIndex 31 29 0 = 0x3BF ∧
    attributeIndex 31 29 0 = 0x3FF ∧ [0, 1, 2, 3].map (paletteSelector 0xE4) = [0, 1, 2, 3] ∧
    [0, 1, 2, 3].map (paletteSelector 0x1B) = [3, 2, 1, 0] := by decide

/-- One pixel row: plane bytes 0x41 and 0x11; and bit 7 is the leftmost pixel. -/
theorem test_pixelRow : pixelRow 0x41 0x11 = #v[0, 1, 0, 2, 0, 0, 0, 3] ∧ pixelRow 0x80 0x80 = #v[3, 0, 0, 0, 0, 0, 0, 0] := by
  decide

/-- Pattern bases. -/
theorem test_patternBase : patternBase { Ppu.construction with ctrl := 0x10 } 0x24 = 0x1240 ∧
    patternBase { Ppu.construction with ctrl := 0x10 } 0xFF = 0x1FF0 ∧ patternBase Ppu.construction 0x01 = 0x0010 := by decide

/-- Colour lookups; a palette byte of 64 faults. -/
theorem test_colour : colour { Ppu.construction with pal := [(0x0B, 0x2C)] } 2 3 = .ok (Config.rgbTable 0x2C) ∧
    colour { Ppu.construction with pal := [(0x04, 0x01)] } 1 0 = .ok (Config.rgbTable 1) ∧
    colour { Ppu.construction with pal := [(0x0B, 0x40)] } 2 3 = .error (.storageOutOfRange .rgbTable 0x40) :=
  ⟨rfl, rfl, rfl⟩

def blankTile (col : Fin 32) (row : Fin 30) : Tile :=
  ⟨col, row, Vector.replicate 8 (Vector.replicate 8 0), 0, 0⟩

/-- Frame positions. -/
theorem test_frameIndex : frameIndex (blankTile 5 6) 3 7 = 13103 ∧ frameIndex (blankTile 0 0) 0 0 = 0 ∧
    frameIndex (blankTile 31 29) 7 7 = 61439 := by decide

/-! ### Faults (2.9) -/

/-- X1: PC past the opcode, `advance` not called. -/
theorem test_illegal : faultWith (step (rom [0xEA]))
    (fun f t => f == .illegalOpcode 0xEA 0x8000 && t.pc == 0x8001 && t.ppu.dot == 0) = true := by decide

/-- X7. -/
theorem test_vram_fault : faultWith
    (step { rom [0x8D, 0x07, 0x20] with ppu := { Ppu.construction with vaddr := 0x2800 } })
    (fun f t => f == .storageOutOfRange .vram 0x800 && t.pc == 0x8003 && t.ppu.vaddr == 0x2800) = true := by decide

/-- X8 and X9: the opcode fetch. -/
theorem test_fetch_faults :
    faultWith (step { State.reset with pc := 0x2000 })
      (fun f t => f == .unmappedAddress .cpuBus 0x2000 .read && t.pc == 0x2000) = true ∧
    faultWith (step { State.reset with pc := 0x0800 })
      (fun f t => f == .storageOutOfRange .ram 0x0800 && t.pc == 0x0800) = true := by decide

/-- X10: the second operand read. -/
theorem test_operand_fault : faultWith (step (inRam 0x07FE [0xAD, 0x00]))
    (fun f t => f == .storageOutOfRange .ram 0x0800 && t.pc == 0x07FF) = true := by decide

/-! ### Reset and the loader (2.10, S8) -/

/-- Z2: two banks. -/
theorem test_reset_two_banks : nextWith
    (cpuReset { State.reset with cart := { Cartridge.blank with prgBanks := 2, prg := [(0x7FFC, 0x34), (0x7FFD, 0xC1)] } })
    (fun t => t.pc == 0xC134 && t.sp == 0xFD) = true := by decide

/-- Z5: the PPU and work RAM stay as they are. -/
theorem test_reset_leaves_ppu : nextWith
    (cpuReset { rom [] with
      a := 0x55, x := 0x66, y := 0x77, sp := 0x12, flags := { Flags.reset with z := true }, ram := [(0, 9)]
      ppu := { counters 100 50 with latch := .awaitingLowByte, vaddr := 0x2305 } })
    (fun t => t.pc == 0x8000 && t.sp == 0xFD && t.a == 0 && t.x == 0 && t.y == 0 && t.flags.i && !t.flags.z &&
      t.ram == [(0, 9)] && t.ppu.latch == .awaitingLowByte && t.ppu.vaddr == 0x2305 && t.ppu.dot == 100 &&
      t.ppu.scanline == 50) = true := by decide

/-- S8, the header's fields. -/
theorem test_header : let c := cartridgeOf 2 1 0x01 0x00 []
    c.mapper = 0 ∧ c.prgBanks = 2 ∧ c.chrBanks = 1 ∧ c.battery = false ∧ c.verticalMirroring = true := by decide

/-- The mapper number is two nibbles (R276). -/
theorem test_mapperNumber : mapperNumber 0x12 0x34 = 0x31 := by decide

/-! ### Witnesses: for every statement with hypotheses a concrete state and operands that meet them, clause by clause at the
ends of the clause's range -/

/-- A character-less cartridge. -/
def noChr (p : Ppu) : State := { State.reset with ppu := p, cart := { Cartridge.blank with chrBanks := 0 } }

/-- The frame wrap with one tile in the sequence. -/
def oneTile : State := withPpu { counters 340 261 with tiles := [blankTile 0 0] }

/-- An instruction of the default table, and one of another. -/
theorem test_witness_EncodeThenDecodeGivesTheInstruction :
    (tableWf instrTable = true ∧ (Instr.ldaAbsX 0x8010).wf = true ∧
      encode instrTable (.ldaAbsX 0x8010) = some [0xBD, 0x10, 0x80]) ∧
    (tableWf [⟨0x02, .lda, .zeroPageY, 7⟩] = true ∧ (Instr.ldaMode .zeroPageY 0x10).wf = true ∧
      encode [⟨0x02, .lda, .zeroPageY, 7⟩] (.ldaMode .zeroPageY 0x10) = some [0x02, 0x10]) ∧
    ∃ e ∈ instrTable, e.mnemonic = Instr.sei.mnemonic ∧ e.mode = Instr.sei.mode := by decide

/-- In the default table, and with the operand byte that nothing reads. -/
theorem test_witness_DecodedBytesAreTheEncoding : decode instrTable [0xA9, 0x3F, 0x00] = .ok (.ldaImm 0x3F, [0x00]) ∧
    readsOperand .lda .immediate = true ∧
    decode [⟨0x02, .sta, .immediate, 2⟩] [0x02, 0x3F] = .ok (.staMode .immediate 0, []) := by decide

theorem test_witness_ResetOperationLeavesTheResetState : 1 ≤ (rom [0xE8]).cart.prgBanks := by decide

theorem test_witness_LaunchAdmitsMapperZeroWithProgramRom :
    ({ Cartridge.blank with mapper := 1 } : Cartridge).mapper ≠ 0 ∧
    ({ Cartridge.blank with prgBanks := 0 } : Cartridge).prgBanks = 0 ∧
    Cartridge.blank.mapper = 0 ∧ 1 ≤ Cartridge.blank.prgBanks ∧ tableWf Params.default.table = true ∧
    tableWf [⟨0xA9, .lda, .immediate, 2⟩, ⟨0xA9, .ldx, .immediate, 2⟩] = false := by decide

/-- An image too short for a signature, and a body of one program bank and one character bank. -/
theorem test_witness_CartridgeHeaderIsRead : ([] : List Byte).take 4 ≠ Config.cartridgeMagic.toList ∧
    (List.replicate 8 (0 : Byte)).length = 8 ∧ (List.replicate 16384 (0xEA : Byte)).length = (1 : Byte).toNat * 16384 ∧
    (List.replicate 8192 (0x41 : Byte)).length = (1 : Byte).toNat * 8192 := by
  refine ⟨fun h => ?_, List.length_replicate, List.length_replicate, List.length_replicate⟩
  have := congrArg List.length h
  simp at this

theorem test_witness_StepRunsTheDecodedInstruction_next : (rom [0xA9, 0x3F]).halted = none ∧
    BytesAt (rom [0xA9, 0x3F]) 0x8000 [0xA9, 0x3F] ∧ [0xA9, 0x3F].head? = some (0xA9 : Byte) ∧
    lookup (rom [0xA9, 0x3F]).params.table 0xA9 = some ⟨0xA9, .lda, .immediate, 2⟩ ∧
    decode (rom [0xA9, 0x3F]).params.table [0xA9, 0x3F] = .ok (.ldaImm 0x3F, []) ∧
    ∃ t, exec (.ldaImm 0x3F) { rom [0xA9, 0x3F] with pc := 0x8002 } = .next t :=
  ⟨rfl, ⟨by decide, by decide, trivial⟩, rfl, by decide, by decide, _, rfl⟩

theorem test_witness_StepRunsTheDecodedInstruction_fault : (rom [0xAD, 0x02, 0x20]).halted = none ∧
    BytesAt (rom [0xAD, 0x02, 0x20]) 0x8000 [0xAD, 0x02, 0x20] ∧
    [0xAD, 0x02, 0x20].head? = some (0xAD : Byte) ∧
    lookup (rom [0xAD, 0x02, 0x20]).params.table 0xAD = some ⟨0xAD, .lda, .absolute, 4⟩ ∧
    decode (rom [0xAD, 0x02, 0x20]).params.table [0xAD, 0x02, 0x20] = .ok (.ldaAbs 0x2002, []) ∧
    ∃ f, exec (.ldaAbs 0x2002) { rom [0xAD, 0x02, 0x20] with pc := 0x8003 } = .fault f :=
  ⟨rfl, ⟨by decide, by decide, by decide, trivial⟩, rfl, by decide, by decide, _, rfl⟩

/-- A fault in the fetch, in the instruction, and in `advance`; a machine that a fault has halted. -/
theorem test_witness_FaultHaltsTheMachineForGood :
    (∃ t, step (rom [0xEA]) = .fault (.raised (.illegalOpcode 0xEA 0x8000) t)) ∧
    (∃ t, step (rom [0xAD, 0x02, 0x20]) = .fault (.raised (.unmappedAddress .cpuBus 0x2002 .read) t)) ∧
    (∃ t, step { inRam 0 [0xE8] with ppu := counters 340 7, cart := { Cartridge.blank with chrBanks := 0 } } =
      .fault (.raised (.storageOutOfRange .chr 0) t)) ∧
    ({ State.reset with halted := some (.illegalOpcode 0xEA 0x8000) } : State).halted =
      some (.illegalOpcode 0xEA 0x8000) :=
  ⟨⟨_, rfl⟩, ⟨_, rfl⟩, ⟨_, rfl⟩, rfl⟩

/-- Both ends of the unreadable regions, and both ends of the unmirrored reserve space. -/
theorem test_witness_OpcodeFetchFaultLeavesPc : State.reset.halted = none ∧
    memRead { State.reset with pc := 0x2000 } 0x2000 = .error (.unmappedAddress .cpuBus 0x2000 .read) ∧
    memRead { State.reset with pc := 0x7FFF } 0x7FFF = .error (.unmappedAddress .cpuBus 0x7FFF .read) ∧
    memRead { State.reset with pc := 0x0800 } 0x0800 = .error (.storageOutOfRange .ram 0x0800) ∧
    memRead { State.reset with pc := 0x1FFF } 0x1FFF = .error (.storageOutOfRange .ram 0x1FFF) := by decide

/-- The default table, and an opcode of the default that another table leaves empty. -/
theorem test_witness_IllegalOpcodeFaults :
    ((rom [0xEA]).halted = none ∧ memRead (rom [0xEA]) (rom [0xEA]).pc = .ok 0xEA ∧
      lookup (rom [0xEA]).params.table 0xEA = none) ∧
    let s := withTable [⟨0xCA, .dex, .implied, 9⟩] (rom [0xE8])
    s.halted = none ∧ memRead s s.pc = .ok 0xE8 ∧ lookup s.params.table 0xE8 = none := by decide

/-- The opcode's premises and one clause's: the operand read of `s` at its PC, `op` the opcode, `h` its handler and `m` its
mode. -/
abbrev operandFaults (s : State) (op : Byte) (h : Mnemonic) (m : Mode) : Prop :=
  s.halted = none ∧ memRead s s.pc = .ok op ∧ (lookup s.params.table op).map (fun e => (e.mnemonic, e.mode)) = some (h, m) ∧
    memRead s (s.pc + 1) = .error (.storageOutOfRange .ram 0x0800)

/-- `LDA $nn`, `LDA #$nn`, `STA` Immediate and `LDA $nnnn` with the opcode in the last byte of work RAM. -/
theorem test_witness_OperandFetchFaultLeavesPc_first : operandFaults (inRam 0x07FF [0xA5]) 0xA5 .lda .zeroPage ∧
    (operandFaults (inRam 0x07FF [0xA9]) 0xA9 .lda .immediate ∧ Mnemonic.lda.loads = true) ∧
    (operandFaults (withTable [⟨0x02, .sta, .immediate, 2⟩] (inRam 0x07FF [0x02])) 0x02 .sta .immediate ∧
      Mnemonic.sta.loads = false) ∧
    operandFaults (inRam 0x07FF [0xAD]) 0xAD .lda .absolute := by decide

/-- X10: only the second operand byte is out of range. -/
theorem test_witness_OperandFetchFaultLeavesPc_second :
    let s := inRam 0x07FE [0xAD, 0x01]
    s.halted = none ∧ memRead s s.pc = .ok 0xAD ∧ (lookup s.params.table 0xAD).map Entry.mode = some .absolute ∧
      memRead s (s.pc + 1) = .ok 0x01 ∧ memRead s (s.pc + 2) = .error (.storageOutOfRange .ram 0x0800) := by decide

theorem test_witness_ImmediateIsTheByteAtItsOwnAddress :
    (∃ n t, fetch (rom [0xA9, 0x3F]) = .ok (.ldaImm 0x3F, n, t)) ∧
    (∃ n t, fetch (rom [0xA2, 0x3F]) = .ok (.ldxImm 0x3F, n, t)) ∧
    ∃ n t, fetch (rom [0xA0, 0x3F]) = .ok (.ldyImm 0x3F, n, t) :=
  ⟨⟨_, _, rfl⟩, ⟨_, _, rfl⟩, ⟨_, _, rfl⟩⟩

theorem test_witness_CpuFaultChangesPcAlone :
    (∃ t, cpuStep (rom [0xEA]) = .fault (.raised (.illegalOpcode 0xEA 0x8000) t)) ∧
    ∃ t, cpuStep (rom [0x8D, 0x02, 0x20]) = .fault (.raised (.unmappedAddress .ppuPort 0x2002 .write) t) :=
  ⟨⟨_, rfl⟩, ⟨_, rfl⟩⟩

theorem test_witness_StepKeepsTheInvariant : (rom [0xE8]).Inv ∧ ∃ t, step (rom [0xE8]) = .next t := ⟨by decide, _, rfl⟩

theorem test_witness_StepNeverWritesLaunchDataOrUnusedFlags :
    (∃ t, step (rom [0xE8]) = .next t) ∧ (rom [0xE8]).flags.i = true := ⟨⟨_, rfl⟩, rfl⟩

theorem test_witness_LatchMovesOnlyAtPort2006 : ∃ t, step (rom [0x8D, 0x06, 0x20]) = .next t ∧
    t.ppu.latch ≠ (rom [0x8D, 0x06, 0x20]).ppu.latch := ⟨_, rfl, by decide⟩

/-! Bus: the ends of each clause's range, and the values where clauses meet. -/

theorem test_witness_BusReadRouting : (0x0000 : Word).toNat < 0x0800 ∧ (0x07FF : Word).toNat < 0x0800 ∧
    (0x0800 ≤ (0x0800 : Word).toNat ∧ (0x1FFF : Word).toNat < 0x2000 ∧ (mirrored State.reset).params.ramMirror = true ∧
      State.reset.params.ramMirror = false) ∧
    (0x2000 ≤ (0x2000 : Word).toNat ∧ (0x7FFF : Word).toNat < 0x8000) ∧
    (0x8000 ≤ (0x8000 : Word).toNat ∧ 0x8000 ≤ (0xFFFF : Word).toNat ∧ State.reset.cart.prgBanks = 1 ∧
      ({ Cartridge.blank with prgBanks := 0 } : Cartridge).prgBanks = 0 ∧
      2 ≤ ({ Cartridge.blank with prgBanks := 2 } : Cartridge).prgBanks) := by decide

theorem test_witness_BusWriteRouting : (0x0000 : Word).toNat < 0x0800 ∧ (0x07FF : Word).toNat < 0x0800 ∧
    (0x0800 ≤ (0x0800 : Word).toNat ∧ (0x1FFF : Word).toNat < 0x2000 ∧ (mirrored State.reset).params.ramMirror = true ∧
      State.reset.params.ramMirror = false) ∧
    (0x2000 ≤ (0x2000 : Word).toNat ∧ (0x3FFF : Word).toNat < 0x4000) ∧
    0x4000 ≤ (0x4000 : Word).toNat ∧ 0x4000 ≤ (0xFFFF : Word).toNat := by decide

theorem test_witness_ProgramRomReadsNeverFault : 0x8000 ≤ (0x8000 : Word).toNat ∧ (0xBFFF : Word).toNat < 0xC000 ∧
    1 ≤ State.reset.cart.prgBanks ∧ State.reset.cart.prgBanks = 1 := by decide

/-- With and without the mirror, at both ends of work RAM. -/
theorem test_witness_WorkRamReadAfterWrite : Memory.wf (romRam [] 0 [1, 2]).ram = true ∧
    (∃ t, memWrite (romRam [] 0 [1, 2]) 0x07FF 0x22 = .ok t) ∧ (0x1FFF : Word).toNat < 0x2000 ∧
    (∃ t, memWrite (mirrored (romRam [] 0 [1, 2])) 0x1FFF 0x22 = .ok t) ∧
    ¬ ((0x0001 : Word).toNat < 0x2000 ∧ ramIndex State.reset 0x0001 = ramIndex State.reset 0x07FF) :=
  ⟨by decide, ⟨_, rfl⟩, by decide, ⟨_, rfl⟩, by decide⟩

/-! Loads and stores: a readable address for each mode that is not a page-zero one, and the ends of the faulting ranges.
Each read is in the state the instruction runs in. -/

/-- Absolute, Absolute,X, Absolute,Y, (zp,X), (zp),Y; the read that faults at 0x2000, 0x7FFF, 0x0800 and 0x1FFF. -/
theorem test_witness_LdaLoadsTheAccumulator :
    let s := { rom [] with x := 4, y := 5, ram := [(0x10, 0xFE), (0x11, 0x02), (0x14, 0x34), (0x15, 0x02), (0x234, 0x80)] }
    memRead s 0x0234 = .ok 0x80 ∧ memRead s (0x0230 + s.x.setWidth 16) = .ok 0x80 ∧
    memRead s (0x022F + s.y.setWidth 16) = .ok 0x80 ∧ memRead s (pointerWord s (0x10 + s.x)) = .ok 0x80 ∧
    memRead s (pointerWord s 0x10 + s.y.setWidth 16) = .ok 0x00 ∧
    [0x2000, 0x7FFF].map (memRead s) = [0x2000, 0x7FFF].map (fun a => .error (.unmappedAddress .cpuBus a .read)) ∧
    [0x0800, 0x1FFF].map (memRead s) = [.error (.storageOutOfRange .ram 0x0800), .error (.storageOutOfRange .ram 0x1FFF)] ∧
    s.params.ramMirror = false := by decide

theorem test_witness_LdxLoadsIndexX :
    let s := { rom [] with y := 5, ram := [(0x234, 0x80)] }
    memRead s 0x0234 = .ok 0x80 ∧ memRead s (0x022F + s.y.setWidth 16) = .ok 0x80 ∧
    memRead s 0x2000 = .error (.unmappedAddress .cpuBus 0x2000 .read) ∧
    memRead s (0x7FFA + s.y.setWidth 16) = .error (.unmappedAddress .cpuBus 0x7FFF .read) ∧
    memRead s 0x0800 = .error (.storageOutOfRange .ram 0x0800) ∧
    memRead s (0x1FFA + s.y.setWidth 16) = .error (.storageOutOfRange .ram 0x1FFF) ∧ s.params.ramMirror = false := by decide

theorem test_witness_LdyLoadsIndexY :
    let s := { rom [] with x := 4, ram := [(0x234, 0x80)] }
    memRead s 0x0234 = .ok 0x80 ∧ memRead s (0x0230 + s.x.setWidth 16) = .ok 0x80 ∧
    memRead s 0x2000 = .error (.unmappedAddress .cpuBus 0x2000 .read) ∧
    memRead s (0x7FFB + s.x.setWidth 16) = .error (.unmappedAddress .cpuBus 0x7FFF .read) ∧
    memRead s 0x0800 = .error (.storageOutOfRange .ram 0x0800) ∧
    memRead s (0x1FFB + s.x.setWidth 16) = .error (.storageOutOfRange .ram 0x1FFF) ∧ s.params.ramMirror = false := by decide

/-- The addresses of the five modes that are not page-zero ones in work RAM; the ends of the other ranges; a port that takes
the byte and one that faults. -/
theorem test_witness_StaStoresTheAccumulator :
    let s := { rom [] with x := 4, y := 5, ram := [(0x10, 0xFE), (0x11, 0x02), (0x14, 0x34), (0x15, 0x02)] }
    (0x07FF : Word).toNat < 0x0800 ∧ ((0x07FB : Word) + s.x.setWidth 16).toNat < 0x0800 ∧
    ((0xFFFF : Word) + s.y.setWidth 16).toNat < 0x0800 ∧ (pointerWord s (0x10 + s.x)).toNat < 0x0800 ∧
    (pointerWord s 0x10 + s.y.setWidth 16).toNat < 0x0800 ∧ 0x0800 ≤ (0x0800 : Word).toNat ∧ (0x1FFF : Word).toNat < 0x2000 ∧
    s.params.ramMirror = false ∧ (mirrored s).params.ramMirror = true ∧
    (ppuWrite s.ppu 0x2000 s.a).isOk = true ∧ ppuWrite s.ppu 0x3FFF s.a = .error (.unmappedAddress .ppuPort 0x3FFF .write) ∧
    0x4000 ≤ (0x4000 : Word).toNat ∧ 0x4000 ≤ (0xFFFF : Word).toNat := by decide

/-- A readable pointer, one whose low byte cannot be read, and one at a page's edge, where both of the places its high byte
may come from can be read. -/
theorem test_witness_JmpSetsPc :
    let s := romRam [] 0x10 [0x00, 0x80]
    memRead s 0x0010 = .ok 0x00 ∧ memRead s 0x0011 = .ok 0x80 ∧ (0x0010 : Word).toNat % 256 ≠ 0xFF ∧
    memRead s 0x2000 = .error (.unmappedAddress .cpuBus 0x2000 .read) ∧
    (memRead s 0x00FF = .ok 0x00 ∧ (0x00FF : Word).toNat % 256 = 0xFF ∧ memRead s (0x00FF - 0xFF) = .ok 0x00 ∧
      memRead s (0x00FF + 1) = .ok 0x00) := by decide

/-- The pointer in the last byte of work RAM: its high byte is read at 0x0700 where `JMP_IND_PAGE_WRAP` is true, and faults at
0x0800 where it is false. -/
theorem test_witness_JmpSetsPc_second_read :
    let w : Word := 0x07FF
    let hiAt := if w.toNat % 256 = 0xFF ∧ Config.jmpIndPageWrap = true then w - 0xFF else w + 1
    memRead (rom []) w = .ok 0x00 ∧
      memRead (rom []) hiAt = if Config.jmpIndPageWrap then .ok 0x00 else .error (.storageOutOfRange .ram 0x0800) := by
  cases Config.jmpIndPageWrap <;> decide

theorem test_witness_BneBranchesOnZeroClear : (rom []).flags.z = false ∧
    ({ rom [] with flags := { Flags.reset with z := true } } : State).flags.z = true := by decide

/-- An address that each of the handlers' clauses asks for, in a mode outside the default pairs: readable, not readable at both
ends of both ranges, and one for each range of the stores. -/
theorem test_witness_EveryHandlerRunsInEveryMode :
    let s := { rom [] with y := 5, ram := [(0x15, 0x80)] }
    resolve s .zeroPageY 0x10 = .ok 0x0015 ∧ memRead s 0x0015 = .ok 0x80 ∧
    [0x2000, 0x7FFF].map (fun w => (resolve s .absolute w).toOption) = [some 0x2000, some 0x7FFF] ∧
    [0x2000, 0x7FFF].map (memRead s) = [0x2000, 0x7FFF].map (fun a => .error (.unmappedAddress .cpuBus a .read)) ∧
    [0x0800, 0x1FFF].map (memRead s) = [.error (.storageOutOfRange .ram 0x0800), .error (.storageOutOfRange .ram 0x1FFF)] ∧
    s.params.ramMirror = false ∧ (mirrored s).params.ramMirror = true ∧
    (ppuWrite s.ppu 0x2000 s.a).isOk = true ∧ (ppuWrite s.ppu 0x3FFF s.a).isOk = false ∧
    0x4000 ≤ (0x4000 : Word).toNat ∧ 0x4000 ≤ (0xFFFF : Word).toNat ∧
    s.flags.z = false ∧ ({ s with flags := { s.flags with z := true } } : State).flags.z = true := by decide

/-- The resolution that can fault: a readable pointer, and the two faulting reads. -/
theorem test_witness_EveryHandlerRunsInEveryMode_pointer :
    resolve (rom []) .indirect 0x0010 = .ok 0x0000 ∧
    memRead (rom []) 0x0010 = .ok 0x00 ∧ memRead (rom []) 0x0011 = .ok 0x00 ∧
    resolve (rom []) .indirect 0x2000 = .error (.unmappedAddress .cpuBus 0x2000 .read) ∧
    memRead (rom []) 0x2000 = .error (.unmappedAddress .cpuBus 0x2000 .read) ∧
    (Config.jmpIndPageWrap = false →
      memRead (rom []) 0x07FF = .ok 0x00 ∧ memRead (rom []) (0x07FF + 1) = .error (.storageOutOfRange .ram 0x0800)) := by
  cases Config.jmpIndPageWrap <;> decide

/-- One instruction with each of the three destinations. -/
theorem test_witness_ZeroAndNegativeFollowTheRegister :
    (destination (.ldaImm 0x80) = some .a ∧ ∃ t, exec (.ldaImm 0x80) State.reset = .next t) ∧
    (destination .dex = some .x ∧ ∃ t, exec .dex State.reset = .next t) ∧
    destination (.ldyZp 0x10) = some .y ∧ ∃ t, exec (.ldyZp 0x10) State.reset = .next t :=
  ⟨⟨rfl, _, rfl⟩, ⟨rfl, _, rfl⟩, rfl, _, rfl⟩

theorem test_witness_LoadAndCountFrame :
    (destination (.ldaAbs 0x8000) = some .a ∧ ∃ t, exec (.ldaAbs 0x8000) State.reset = .next t) ∧
    destination .iny = some .y ∧ ∃ t, exec .iny State.reset = .next t := ⟨⟨rfl, _, rfl⟩, rfl, _, rfl⟩

/-- A store to work RAM, to each port that takes the byte, and to a sink. -/
theorem test_witness_StoreFrame :
    (storeAddress State.reset (.staZp 0x10) = some (.ok 0x0010) ∧ ∃ t, exec (.staZp 0x10) State.reset = .next t) ∧
    (storeAddress State.reset (.staAbs 0x2004) = some (.ok 0x2004) ∧ ∃ t, exec (.staAbs 0x2004) State.reset = .next t) ∧
    (storeAddress State.reset (.staAbs 0x2006) = some (.ok 0x2006) ∧ ∃ t, exec (.staAbs 0x2006) State.reset = .next t) ∧
    (storeAddress State.reset (.staAbs 0x2007) = some (.ok 0x2007) ∧ ∃ t, exec (.staAbs 0x2007) State.reset = .next t) ∧
    storeAddress State.reset (.staAbs 0x8000) = some (.ok 0x8000) ∧ ∃ t, exec (.staAbs 0x8000) State.reset = .next t :=
  ⟨⟨rfl, _, rfl⟩, ⟨rfl, _, rfl⟩, ⟨rfl, _, rfl⟩, ⟨rfl, _, rfl⟩, rfl, _, rfl⟩

theorem test_witness_TransferAndControlFrame :
    (destination .txs = none ∧ storeAddress State.reset .txs = none ∧ ∃ t, exec .txs State.reset = .next t) ∧
    (destination .sei = none ∧ storeAddress State.reset .sei = none ∧ ∃ t, exec .sei State.reset = .next t) ∧
    destination (.jmpAbs 0x2000) = none ∧ storeAddress State.reset (.jmpAbs 0x2000) = none ∧
    ∃ t, exec (.jmpAbs 0x2000) State.reset = .next t := ⟨⟨rfl, rfl, _, rfl⟩, ⟨rfl, rfl, _, rfl⟩, rfl, rfl, _, rfl⟩

theorem test_witness_VramAddressPortLatches : State.reset.ppu.latch = .awaitingHighByte ∧
    (withPpu { Ppu.construction with latch := .awaitingLowByte }).ppu.latch = .awaitingLowByte := by decide

theorem test_witness_TwoAddressWritesFormTheAddress : State.reset.ppu.latch = .awaitingHighByte := by decide

/-- The ends of the seven ranges: an address meets exactly one clause. -/
theorem test_witness_VramDataPortByAddress :
    (0x1FFF : Word).toNat < 0x2000 ∧ (0x2000 ≤ (0x2000 : Word).toNat ∧ (0x27FF : Word).toNat < 0x2800) ∧
    (0x2800 ≤ (0x2800 : Word).toNat ∧ (0x2FFF : Word).toNat < 0x3000) ∧
    (0x3000 ≤ (0x3000 : Word).toNat ∧ (0x37FF : Word).toNat < 0x3800) ∧
    (0x3800 ≤ (0x3800 : Word).toNat ∧ (0x3EFF : Word).toNat < 0x3F00) ∧
    (0x3F00 ≤ (0x3F00 : Word).toNat ∧ (0x3FFF : Word).toNat < 0x4000) ∧
    0x4000 ≤ (0x4000 : Word).toNat ∧ 0x4000 ≤ (0xFFFF : Word).toNat := by decide

/-- The premises at address `a`, and an index that is no image of it. -/
abbrev palettePremises (a : Word) : Prop :=
  let s := withPpu { Ppu.construction with vaddr := a }
  Memory.wf s.ppu.pal = true ∧ 0x3F00 ≤ s.ppu.vaddr.toNat ∧ s.ppu.vaddr.toNat < 0x4000 ∧
    nextWith (exec (.staAbs 0x2007) s) (fun _ => true) = true ∧ palIndex 0x01 ≠ palIndex (s.ppu.vaddr.toNat % 32)

/-- The address at each of the four mirrored entries, and at both ends of palette space. -/
theorem test_witness_PaletteMirrorReadsBack : palettePremises 0x3F10 ∧ palettePremises 0x3F14 ∧ palettePremises 0x3F18 ∧
    palettePremises 0x3F1C ∧ palettePremises 0x3F00 ∧ palettePremises 0x3FFF := by decide

theorem test_witness_PaletteMirrorReadsBack_entries : (0x3F10 : Word).toNat % 32 = 0x10 ∧ (0x3F14 : Word).toNat % 32 = 0x14 ∧
    (0x3F18 : Word).toNat % 32 = 0x18 ∧ (0x3F1C : Word).toNat % 32 = 0x1C := by decide

theorem test_witness_UnlistedPortsFault :
    (0x2000 ≤ (0x2002 : Word).toNat ∧ (0x2002 : Word).toNat < 0x4000 ∧ (0x2002 : Word).toNat = 0x2002) ∧
    0x2008 ≤ (0x2008 : Word).toNat ∧ 0x2008 ≤ (0x3FFF : Word).toNat ∧ (0x3FFF : Word).toNat < 0x4000 := by decide

theorem test_witness_AdvanceBelowTheWrap : (withPpu (counters 338 5)).ppu.dot + 2 < 341 := by decide

/-- The least dot count that wraps, at a scanline that is no band's, below and above 240. -/
theorem test_witness_AdvanceWrapsTheDotCounter : 341 ≤ (counters 339 5).dot + 2 ∧ (counters 339 5).scanline ≠ 261 ∧
    ((counters 339 5).scanline + 1) % 8 ≠ 0 ∧ 240 < (counters 339 240).scanline + 1 := by decide

/-- The state after reset with counters and `NT_OFFSET`. -/
def withOffset (off dot scanline : Nat) : State :=
  { withPpu (counters dot scanline) with params := { Params.default with ntOffset := off } }

/-- The first band and the last, with the least `NT_OFFSET` and the greatest at which no tile can fault. -/
theorem test_witness_BandAppendsTheTileRow : ∀ k ∈ [7, 239], ∀ off ∈ [0, 0x400],
    let s := withOffset off 340 k
    1 ≤ s.cart.chrBanks ∧ 341 ≤ s.ppu.dot + 2 ∧ s.ppu.scanline + 1 ≤ 240 ∧ (s.ppu.scanline + 1) % 8 = 0 ∧
      s.params.ntOffset ≤ 0x400 ∧ ∀ col < 32, s.TileInVram col s.bandRow := by
  unfold State.TileInVram
  decide

/-- Above 0x400: in tile row 28 the last columns' attribute bytes are past video RAM first (0x3C0 + 0x401 + 56 + 7 is 0x800);
far above, the first tile's pattern index is. -/
theorem test_witness_BandAppendsTheTileRow_faults :
    (let s := withOffset 0x401 340 231
     (s.ppu.scanline + 1) % 8 = 0 ∧ s.bandRow = 28 ∧ (∀ col < 28, s.TileInVram col s.bandRow) ∧
       ¬ s.TileInVram 28 s.bandRow ∧ s.patternIndexAt 28 s.bandRow < 0x0800 ∧ s.attributeByteAt 28 s.bandRow = 0x0800) ∧
    (let s := withOffset 0x800 340 7
     (∀ col < 0, s.TileInVram col s.bandRow) ∧ ¬ s.TileInVram 0 s.bandRow ∧ s.patternIndexAt 0 s.bandRow = 0x0800) := by
  unfold State.TileInVram
  decide

/-- A tile in the sequence, a pixel it covers and one it does not. -/
theorem test_witness_FrameWrapRendersTheSequence : Cells.wf oneTile.ppu.frame = true ∧ oneTile.ppu.scanline = 261 ∧
    341 ≤ oneTile.ppu.dot + 2 ∧ (∃ t, advance 2 oneTile = .next t) ∧ oneTile.ppu.tiles = [] ++ blankTile 0 0 :: [] ∧
    (blankTile 0 0).Covers 7 7 ∧ ¬ (blankTile 0 0).Covers 8 7 ∧
    (∀ tile ∈ oneTile.ppu.tiles, ∀ y x, (paletteByte oneTile.ppu tile y x).toNat < 64) :=
  ⟨by decide, by decide, by decide, ⟨_, rfl⟩, by decide, by unfold Tile.Covers; decide, by unfold Tile.Covers; decide,
    by unfold paletteByte; decide⟩

/-- A tile whose pixel (2, 3) has pixel index 1, after a blank one. -/
def dotTile : Tile :=
  ⟨1, 0, (Vector.replicate 8 (Vector.replicate 8 0)).set 2 ((Vector.replicate 8 0).set 3 1), 0, 0⟩

/-- The palette byte of that pixel is 64, the least that faults, and every one before it is 0. -/
theorem test_witness_FrameWrapRendersTheSequence_faults :
    let p := { counters 340 261 with tiles := [blankTile 0 0, dotTile], pal := [(0x01, 0x40)] }
    p.tiles = [blankTile 0 0] ++ dotTile :: [] ∧
    (∀ u ∈ [blankTile 0 0], ∀ y' x', (paletteByte p u y' x').toNat < 64) ∧
    (∀ y' x', PixelBefore y' x' 2 3 → (paletteByte p dotTile y' x').toNat < 64) ∧
    64 ≤ (paletteByte p dotTile 2 3).toNat ∧ PixelBefore 2 2 2 3 ∧ PixelBefore 1 7 2 3 ∧
    [blankTile 0 0] = [] ++ blankTile 0 0 :: [] ∧ (blankTile 0 0).Covers 0 0 ∧ (∀ v ∈ [] ++ [dotTile], ¬ v.Covers 0 0) ∧
    (∀ u ∈ [blankTile 0 0] ++ [dotTile], ¬ u.Covers 16 0) := by
  unfold paletteByte PixelBefore Tile.Covers
  decide

theorem test_witness_AdvanceCannotFaultWhenRenderable : State.reset.Renderable := by
  unfold State.Renderable
  decide

/-- The three faults, by `NT_OFFSET`: the pattern byte, the pattern index, the attribute byte alone (in tile row 0 it is the
greater index up to 0x7FF). -/
theorem test_witness_BandWithoutCharacterRomFaults :
    (∀ k ∈ [7, 239], let s := noChr (counters 340 k)
      s.cart.chrBanks = 0 ∧ 341 ≤ s.ppu.dot + 2 ∧ s.ppu.scanline + 1 ≤ 240 ∧ (s.ppu.scanline + 1) % 8 = 0 ∧
      ¬ 0x0800 ≤ s.patternIndexAt 0 s.bandRow ∧ ¬ 0x0800 ≤ s.attributeByteAt 0 s.bandRow) ∧
    0x0800 ≤ (withOffset 0x800 340 7).patternIndexAt 0 (withOffset 0x800 340 7).bandRow ∧
    ¬ 0x0800 ≤ (withOffset 0x7FF 340 7).patternIndexAt 0 (withOffset 0x7FF 340 7).bandRow ∧
    0x0800 ≤ (withOffset 0x7FF 340 7).attributeByteAt 0 (withOffset 0x7FF 340 7).bandRow := by decide

theorem test_witness_AdvanceTouchesThePipelineOnly : (∃ t, advance 2 (withPpu (counters 338 5)) = .next t) ∧
    ∃ t, advance 2 (noChr (counters 340 7)) = .fault (.raised (.storageOutOfRange .chr 0) t) := ⟨⟨_, rfl⟩, ⟨_, rfl⟩⟩

/-- Two states that differ in the mask, sprite RAM, the addresses, the latch, A and work RAM. -/
theorem test_witness_AdvanceIgnoresWhatItDoesNotRead :
    let s := withPpu (counters 338 5)
    SamePipelineInput s { s with
      a := 1, ram := [(0, 1)]
      ppu := { s.ppu with mask := 1, oam := [(0, 1)], oamaddr := 1, vaddr := 1, latch := .awaitingLowByte } } ∧
    ∃ t, advance 2 s = .next t := ⟨⟨rfl, rfl, rfl, rfl, rfl, rfl, rfl, rfl, rfl, rfl⟩, _, rfl⟩

theorem test_witness_FrameChangesOnlyAtTheFrameWrap : ∃ t, step (rom [0xE8]) = .next t ∧
    ¬ ((rom [0xE8]).ppu.scanline = 261 ∧ t.ppu.scanline = 0) := ⟨_, rfl, by decide⟩

theorem test_witness_BlockIdNamesOneOfFourBlocks : (4 : Fin 32).val / 2 = (5 : Fin 32).val / 2 ∧
    (2 : Fin 30).val / 2 = (3 : Fin 30).val / 2 := by decide

end Sys2Proof.Tests
end

/-! PROOFS. Fetch, decode and dispatch (`40_fetch_decode_dispatch.md`): what the modes of JMP and BNE resolve to, and the
flags of the instructions with a destination register. -/

namespace Sys2Proof.Machine

/-! ### Indirect: the pointer's high byte (R134) -/

/-- Where Indirect reads the high byte of the word at `ptr`: the next address, or the start of the pointer's page if its low
byte is 0xFF and `JMP_IND_PAGE_WRAP` holds. -/
def indirectHighAt (ptr : Word) : Word :=
  if ptr.toNat % 256 = 0xFF ∧ Config.jmpIndPageWrap = true then ptr - 0xFF else ptr + 1

theorem lowByte_eq_FF_iff (w : Word) : lowByte w = 0xFF ↔ w.toNat % 256 = 0xFF := by
  rw [← BitVec.toNat_inj, lowByte_toNat]
  rfl

/-- Past the last byte of a page, the low byte's successor is 0: the page's first address. -/
theorem wordOfBytes_succ_lowByte {w : Word} (h : w.toNat % 256 = 0xFF) :
    wordOfBytes (lowByte w + 1) (highByte w) = w - 0xFF := by
  rw [(lowByte_eq_FF_iff w).mpr h]
  apply BitVec.eq_of_toNat_eq
  have hw := w.isLt
  have hz : ((0xFF : Byte) + 1).toNat = 0 := rfl
  have hk : (0xFF : Word).toNat = 255 := rfl
  rw [wordOfBytes_toNat, highByte_toNat, BitVec.toNat_sub, hz, hk]
  omega

/-- Indirect is two reads in order, the second at `indirectHighAt`. -/
theorem eaIndirect_eq (s : State) (ptr : Word) :
    eaIndirect s ptr =
      (memRead s ptr).bind fun lo => (memRead s (indirectHighAt ptr)).map fun hi => wordOfBytes lo hi := by
  have hAt : (if lowByte ptr = 0xFF then
      (if Config.jmpIndPageWrap then wordOfBytes (lowByte ptr + 1) (highByte ptr) else ptr + 1)
      else ptr + 1) = indirectHighAt ptr := by
    unfold indirectHighAt
    by_cases h : ptr.toNat % 256 = 0xFF
    · simp only [lowByte_eq_FF_iff, h, if_true, true_and, wordOfBytes_succ_lowByte]
    · simp only [lowByte_eq_FF_iff, h, if_false, false_and]
  unfold eaIndirect
  simp only [hAt]
  cases memRead s ptr with
  | error f => rfl
  | ok lo => cases memRead s (indirectHighAt ptr) <;> rfl

theorem eaIndirect_ok {s : State} {ptr : Word} {lo hi : Byte} (hlo : memRead s ptr = .ok lo)
    (hhi : memRead s (indirectHighAt ptr) = .ok hi) : eaIndirect s ptr = .ok (hi ++ lo) := by
  simp only [eaIndirect_eq, hlo, hhi, Except.bind, Except.map, wordOfBytes]

theorem eaIndirect_error {s : State} {ptr : Word} {f : FaultValue}
    (h : memRead s ptr = .error f ∨ (∃ lo, memRead s ptr = .ok lo) ∧ memRead s (indirectHighAt ptr) = .error f) :
    eaIndirect s ptr = .error f := by
  rcases h with hlo | ⟨⟨lo, hlo⟩, hhi⟩
  · simp only [eaIndirect_eq, hlo, Except.bind]
  · simp only [eaIndirect_eq, hlo, hhi, Except.bind, Except.map]

/-! ### JMP (`43_control_and_flag.md` R170) -/

theorem exec_jmpAbs (w : Word) (s : State) : exec (.jmpAbs w) s = .next (s.setPc w) := rfl

theorem exec_jmpInd (w : Word) (s : State) : exec (.jmpInd w) s = jumpTo (eaIndirect s w) s := rfl

/-- Settles O34: JMP Indirect is a jump to what its two pointer reads give, and the second of them is where the statement
says (`eaIndirect_eq`). -/
theorem jmpSetsPc : Obligations.JmpSetsPc := by
  intro s w
  refine ⟨exec_jmpAbs w s, ⟨rfl, rfl, rfl⟩, fun f hf => ?_, fun lo hi hlo hhi => ?_, ⟨rfl, rfl, rfl⟩⟩
  · show exec (.jmpInd w) s = raise f s
    rw [exec_jmpInd, eaIndirect_error hf]
    rfl
  · rw [exec_jmpInd, eaIndirect_ok hlo hhi]
    rfl

/-! ### BNE (`43_control_and_flag.md` R171) -/

/-- The branch target as integer arithmetic: PC plus the signed offset, modulo 65536 (R133). -/
theorem eaRelative_eq_ofInt (s : State) (offset : Byte) :
    eaRelative s offset = BitVec.ofInt 16 (s.pc.toNat + offset.toInt) := by
  rw [BitVec.ofInt_add, BitVec.ofInt_natCast, BitVec.ofNat_toNat, BitVec.setWidth_eq]
  rfl

theorem exec_bne_of_z {s : State} (h : s.flags.z = true) (offset : Byte) : exec (.bne offset) s = .next s :=
  congrArg Host.Outcome.next (if_pos h)

theorem exec_bne_of_not_z {s : State} (h : s.flags.z = false) (offset : Byte) :
    exec (.bne offset) s = .next (s.setPc (eaRelative s offset)) :=
  congrArg Host.Outcome.next (if_neg (by simp [h]))

/-- Settles O35, by the two values of Z and the target as integer arithmetic. -/
theorem bneBranchesOnZeroClear : Obligations.BneBranchesOnZeroClear := by
  refine fun s offset => ⟨fun hz => exec_bne_of_z hz offset, fun hz => ?_, ⟨rfl, rfl, rfl⟩⟩
  rw [exec_bne_of_not_z hz, eaRelative_eq_ofInt]
  rfl

/-! ### Z and N (R137) -/

/-- What a store writes is no register. -/
theorem destination_eq_none_of_storeAddress {s : State} {i : Instr} {ea : Except FaultValue Word}
    (h : storeAddress s i = some ea) : destination i = none := by
  cases i
  case staZp | staZpX | staAbs | staAbsX | staAbsY | staIndX | staIndY | staMode => rfl
  all_goals exact nomatch h

@[simp] theorem State.reg_loaded (s : State) (r : Reg) (v : Byte) : (s.loaded r v).reg r = v := by
  cases r <;> rfl

/-- Every load, increment and decrement ends as a load of some value into its destination: the register takes the value,
Z and N follow it, and nothing else moves. -/
theorem exec_next_of_destination {s t : State} {i : Instr} {r : Reg} (hd : destination i = some r)
    (h : exec i s = .next t) : ∃ v, t = s.loaded r v := by
  cases exec_effect h with
  | loaded q v hq =>
    obtain rfl := Option.some.inj (hq.symm.trans hd)
    exact ⟨v, rfl⟩
  | bumped q d hq =>
    obtain rfl := Option.some.inj (hq.symm.trans hd)
    exact ⟨s.reg q + d, rfl⟩
  | stored addr hs hw => exact nomatch hd.symm.trans (destination_eq_none_of_storeAddress hs)
  | sp _ hn _ => exact nomatch hd.symm.trans hn
  | pc v _ _ hn _ => exact nomatch hd.symm.trans hn
  | sei _ hn _ => exact nomatch hd.symm.trans hn

theorem Flags.setZN_z_iff (p : Flags) (v : Byte) : (p.setZN v).z = true ↔ v.toNat = 0 := by
  rw [Flags.setZN_z, beq_iff_eq, ← BitVec.toNat_inj]
  rfl

theorem Flags.setZN_n_iff (p : Flags) (v : Byte) : (p.setZN v).n = true ↔ 128 ≤ v.toNat := by
  have h : v.getLsbD 7 = v.msb := (BitVec.msb_eq_getLsbD_last v).symm
  rw [Flags.setZN_n, h, BitVec.msb_eq_decide, decide_eq_true_iff]

/-- Settles O38: whichever instruction it is, the state is one that loaded the register with a value and applied `SetZN` to
that value. -/
theorem zeroAndNegativeFollowTheRegister : Obligations.ZeroAndNegativeFollowTheRegister := by
  intro s t i r hd h
  obtain ⟨v, rfl⟩ := exec_next_of_destination hd h
  rw [State.reg_loaded, State.loaded_flags]
  exact ⟨Flags.setZN_z_iff s.flags v, Flags.setZN_n_iff s.flags v, rfl⟩

end Sys2Proof.Machine

/-! PROOFS. The register instructions (`42_register_ops.md`): INX, INY, DEX, DEY and TXS in the Implied mode. -/

namespace Sys2Proof.Machine

/-! ### Increment and decrement: adding 1 or 0xFF to a register (R160 to R163) -/

/-- What adding `d` to X writes: X, Z and N. -/
theorem State.bumped_x_eq (s : State) (d : Byte) :
    s.bumped .x d = { s with
      x := s.x + d, flags := { s.flags with z := s.x + d == 0, n := (s.x + d).getLsbD 7 } } := rfl

/-- What adding `d` to Y writes: Y, Z and N. -/
theorem State.bumped_y_eq (s : State) (d : Byte) :
    s.bumped .y d = { s with
      y := s.y + d, flags := { s.flags with z := s.y + d == 0, n := (s.y + d).getLsbD 7 } } := rfl

theorem exec_inx (s : State) : exec .inx s = .next (s.bumped .x 1) := rfl

theorem exec_iny (s : State) : exec .iny s = .next (s.bumped .y 1) := rfl

theorem exec_dex (s : State) : exec .dex s = .next (s.bumped .x (-1)) := rfl

theorem exec_dey (s : State) : exec .dey s = .next (s.bumped .y (-1)) := rfl

/-- The increment modulo 256: the carry out of bit 7 is discarded. -/
theorem byte_add_one_toNat (b : Byte) : (b + 1).toNat = (b.toNat + 1) % 256 := BitVec.toNat_add b 1

/-- The decrement modulo 256 is the addition of 0xFF: the borrow is discarded. -/
theorem byte_add_neg_one_toNat (b : Byte) : (b + -1).toNat = (b.toNat + 255) % 256 := BitVec.toNat_add b (-1)

/-- Settles O29: the register is X and the amount 1. -/
theorem inxIncrementsX : Obligations.InxIncrementsX := by
  refine fun s => ⟨⟨rfl, rfl, rfl⟩, s.x + 1, byte_add_one_toNat s.x, ?_⟩
  rw [exec_inx, State.bumped_x_eq]

/-- Settles O30: the register is Y and the amount 1. -/
theorem inyIncrementsY : Obligations.InyIncrementsY := by
  refine fun s => ⟨⟨rfl, rfl, rfl⟩, s.y + 1, byte_add_one_toNat s.y, ?_⟩
  rw [exec_iny, State.bumped_y_eq]

/-- Settles O31: the register is X and the amount -1, which is 0xFF as a byte. -/
theorem dexDecrementsX : Obligations.DexDecrementsX := by
  refine fun s => ⟨⟨rfl, rfl, rfl⟩, s.x + -1, byte_add_neg_one_toNat s.x, ?_⟩
  rw [exec_dex, State.bumped_x_eq]

/-- Settles O32: the register is Y and the amount -1, which is 0xFF as a byte. -/
theorem deyDecrementsY : Obligations.DeyDecrementsY := by
  refine fun s => ⟨⟨rfl, rfl, rfl⟩, s.y + -1, byte_add_neg_one_toNat s.y, ?_⟩
  rw [exec_dey, State.bumped_y_eq]

/-! ### TXS (R164) -/

theorem exec_txs (s : State) : exec .txs s = .next (s.setSp s.x) := rfl

/-- Settles O33: TXS is one write of SP, through which no flag passes. -/
theorem txsCopiesXToSp : Obligations.TxsCopiesXToSp :=
  fun s => ⟨exec_txs s, ⟨rfl, rfl, rfl⟩⟩

end Sys2Proof.Machine

/-! PROOFS. Control transfer and flags (`43_control_and_flag.md`): SEI in the Implied mode. -/

namespace Sys2Proof.Machine

/-! ### SEI (R172) -/

theorem exec_sei (s : State) : exec .sei s = .next (s.setFlags s.flags.setI) := rfl

/-- What setting the interrupt-disable flag writes: that flag, and no other field of the flags or of the state. -/
theorem State.setFlags_setI_eq (s : State) :
    s.setFlags s.flags.setI = { s with flags := { s.flags with i := true } } := rfl

/-- Settles O36: SEI is one write of the flags, in which only the interrupt-disable flag is new. -/
theorem seiSetsInterruptDisable : Obligations.SeiSetsInterruptDisable := by
  refine fun s => ⟨?_, ⟨rfl, rfl, rfl⟩⟩
  rw [exec_sei, State.setFlags_setI_eq]

end Sys2Proof.Machine

/-! PROOFS. The PPU register port (`44_ppu_register_port.md`): the ports that store a byte, sprite RAM's data port, and what
the control register selects. -/

namespace Sys2Proof.Machine

/-! ### A store to the port region runs the port (R180) -/

/-- STA Absolute in region 0x2000 is the port's write of A; the port's fault is the instruction's. -/
theorem exec_staAbs_ppuPort (s : State) {w : Word} (h : 0x2000 ≤ w.toNat) (h' : w.toNat < 0x4000) :
    exec (.staAbs w) s = orRaise (ppuWrite s.ppu w s.a) s fun q => .next (s.setPpu q) := by
  show orRaise (memWrite s w s.a) s (fun t => .next t) = _
  rw [memWrite_ppuPort h h']
  cases ppuWrite s.ppu w s.a <;> rfl

theorem exec_staAbs_of_ppuWrite {s : State} {w : Word} {q : Ppu} (h : 0x2000 ≤ w.toNat) (h' : w.toNat < 0x4000)
    (hq : ppuWrite s.ppu w s.a = .ok q) : exec (.staAbs w) s = .next (s.setPpu q) := by
  rw [exec_staAbs_ppuPort s h h', hq, orRaise_ok]

/-! ### Control, mask and sprite-RAM address (R181, R184, R185) -/

theorem ppuWrite_ctrl (p : Ppu) (v : Byte) : ppuWrite p 0x2000 v = .ok (p.setCtrl v) := rfl

theorem ppuWrite_mask (p : Ppu) (v : Byte) : ppuWrite p 0x2001 v = .ok (p.setMask v) := rfl

theorem ppuWrite_oamAddr (p : Ppu) (v : Byte) : ppuWrite p 0x2003 v = .ok (p.setOamaddr v) := rfl

/-- Settles O42: each of the three ports writes one register of the PPU. -/
theorem plainPortsStoreTheByte : Obligations.PlainPortsStoreTheByte := fun s =>
  ⟨exec_staAbs_of_ppuWrite (by decide) (by decide) (ppuWrite_ctrl s.ppu s.a),
    exec_staAbs_of_ppuWrite (by decide) (by decide) (ppuWrite_mask s.ppu s.a),
    exec_staAbs_of_ppuWrite (by decide) (by decide) (ppuWrite_oamAddr s.ppu s.a)⟩

/-! ### Sprite RAM's data port (R186) -/

/-- The port cannot fault: a byte never points past the 256 cells of sprite RAM (`writeOamData_eq`). -/
theorem ppuWrite_oamData (p : Ppu) (v : Byte) :
    ppuWrite p 0x2004 v = .ok ((p.setOam (Cells.write p.oam p.oamaddr.toNat v)).setOamaddr (p.oamaddr + 1)) :=
  writeOamData_eq p v

/-- Settles O45: the next address is the byte sum with 1, which wraps at 256. -/
theorem oamDataPortWritesAndIncrements : Obligations.OamDataPortWritesAndIncrements := fun s =>
  ⟨s.ppu.oamaddr + 1, byte_add_one_toNat s.ppu.oamaddr,
    exec_staAbs_of_ppuWrite (by decide) (by decide) (ppuWrite_oamData s.ppu s.a)⟩

/-! ### What the control register selects (R182, R183) -/

/-- Bit `k` of a byte as arithmetic on its value. -/
theorem byte_getLsbD_iff (b : Byte) (k : Nat) : b.getLsbD k = true ↔ b.toNat / 2 ^ k % 2 = 1 := by
  rw [← BitVec.testBit_toNat, Nat.testBit_eq_decide_div_mod_eq, decide_eq_true_iff]

/-- Settles O44: the bit tested for the increment is bit 2, and for the pattern table bit 4. -/
theorem controlSelectsIncrementAndBase : Obligations.ControlSelectsIncrementAndBase := by
  intro p
  constructor
  · simp only [Ppu.increment, byte_getLsbD_iff, Nat.reducePow]
  · simp only [Ppu.bgBase, byte_getLsbD_iff, Nat.reducePow]

end Sys2Proof.Machine

/-! PROOFS. The PPU's render pipeline (`45_ppu_render_pipeline.md`): a band without a character bank. -/

namespace Sys2Proof.Machine

variable {s : State}

/-! ### The storage primitive below and above its capacity (`20_memory.md` R62) -/

theorem storeRead_of_lt {cap i : Nat} (h : i < cap) (dev : Device) (m : Memory) :
    storeRead dev cap m i = .ok (Cells.read m i) := if_pos h

theorem storeRead_of_le {cap i : Nat} (h : cap ≤ i) (dev : Device) (m : Memory) :
    storeRead dev cap m i = .error (.storageOutOfRange dev i) := if_neg (by omega)

/-! ### A tile without a character bank (R218 to R223) -/

/-- Without a character bank character ROM has no byte. -/
theorem chrRead_of_no_bank (h : s.cart.chrBanks = 0) (i : Nat) : chrRead s i = .error (.storageOutOfRange .chr i) :=
  storeRead_of_le (by simp [capacity, h]) .chr s.cart.chr

/-- The first of the sixteen reads is plane 0 of pixel row 0, at the pattern's base. -/
theorem pixelMatrix_of_no_bank (h : s.cart.chrBanks = 0) (pidx : Byte) :
    pixelMatrix s pidx = .error (.storageOutOfRange .chr (patternBase s.ppu pidx)) := by
  have hrow : pixelRowAt s (patternBase s.ppu pidx) 0 = .error (.storageOutOfRange .chr (patternBase s.ppu pidx)) := by
    unfold pixelRowAt
    rw [Nat.add_zero, chrRead_of_no_bank h]
  unfold pixelMatrix
  rw [hrow]
  rfl

/-- The fault of building tile `(col, row)` without a character bank: that of its pattern index, else of its attribute
byte, where `NT_OFFSET` takes that past video RAM (R220, R221), else that of its first pattern byte (R223). -/
def State.tileFaultWithoutChr (s : State) (col row : Nat) : FaultValue :=
  if 0x0800 ≤ s.patternIndexAt col row then .storageOutOfRange .vram (s.patternIndexAt col row)
  else if 0x0800 ≤ s.attributeByteAt col row then .storageOutOfRange .vram (s.attributeByteAt col row)
  else .storageOutOfRange .chr ((Cells.read s.ppu.vram (s.patternIndexAt col row)).toNat * 16 + s.ppu.bgBase)

theorem buildTile_of_no_bank (h : s.cart.chrBanks = 0) (col : Fin 32) (row : Fin 30) :
    buildTile s col row s.params.ntOffset = .error (s.tileFaultWithoutChr col row) := by
  have hp : nametableIndex col row s.params.ntOffset = s.patternIndexAt col row := rfl
  have ha : attributeIndex col row s.params.ntOffset = s.attributeByteAt col row := rfl
  unfold buildTile State.tileFaultWithoutChr
  rw [hp, ha]
  split
  · next hout => rw [storeRead_of_le hout]; rfl
  · next hin =>
    rw [storeRead_of_lt (Nat.lt_of_not_le hin)]
    split
    · next hout => rw [storeRead_of_le hout]; rfl
    · next hin' =>
      rw [storeRead_of_lt (Nat.lt_of_not_le hin')]
      simp only [bind, Except.bind, pixelMatrix_of_no_bank h, patternBase]

/-! ### The band (R216, R229) -/

/-- A band whose first tile faults takes that fault, with no tile appended. -/
theorem buildBand_of_first_fault {row : Fin 30} {f : FaultValue}
    (h : buildTile s 0 row s.params.ntOffset = .error f) : buildBand row s = raise f s := by
  unfold buildBand bandColumns
  rw [List.finRange_succ, appendTiles, h, orRaise_error]

theorem buildBand_of_no_bank (h : s.cart.chrBanks = 0) (row : Fin 30) :
    buildBand row s = raise (s.tileFaultWithoutChr 0 row) s :=
  buildBand_of_first_fault (buildTile_of_no_bank h 0 row)

/-- Settles O56: the wrap is the building of the band with the counters moved (`advance_band`), and without a character bank
that faults at column 0 (`buildBand_of_no_bank`); what that tile reads does not depend on the counters. -/
theorem bandWithoutCharacterRomFaults : Obligations.BandWithoutCharacterRomFaults := by
  intro s n hchr hwrap hband h8
  refine ⟨s.tileFaultWithoutChr 0 s.bandRow, rfl, ?_⟩
  rw [advance_band hwrap hband h8, buildBand_of_no_bank]
  · rfl
  · exact hchr

end Sys2Proof.Machine

/-! PROOFS. `reset()` (`70_reset_and_hazards.md`): with a program bank the two reads of the reset vector cannot fault. -/

namespace Sys2Proof.Machine

variable {s : State}

/-- With a program bank every address from 0x8000 on is readable: each masked index lies in the ROM (R62, R64, R70). -/
theorem memRead_programRom_of_bank (h : 1 ≤ s.cart.prgBanks) {a : Word} (ha : 0x8000 ≤ a.toNat) :
    memRead s a = .ok (Cells.read s.cart.prg (prgIndex s a)) := by
  rw [memRead_programRom ha, storeRead_of_lt (prgIndex_lt h a)]

/-- A word's read is two byte reads, the low byte first (R11, R75). -/
theorem memReadWord_ok {a : Word} {lo hi : Byte} (hlo : memRead s a = .ok lo) (hhi : memRead s (a + 1) = .ok hi) :
    memReadWord s a = .ok (wordOfBytes lo hi) := by
  unfold memReadWord
  rw [hlo, hhi]

/-- `reset()` succeeds when both bytes of the vector are readable (R270). -/
theorem cpuReset_of_vector {lo hi : Byte} (hlo : memRead s 0xFFFC = .ok lo) (hhi : memRead s 0xFFFD = .ok hi) :
    cpuReset s = .next (s.cpuResetTo (wordOfBytes lo hi)) := by
  unfold cpuReset
  rw [memReadWord_ok hlo hhi, orRaise_ok]

/-- Settles O5: both bytes of the vector lie in program ROM (`memRead_programRom_of_bank`), and `State.cpuResetTo` writes the
CPU's registers and nothing else. -/
theorem resetOperationLeavesTheResetState : Obligations.ResetOperationLeavesTheResetState := by
  intro s hbank
  have hlo := memRead_programRom_of_bank hbank (a := 0xFFFC) (by decide)
  have hhi := memRead_programRom_of_bank hbank (a := 0xFFFD) (by decide)
  exact ⟨_, _, hlo, hhi, cpuReset_of_vector hlo hhi⟩

end Sys2Proof.Machine

/-! PROOFS. Encoding and decoding (`30_encoding.md`): what the table's lookup finds, what `build` makes of an entry, and the two
directions of the round trip. -/

namespace Sys2Proof

/-! ### Lookup: the first entry of an opcode (`40_fetch_decode_dispatch.md` R122) -/

theorem lookup_eq_some {t : Table} {op : Byte} {e : Entry} (h : lookup t op = some e) : e ∈ t ∧ e.opcode = op :=
  ⟨List.mem_of_find?_eq_some h, by simpa using List.find?_some h⟩

/-- In a table without duplicates an entry is what its opcode finds (`10_state.md` R29). -/
theorem lookup_of_mem {t : Table} {e : Entry} (ht : tableWf t = true) (he : e ∈ t) : lookup t e.opcode = some e := by
  induction t with
  | nil => exact nomatch he
  | cons d t ih =>
    obtain ⟨hd, ht⟩ := Bool.and_eq_true_iff.mp ht
    rcases List.mem_cons.mp he with rfl | he
    · exact List.find?_cons_of_pos (beq_self_eq_true _)
    · have hne : e.opcode ≠ d.opcode := by simpa using List.all_eq_true.mp hd e he
      rw [lookup, List.find?_cons_of_neg (by simpa using hne.symm)]
      exact ih ht he

/-- An opcode has no entry if no entry has it. -/
theorem lookup_eq_none_iff (t : Table) (op : Byte) : lookup t op = none ↔ op ∉ t.map Entry.opcode := by
  simp [lookup]

/-! ### Decoding: the opcode's entry and its operand bytes -/

/-- Bytes that begin with the opcode of an entry and as many operand bytes as its mode has decode to what it builds. -/
theorem decode_of_lookup {t : Table} {e : Entry} {ops : List Byte} (rest : List Byte)
    (h : lookup t e.opcode = some e) (hlen : ops.length = e.mode.format.operandBytes) :
    decode t (e.opcode :: ops ++ rest) = .ok (e.build (ops.getD 0 0) (ops.getD 1 0), rest) := by
  rw [List.cons_append, decode, h]
  dsimp only
  cases hf : e.mode.format <;> rw [hf] at hlen
  · obtain rfl := List.length_eq_zero_iff.mp hlen
    rfl
  · obtain ⟨b, rfl⟩ := List.length_eq_one_iff.mp hlen
    rfl
  · obtain ⟨lo, hi, rfl⟩ := List.length_eq_two.mp hlen
    rfl

/-- Bytes that decode are an opcode with an entry, its operand bytes and the rest. -/
theorem decode_ok {t : Table} {bytes rest : List Byte} {i : Instr} (h : decode t bytes = .ok (i, rest)) :
    ∃ (e : Entry) (ops : List Byte), bytes = e.opcode :: ops ++ rest ∧ lookup t e.opcode = some e ∧
      ops.length = e.mode.format.operandBytes ∧ i = e.build (ops.getD 0 0) (ops.getD 1 0) := by
  match bytes with
  | [] => exact nomatch h
  | op :: tail =>
    rw [decode] at h
    split at h
    · exact nomatch h
    next e he =>
      obtain ⟨-, rfl⟩ := lookup_eq_some he
      split at h <;> cases h <;> rename_i hf
      · exact ⟨e, [], rfl, he, by rw [hf]; rfl, rfl⟩
      · exact ⟨e, [_], rfl, he, by rw [hf]; rfl, rfl⟩
      · exact ⟨e, [_, _], rfl, he, by rw [hf]; rfl, rfl⟩

/-! ### What `build` makes: an instruction of the handler, the mode and the operand bytes given -/

theorem build_mnemonic (h : Mnemonic) (m : Mode) (lo hi : Byte) : (build h m lo hi).mnemonic = h := by
  cases h <;> cases m <;> rfl

theorem build_mode (h : Mnemonic) (m : Mode) (lo hi : Byte) : (build h m lo hi).mode = m := by
  cases h <;> cases m <;> rfl

/-- The operand of a handler outside the default pairs fits its mode: an unread one is 0, and a byte is below 256. -/
theorem operandFits_operandOf (m : Mode) (lo hi : Byte) : m.operandFits (operandOf m lo hi) = true := by
  have byte : decide ((lo.setWidth 16 : Word).toNat < 256) = true := by
    have := lo.isLt
    rw [decide_eq_true_iff, BitVec.toNat_setWidth]
    omega
  cases m
  case implied | accumulator | immediate | absolute | absoluteX | absoluteY | indirect => rfl
  all_goals exact byte

/-- Either the pair is a default one, whose constructor is well formed, or it is not, and the operand fits. -/
theorem build_wf (h : Mnemonic) (m : Mode) (lo hi : Byte) : (build h m lo hi).wf = true := by
  have fits := operandFits_operandOf m lo hi
  cases h <;> cases m <;> first | rfl | exact fits

theorem wordOperand_wordOfBytes (lo hi : Byte) : wordOperand (wordOfBytes lo hi) = [lo, hi] := by
  rw [wordOperand, lowByte_wordOfBytes, highByte_wordOfBytes]

theorem lowByte_setWidth (b : Byte) : lowByte (b.setWidth 16) = b := by
  apply BitVec.eq_of_toNat_eq
  have := b.isLt
  rw [lowByte_toNat, BitVec.toNat_setWidth]
  omega

/-- Outside Immediate the operand's bytes are the bytes it was made from. -/
theorem operandBytes_operandOf {m : Mode} (hm : m ≠ .immediate) (lo hi : Byte) :
    m.operandBytes (operandOf m lo hi) = [lo, hi].take m.format.operandBytes := by
  cases m
  case implied | accumulator => rfl
  case immediate => exact absurd rfl hm
  case absolute | absoluteX | absoluteY | indirect => exact wordOperand_wordOfBytes lo hi
  all_goals exact congrArg (fun b => [b]) (lowByte_setWidth lo)

/-- The operand bytes of what `build` makes are those it was given, but for an Immediate byte that nothing reads. -/
theorem build_operandBytes {h : Mnemonic} {m : Mode} (hr : readsOperand h m = true) (lo hi : Byte) :
    (build h m lo hi).operandBytes = [lo, hi].take m.format.operandBytes := by
  have word := wordOperand_wordOfBytes lo hi
  by_cases hm : m = .immediate
  · subst hm
    cases h
    case lda | ldx | ldy => rfl
    all_goals exact nomatch hr
  · have other := operandBytes_operandOf hm lo hi
    cases h <;> cases m <;> first | rfl | exact word | exact other

/-- An operand byte that nothing reads makes no difference. -/
theorem build_of_not_readsOperand {h : Mnemonic} {m : Mode} (hr : readsOperand h m = false) (lo hi : Byte) :
    build h m lo hi = build h m 0 0 := by
  obtain ⟨hm, hl⟩ : m = .immediate ∧ h.loads = false := by simpa [readsOperand] using hr
  subst hm
  cases h
  case lda | ldx | ldy => exact nomatch hl
  all_goals rfl

theorem take_getD (ops : List Byte) (h : ops.length ≤ 2) : [ops.getD 0 0, ops.getD 1 0].take ops.length = ops := by
  match ops, h with
  | [], _ => rfl
  | [_], _ => rfl
  | [_, _], _ => rfl

theorem Format.operandBytes_le (f : Format) : f.operandBytes ≤ 2 := by cases f <;> decide

/-! ### The round trip -/

/-- Every instruction is what its mnemonic, its mode and its operand bytes build. -/
theorem tableRow : ∀ i : Instr, Laws.TableRow.Statement i
  | .ldaImm v => Laws.TableRow.ldaImm v
  | .ldaZp b => Laws.TableRow.ldaZp b
  | .ldaZpX b => Laws.TableRow.ldaZpX b
  | .ldaAbs w => Laws.TableRow.ldaAbs w
  | .ldaAbsX w => Laws.TableRow.ldaAbsX w
  | .ldaAbsY w => Laws.TableRow.ldaAbsY w
  | .ldaIndX b => Laws.TableRow.ldaIndX b
  | .ldaIndY b => Laws.TableRow.ldaIndY b
  | .ldxImm v => Laws.TableRow.ldxImm v
  | .ldxZp b => Laws.TableRow.ldxZp b
  | .ldxZpY b => Laws.TableRow.ldxZpY b
  | .ldxAbs w => Laws.TableRow.ldxAbs w
  | .ldxAbsY w => Laws.TableRow.ldxAbsY w
  | .ldyImm v => Laws.TableRow.ldyImm v
  | .ldyZp b => Laws.TableRow.ldyZp b
  | .ldyZpX b => Laws.TableRow.ldyZpX b
  | .ldyAbs w => Laws.TableRow.ldyAbs w
  | .ldyAbsX w => Laws.TableRow.ldyAbsX w
  | .staZp b => Laws.TableRow.staZp b
  | .staZpX b => Laws.TableRow.staZpX b
  | .staAbs w => Laws.TableRow.staAbs w
  | .staAbsX w => Laws.TableRow.staAbsX w
  | .staAbsY w => Laws.TableRow.staAbsY w
  | .staIndX b => Laws.TableRow.staIndX b
  | .staIndY b => Laws.TableRow.staIndY b
  | .inx => Laws.TableRow.inx
  | .iny => Laws.TableRow.iny
  | .dex => Laws.TableRow.dex
  | .dey => Laws.TableRow.dey
  | .txs => Laws.TableRow.txs
  | .jmpAbs w => Laws.TableRow.jmpAbs w
  | .jmpInd w => Laws.TableRow.jmpInd w
  | .bne offset => Laws.TableRow.bne offset
  | .sei => Laws.TableRow.sei
  | .ldaMode m w => Laws.TableRow.ldaMode m w
  | .ldxMode m w => Laws.TableRow.ldxMode m w
  | .ldyMode m w => Laws.TableRow.ldyMode m w
  | .staMode m w => Laws.TableRow.staMode m w
  | .inxMode m w => Laws.TableRow.inxMode m w
  | .inyMode m w => Laws.TableRow.inyMode m w
  | .dexMode m w => Laws.TableRow.dexMode m w
  | .deyMode m w => Laws.TableRow.deyMode m w
  | .txsMode m w => Laws.TableRow.txsMode m w
  | .jmpMode m w => Laws.TableRow.jmpMode m w
  | .bneMode m w => Laws.TableRow.bneMode m w
  | .seiMode m w => Laws.TableRow.seiMode m w

/-- An encoding is the opcode of an entry with the instruction's mnemonic and mode, and the instruction's operand bytes. -/
theorem encode_eq_some {t : Table} {i : Instr} {bytes : List Byte} (h : encode t i = some bytes) :
    ∃ e ∈ t, e.mnemonic = i.mnemonic ∧ e.mode = i.mode ∧ bytes = e.opcode :: i.operandBytes := by
  obtain ⟨e, he, rfl⟩ := Option.map_eq_some_iff.mp h
  have hp := List.find?_some he
  simp only [Bool.and_eq_true, beq_iff_eq] at hp
  exact ⟨e, List.mem_of_find?_eq_some he, hp.1, hp.2, rfl⟩

theorem encode_of_mem {t : Table} {i : Instr} (h : ∃ e ∈ t, e.mnemonic = i.mnemonic ∧ e.mode = i.mode) :
    ∃ bytes, encode t i = some bytes := by
  obtain ⟨e, he, hn, hm⟩ := h
  cases hf : t.find? (fun e => e.mnemonic == i.mnemonic && e.mode == i.mode) with
  | none => exact absurd (List.find?_eq_none.mp hf e he) (by simp [hn, hm])
  | some d => exact ⟨d.opcode :: i.operandBytes, by rw [encode, hf]; rfl⟩

/-- Settles O1: the entry the encoder takes is the one its opcode finds (`lookup_of_mem`), and it builds the instruction back
from the operand bytes (`tableRow`). -/
theorem encodeThenDecodeGivesTheInstruction : Obligations.EncodeThenDecodeGivesTheInstruction := by
  refine ⟨fun t i bytes rest ht hi he => ?_, fun t i => encode_of_mem⟩
  obtain ⟨e, hmem, hn, hm, rfl⟩ := encode_eq_some he
  obtain ⟨hb, hlen, -⟩ := tableRow i hi
  rw [decode_of_lookup rest (lookup_of_mem ht hmem) (by rw [hm]; exact hlen), Entry.build, hn, hm]
  exact congrArg (fun j => Except.ok (j, rest)) hb

/-- An entry builds a well-formed instruction of its own mnemonic and mode, whose operand bytes are those given if the handler
reads them. -/
theorem Entry.build_operandBytes {e : Entry} {ops : List Byte} (hlen : ops.length = e.mode.format.operandBytes)
    (hr : readsOperand e.mnemonic e.mode = true) : (e.build (ops.getD 0 0) (ops.getD 1 0)).operandBytes = ops := by
  have hle : ops.length ≤ 2 := hlen ▸ Format.operandBytes_le _
  rw [Entry.build, Sys2Proof.build_operandBytes hr, ← hlen, take_getD ops hle]

/-- In the default table every handler reads its operand, and an entry is the first of its mnemonic and mode. -/
theorem instrTable_entry : ∀ e ∈ instrTable, readsOperand e.mnemonic e.mode = true ∧
    instrTable.find? (fun d => d.mnemonic == e.mnemonic && d.mode == e.mode) = some e := by
  decide

/-- Settles O2: decoding is the opcode's entry applied to the operand bytes (`decode_ok`); in the default table the encoder
finds that same entry again (`instrTable_entry`). -/
theorem decodedBytesAreTheEncoding : Obligations.DecodedBytesAreTheEncoding := by
  refine ⟨fun t bytes rest i h => ?_, fun bytes rest i h => ?_⟩
  · obtain ⟨e, ops, rfl, hl, hlen, rfl⟩ := decode_ok h
    exact ⟨build_wf _ _ _ _, e, ops, rfl, hl, (build_mnemonic _ _ _ _).symm, (build_mode _ _ _ _).symm, hlen,
      fun hr => (Entry.build_operandBytes hlen hr).symm⟩
  · obtain ⟨e, ops, rfl, hl, hlen, rfl⟩ := decode_ok h
    obtain ⟨hr, hfind⟩ := instrTable_entry e (lookup_eq_some hl).1
    refine ⟨e.opcode :: ops, ?_, rfl⟩
    rw [encode, Entry.build_operandBytes hlen hr, Entry.build, build_mnemonic, build_mode, hfind]
    rfl

/-- Settles O3: each word is decoded by running the decoder. -/
theorem sampleWordsDecode : Obligations.SampleWordsDecode :=
  ⟨rfl, rfl, rfl, rfl, rfl, rfl, rfl, rfl, rfl, rfl, rfl, rfl, rfl⟩

/-- Settles O4: the table is written out row by row. -/
theorem opcodeMapRows : Obligations.OpcodeMapRows := rfl

end Sys2Proof

/-! PROOFS. The address bus (`20_memory.md`): both sides of the routing table by address, and work RAM read after a write. -/

namespace Sys2Proof.Machine

variable {s t : State} {addr : Word}

/-! ### Reads (R64, R69, R70) -/

theorem ramIndex_of_mirror (h : s.params.ramMirror = true) (a : Word) : ramIndex s a = a.toNat % 0x0800 := by
  rw [ramIndex_eq, if_pos h]

theorem ramIndex_of_not_mirror (h : s.params.ramMirror = false) (a : Word) : ramIndex s a = a.toNat := by
  rw [ramIndex_eq, if_neg (by simp [h])]

/-- With `RAM_MIRROR` a read below 0x2000 reads the image in work RAM. -/
theorem memRead_mirrored (h : addr.toNat < 0x2000) (hm : s.params.ramMirror = true) :
    memRead s addr = .ok (Cells.read s.ram (addr.toNat % 0x0800)) := by
  rw [memRead_workRam h, ramIndex_of_mirror hm]
  exact storeRead_of_lt (Nat.mod_lt _ (by omega)) .ram s.ram

/-- Without it a read from 0x0800 to 0x1FFF is past work RAM. -/
theorem memRead_past_ram (h : 0x0800 ≤ addr.toNat) (h' : addr.toNat < 0x2000) (hm : s.params.ramMirror = false) :
    memRead s addr = .error (.storageOutOfRange .ram addr.toNat) := by
  rw [memRead_workRam h', ramIndex_of_not_mirror hm]
  exact storeRead_of_le h .ram s.ram

theorem prgIndex_one_bank (h : s.cart.prgBanks = 1) (a : Word) : prgIndex s a = a.toNat % 0x4000 := by
  rw [prgIndex_eq, if_pos h]

/-- From 0x8000 on every other bank count gives the offset in the upper half of the address space. -/
theorem prgIndex_other_banks (h : s.cart.prgBanks ≠ 1) (ha : 0x8000 ≤ addr.toNat) :
    prgIndex s addr = addr.toNat - 0x8000 := by
  have := addr.isLt
  rw [prgIndex_eq, if_neg h]
  omega

theorem memRead_no_bank (h : s.cart.prgBanks = 0) (ha : 0x8000 ≤ addr.toNat) :
    memRead s addr = .error (.storageOutOfRange .prg (addr.toNat - 0x8000)) := by
  rw [memRead_programRom ha, prgIndex_other_banks (by omega) ha]
  exact storeRead_of_le (by simp [capacity, h]) .prg s.cart.prg

/-- Settles O21, one lemma a row of the routing table. -/
theorem busReadRouting : Obligations.BusReadRouting := by
  refine fun s addr => ⟨memRead_low, fun _ h' hm => memRead_mirrored h' hm, memRead_past_ram, memRead_unmapped,
    fun ha h0 => memRead_no_bank h0 ha, fun ha h1 => ?_, fun ha h2 => ?_⟩
  · rw [memRead_programRom_of_bank (by omega) ha, prgIndex_one_bank h1]
  · rw [memRead_programRom_of_bank (by omega) ha, prgIndex_other_banks (by omega) ha]

/-- With one bank the two halves of program ROM are images of it: the mask drops the bit that tells them apart. -/
theorem memRead_second_half (h1 : s.cart.prgBanks = 1) (ha : 0x8000 ≤ addr.toNat) (hc : addr.toNat < 0xC000) :
    memRead s (addr + 0x4000) = memRead s addr := by
  have hsum : (addr + 0x4000).toNat = addr.toNat + 0x4000 := by
    rw [BitVec.toNat_add]
    show (addr.toNat + 0x4000) % 65536 = _
    omega
  rw [memRead_programRom_of_bank (by omega) (by omega), memRead_programRom_of_bank (by omega) ha,
    prgIndex_one_bank h1, prgIndex_one_bank h1, hsum, Nat.add_mod_right]

/-- Settles O23: with a bank every masked index lies in the ROM (`memRead_programRom_of_bank`). -/
theorem programRomReadsNeverFault : Obligations.ProgramRomReadsNeverFault :=
  fun _ _ ha hb => ⟨⟨_, memRead_programRom_of_bank hb ha⟩, fun h1 hc => memRead_second_half h1 ha hc⟩

/-! ### Writes (R65 to R71) -/

theorem storeWrite_of_lt {cap i : Nat} (h : i < cap) (dev : Device) (m : Memory) (v : Byte) :
    storeWrite dev cap m i v = .ok (Cells.write m i v) := if_pos h

theorem storeWrite_of_le {cap i : Nat} (h : cap ≤ i) (dev : Device) (m : Memory) (v : Byte) :
    storeWrite dev cap m i v = .error (.storageOutOfRange dev i) := if_neg (by omega)

/-- A write below 0x2000 whose index is in work RAM stores there. -/
theorem memWrite_ram (h : addr.toNat < 0x2000) (hi : ramIndex s addr < 0x0800) (v : Byte) :
    memWrite s addr v = .ok (s.setRam (Cells.write s.ram (ramIndex s addr) v)) := by
  rw [memWrite_workRam h, storeWrite_of_lt hi]
  rfl

/-- A write below 0x0800 stores in work RAM whatever `RAM_MIRROR` is. -/
theorem memWrite_low (h : addr.toNat < 0x0800) (v : Byte) :
    memWrite s addr v = .ok (s.setRam (Cells.write s.ram addr.toNat v)) := by
  have hi : ramIndex s addr = addr.toNat := by rw [ramIndex_eq, Nat.mod_eq_of_lt h, ite_self]
  rw [memWrite_ram (by omega) (by omega), hi]

theorem memWrite_mirrored (h : addr.toNat < 0x2000) (hm : s.params.ramMirror = true) (v : Byte) :
    memWrite s addr v = .ok (s.setRam (Cells.write s.ram (addr.toNat % 0x0800) v)) := by
  rw [← ramIndex_of_mirror hm]
  refine memWrite_ram h ?_ v
  rw [ramIndex_of_mirror hm]
  exact Nat.mod_lt _ (by omega)

theorem memWrite_past_ram (h : 0x0800 ≤ addr.toNat) (h' : addr.toNat < 0x2000) (hm : s.params.ramMirror = false)
    (v : Byte) : memWrite s addr v = .error (.storageOutOfRange .ram addr.toNat) := by
  rw [memWrite_workRam h', ramIndex_of_not_mirror hm, storeWrite_of_le h]
  rfl

/-- Settles O22, one lemma a row of the routing table. -/
theorem busWriteRouting : Obligations.BusWriteRouting :=
  fun _ _ v => ⟨fun h => memWrite_low h v, fun _ h' hm => memWrite_mirrored h' hm v,
    fun h h' hm => memWrite_past_ram h h' hm v, fun h h' => memWrite_ppuPort h h', memWrite_sink⟩

/-! ### A read after a write to work RAM (R77, R79) -/

/-- A write below 0x2000 that goes through stored one cell of work RAM. -/
theorem memWrite_ram_ok {v : Byte} (h : addr.toNat < 0x2000) (hw : memWrite s addr v = .ok t) :
    ramIndex s addr < 0x0800 ∧ t = s.setRam (Cells.write s.ram (ramIndex s addr) v) := by
  rw [memWrite_workRam h] at hw
  cases hs : storeWrite .ram 0x0800 s.ram (ramIndex s addr) v with
  | error f => rw [hs] at hw; exact nomatch hw
  | ok m =>
    obtain ⟨hi, rfl⟩ := storeWrite_ok_iff.mp hs
    rw [hs] at hw
    exact ⟨hi, (Except.ok.inj hw).symm⟩

/-- Work RAM written in one cell reads as before at every address that is no image of the cell. -/
theorem memRead_setRam_write_other {other : Word} {k : Nat} (v : Byte)
    (h : ¬ (other.toNat < 0x2000 ∧ ramIndex s other = k)) :
    memRead (s.setRam (Cells.write s.ram k v)) other = memRead s other := by
  by_cases hr : other.toNat < 0x2000
  · have hne : ramIndex s other ≠ k := fun he => h ⟨hr, he⟩
    rw [memRead_workRam hr, memRead_workRam hr]
    show storeRead .ram 0x0800 (Cells.write s.ram k v) (ramIndex s other) = _
    simp only [storeRead, Cells.read_write_other v hne]
  · by_cases hp : other.toNat < 0x8000
    · rw [memRead_unmapped (by omega) hp, memRead_unmapped (by omega) hp]
    · rw [memRead_programRom (by omega), memRead_programRom (by omega)]
      rfl

/-- Settles O24: the write stored the cell of the address's index, and reads find cells by the same index. -/
theorem workRamReadAfterWrite : Obligations.WorkRamReadAfterWrite := by
  intro s t addr v hwf haddr hw
  obtain ⟨hi, rfl⟩ := memWrite_ram_ok haddr hw
  refine ⟨?_, fun other h => memRead_setRam_write_other v h⟩
  rw [memRead_workRam haddr]
  show storeRead .ram 0x0800 (Cells.write s.ram (ramIndex s addr) v) (ramIndex s addr) = _
  rw [storeRead_of_lt hi, Cells.read_write_same _ v hwf]

end Sys2Proof.Machine

/-! PROOFS. The fetch and the step (`40_fetch_decode_dispatch.md`): the fetch case by case, and how a step ends. -/

namespace Sys2Proof.Machine

variable {s t : State} {e : Entry} {op : Byte} {f : FaultValue}

/-! ### The fetch, one lemma an outcome (R121, R122, R126 to R136) -/

theorem fetch_of_opcode_fault (h : memRead s s.pc = .error f) : fetch s = .error (raised f s) := by
  rw [fetch, h]

theorem fetch_of_illegal (hop : memRead s s.pc = .ok op) (hl : lookup s.params.table op = none) :
    fetch s = .error (raised (.illegalOpcode op s.pc) (s.setPc (s.pc + 1))) := by
  simp only [fetch, hop, hl]

section
variable (hop : memRead s s.pc = .ok op) (hl : lookup s.params.table op = some e)
include hop hl

theorem fetch_no_operand (hf : e.mode.format = .f1) : fetch s = .ok (e.build 0 0, e.cycles, s.setPc (s.pc + 1)) := by
  simp only [fetch, hop, hl, hf]

theorem fetch_byte_operand (hf : e.mode.format = .f2) (hr : readsOperand e.mnemonic e.mode = true) {b : Byte}
    (hb : memRead s (s.pc + 1) = .ok b) : fetch s = .ok (e.build b 0, e.cycles, s.setPc (s.pc + 2)) := by
  simp only [fetch, hop, hl, hf, hr, hb, if_true]

theorem fetch_byte_operand_fault (hf : e.mode.format = .f2) (hr : readsOperand e.mnemonic e.mode = true)
    (hb : memRead s (s.pc + 1) = .error f) :
    fetch s = .error (raised f (s.setPc (pcAtOperandFault e.mode (s.pc + 1)))) := by
  simp only [fetch, hop, hl, hf, hr, hb, if_true]

theorem fetch_unread_operand (hf : e.mode.format = .f2) (hr : readsOperand e.mnemonic e.mode = false) :
    fetch s = .ok (e.build 0 0, e.cycles, s.setPc (s.pc + 2)) := by
  simp [fetch, hop, hl, hf, hr]

theorem fetch_word_operand (hf : e.mode.format = .f3) {lo hi : Byte} (hlo : memRead s (s.pc + 1) = .ok lo)
    (hhi : memRead s (s.pc + 2) = .ok hi) : fetch s = .ok (e.build lo hi, e.cycles, s.setPc (s.pc + 3)) := by
  simp only [fetch, hop, hl, hf, hlo, hhi]

theorem fetch_low_operand_fault (hf : e.mode.format = .f3) (hlo : memRead s (s.pc + 1) = .error f) :
    fetch s = .error (raised f (s.setPc (s.pc + 1))) := by
  simp only [fetch, hop, hl, hf, hlo]

theorem fetch_high_operand_fault (hf : e.mode.format = .f3) {lo : Byte} (hlo : memRead s (s.pc + 1) = .ok lo)
    (hhi : memRead s (s.pc + 2) = .error f) : fetch s = .error (raised f (s.setPc (s.pc + 1))) := by
  simp only [fetch, hop, hl, hf, hlo, hhi]

end

/-! ### How a step ends (`70_reset_and_hazards.md` R277, `60_exceptions.md` R248) -/

theorem step_of_halted (h : s.halted = some f) : step s = .fault (.stuck f) := by
  rw [step, h]

theorem step_of_running (h : s.halted = none) : step s = andThen (cpuStep s) fun r => advance r.2 r.1 := by
  rw [step, h]

theorem step_of_fetch_error {r : Fault} (h : s.halted = none) (hf : fetch s = .error r) : step s = .fault r := by
  rw [step_of_running h, cpuStep, hf]
  rfl

/-- After a fetch the step is the instruction, then `advance` by the entry's cycles. -/
theorem step_of_fetch_ok {i : Instr} {n : Nat} {u : State} (h : s.halted = none) (hf : fetch s = .ok (i, n, u)) :
    step s = andThen (exec i u) (advance n) := by
  rw [step_of_running h, cpuStep, hf]
  dsimp only
  cases exec i u <;> rfl

/-- The fetch of the bytes at PC gives the instruction they decode to, whether or not its operand is read, and leaves PC past
them. -/
theorem fetch_of_bytesAt {ops : List Byte} (hb : BytesAt s s.pc (e.opcode :: ops))
    (hl : lookup s.params.table e.opcode = some e) (hlen : ops.length = e.mode.format.operandBytes) :
    fetch s = .ok (e.build (ops.getD 0 0) (ops.getD 1 0), e.cycles,
      s.setPc (s.pc + BitVec.ofNat 16 (e.opcode :: ops).length)) := by
  have hpc : s.pc + 1 + 1 = s.pc + 2 := by rw [BitVec.add_assoc]; rfl
  obtain ⟨hop, hb⟩ := hb
  cases hf : e.mode.format <;> rw [hf] at hlen
  case f1 =>
    obtain rfl := List.length_eq_zero_iff.mp hlen
    exact fetch_no_operand hop hl hf
  case f2 =>
    obtain ⟨b, rfl⟩ := List.length_eq_one_iff.mp hlen
    cases hr : readsOperand e.mnemonic e.mode
    · rw [fetch_unread_operand hop hl hf hr, Entry.build, ← build_of_not_readsOperand hr b 0]
      rfl
    · exact fetch_byte_operand hop hl hf hr hb.1
  case f3 =>
    obtain ⟨lo, hi, rfl⟩ := List.length_eq_two.mp hlen
    obtain ⟨hlo, hhi, -⟩ := hb
    exact fetch_word_operand hop hl hf hlo (hpc ▸ hhi)

/-- Settles O9: decoding and the fetch both apply the opcode's entry to the operand bytes. -/
theorem stepRunsTheDecodedInstruction : Obligations.StepRunsTheDecodedInstruction := by
  intro s e bytes i hn hb hhead hl hdec
  obtain ⟨d, ops, rfl, hd, hlen, rfl⟩ := decode_ok hdec
  rw [List.append_nil] at *
  obtain rfl : d = e := by
    have hop : d.opcode = e.opcode := Option.some.inj hhead
    rw [hop, hl] at hd
    exact (Option.some.inj hd).symm
  have hstep := step_of_fetch_ok hn (fetch_of_bytesAt hb hl hlen)
  refine ⟨fun t ht => ?_, fun f hf => ?_⟩
  · rw [hstep]
    exact congrArg (fun r => andThen r (advance d.cycles)) ht
  · rw [hstep]
    exact congrArg (fun r => andThen r (advance d.cycles)) hf

/-- A fault that is not the stuck one was raised in a state the step reached. -/
theorem step_raised {r : Fault} (hn : s.halted = none) (h : step s = .fault r) : ∃ v u, r = raised v u := by
  rcases step_fault h with ⟨v, hv, -⟩ | ⟨-, hf | ⟨i, n, u, -, he | ⟨w, -, ha⟩⟩⟩
  · exact nomatch hn.symm.trans hv
  · obtain ⟨v, pc, rfl⟩ := fetch_error hf
    exact ⟨v, _, rfl⟩
  · obtain ⟨v, rfl⟩ := exec_fault he
    exact ⟨v, _, rfl⟩
  · obtain ⟨v, u, rfl, -⟩ := advance_fault ha
    exact ⟨v, u, rfl⟩

/-- Settles O10: whatever raised the fault, the state it leaves is halted by it, and a halted machine is stuck. -/
theorem faultHaltsTheMachineForGood : Obligations.FaultHaltsTheMachineForGood := by
  refine ⟨fun s t f h => ?_, fun s f => step_of_halted⟩
  have hn : s.halted = none := by
    cases hs : s.halted with
    | none => rfl
    | some v => exact nomatch (step_of_halted hs).symm.trans h
  obtain ⟨v, u, hr⟩ := step_raised hn h
  obtain ⟨rfl, rfl⟩ := Fault.raised.inj hr
  exact ⟨hn, rfl, step_of_halted rfl⟩

/-- Settles O11: the fetch raises the fault before it moves PC. -/
theorem opcodeFetchFaultLeavesPc : Obligations.OpcodeFetchFaultLeavesPc :=
  fun _ _ hn h => step_of_fetch_error hn (fetch_of_opcode_fault h)

/-- Settles O12: the fetch faults at the empty entry; the default table's opcodes are the 34 listed, in the order of its rows. -/
theorem illegalOpcodeFaults : Obligations.IllegalOpcodeFaults :=
  ⟨fun _ _ hn hop hl => step_of_fetch_error hn (fetch_of_illegal hop hl), fun op => lookup_eq_none_iff instrTable op,
    by decide +kernel⟩

theorem readsOperand_of_ne_immediate {h : Mnemonic} {m : Mode} (hm : m ≠ .immediate) : readsOperand h m = true := by
  simp [readsOperand, hm]

/-- Settles O13: each clause is one outcome of the fetch. -/
theorem operandFetchFaultLeavesPc : Obligations.OperandFetchFaultLeavesPc := by
  intro s op e hn hop hl
  refine ⟨fun f hf hm hb => ?_, fun f hm hload hb => ?_, fun hm hload => ?_, fun f hf hlo => ?_, fun lo f hf hlo hhi => ?_⟩
  · refine step_of_fetch_error hn ?_
    rw [fetch_byte_operand_fault hop hl hf (readsOperand_of_ne_immediate hm) hb, pcAtOperandFault, if_neg hm]
    rfl
  · have hpc : s.pc + 1 + 1 = s.pc + 2 := by rw [BitVec.add_assoc]; rfl
    refine step_of_fetch_error hn ?_
    rw [fetch_byte_operand_fault hop hl (by rw [hm]; rfl) (by simp [readsOperand, hload]) hb, pcAtOperandFault,
      if_pos hm, hpc]
    rfl
  · rw [fetch_unread_operand hop hl (by rw [hm]; rfl) (by simp [readsOperand, hm, hload]), Entry.build, hm]
    rfl
  · exact step_of_fetch_error hn (fetch_low_operand_fault hop hl hf hlo)
  · exact step_of_fetch_error hn (fetch_high_operand_fault hop hl hf hlo hhi)

/-! ### An Immediate load (R126) -/

/-- Where a fetch answers an instruction, an entry of the opcode at PC built it. -/
theorem fetch_ok_entry {i : Instr} {n : Nat} (h : fetch s = .ok (i, n, t)) :
    ∃ op e lo hi, memRead s s.pc = .ok op ∧ lookup s.params.table op = some e ∧ i = e.build lo hi := by
  unfold fetch at h
  split at h
  · exact nomatch h
  split at h
  · exact nomatch h
  · repeat' split at h
    all_goals cases h
    all_goals exact ⟨_, _, _, _, ‹_›, ‹_›, rfl⟩

/-- A fetch of an Immediate load read its one operand byte, at the address after the opcode. -/
theorem fetch_immediate_load {i : Instr} {n : Nat} (hm : i.mode = .immediate) (hload : i.mnemonic.loads = true)
    (h : fetch s = .ok (i, n, t)) :
    ∃ b, memRead s (s.pc + 1) = .ok b ∧ i.operandBytes = [b] ∧ t = s.setPc (s.pc + 2) := by
  obtain ⟨op, e, lo, hi, hop, hl, hi⟩ := fetch_ok_entry h
  have hem : e.mode = .immediate := by rw [← hm, hi]; exact (build_mode _ _ _ _).symm
  have hen : e.mnemonic = i.mnemonic := by rw [hi]; exact (build_mnemonic _ _ _ _).symm
  have hf : e.mode.format = .f2 := by rw [hem]; rfl
  have hr : readsOperand e.mnemonic e.mode = true := by simp [readsOperand, hen, hload]
  cases hb : memRead s (s.pc + 1) with
  | error f => exact nomatch (fetch_byte_operand_fault hop hl hf hr hb).symm.trans h
  | ok b =>
    cases (fetch_byte_operand hop hl hf hr hb).symm.trans h
    exact ⟨b, rfl, by rw [Entry.build, build_operandBytes hr, hf]; rfl, rfl⟩

/-- The operand's own address is the one before the PC the handler sees. -/
theorem eaImmediate_after_fetch (s : State) : eaImmediate (s.setPc (s.pc + 2)) = s.pc + 1 := by
  show s.pc + 2 - 1 = s.pc + 1
  rw [BitVec.sub_eq_add_neg, BitVec.add_assoc]
  rfl

/-- Settles O14: the three constructors are the Immediate loads, with their byte as the operand. -/
theorem immediateIsTheByteAtItsOwnAddress : Obligations.ImmediateIsTheByteAtItsOwnAddress := by
  intro s t v i n hi h
  obtain ⟨hm, hload, hops⟩ : i.mode = .immediate ∧ i.mnemonic.loads = true ∧ i.operandBytes = [v] := by
    rcases hi with rfl | rfl | rfl <;> exact ⟨rfl, rfl, rfl⟩
  obtain ⟨b, hb, hb', rfl⟩ := fetch_immediate_load hm hload h
  obtain rfl : b = v := List.singleton_inj.mp (hb'.symm.trans hops)
  rw [memRead_setPc, eaImmediate_after_fetch]
  exact ⟨hb, rfl, rfl⟩

/-! ### No refusal; what a fault of the CPU's step leaves -/

/-- A fault of the CPU's step was raised by the fetch or by the instruction, in a state that differs in PC only. -/
theorem cpuStep_fault {r : Fault} (h : cpuStep s = .fault r) : ∃ v pc, r = raised v (s.setPc pc) := by
  unfold cpuStep at h
  split at h
  next g hf =>
    obtain rfl := Host.Outcome.fault.inj h
    exact fetch_error hf
  next i n u hf =>
    obtain ⟨⟨pc, rfl⟩, -⟩ := fetch_ok hf
    rcases andThen_fault.mp h with he | ⟨w, -, hn⟩
    · obtain ⟨v, rfl⟩ := exec_fault he
      exact ⟨v, pc, rfl⟩
    · exact nomatch hn

/-- Settles O16: the fault was raised in the state before the step with another PC (`cpuStep_fault`). -/
theorem cpuFaultChangesPcAlone : Obligations.CpuFaultChangesPcAlone := by
  intro s t f h
  obtain ⟨v, pc, hr⟩ := cpuStep_fault h
  obtain ⟨rfl, rfl⟩ := Fault.raised.inj hr
  rfl

theorem cpuStep_not_refused {q : Refusal} : cpuStep s ≠ .refused q := by
  intro h
  unfold cpuStep at h
  split at h
  · exact nomatch h
  · rcases andThen_refused.mp h with he | ⟨w, -, hn⟩
    · exact exec_not_refused he
    · exact nomatch hn

/-- Settles O15: neither the CPU's step nor `advance` is refused. -/
theorem stepIsNeverRefused : Obligations.StepIsNeverRefused := by
  intro s q h
  cases hs : s.halted with
  | some f => exact nomatch (step_of_halted hs).symm.trans h
  | none =>
    rw [step_of_running hs] at h
    rcases andThen_refused.mp h with hc | ⟨r, -, ha⟩
    · exact cpuStep_not_refused hc
    · exact advance_not_refused ha

end Sys2Proof.Machine

/-! PROOFS. Whole-machine rules: what every step keeps (`10_state.md`, `20_memory.md` section 2, `45_ppu_render_pipeline.md`
section 1). -/

namespace Sys2Proof.Machine

variable {s t : State} {i : Instr}

/-- A step that answers a next state is a fetch, which moves PC alone, an instruction and `advance` by an entry's cycles. -/
theorem step_next_setPc (h : step s = .next t) :
    s.halted = none ∧ ∃ i n pc u, fetch s = .ok (i, n, s.setPc pc) ∧ (∃ e ∈ s.params.table, e.cycles = n) ∧
      exec i (s.setPc pc) = .next u ∧ advance n u = .next t := by
  obtain ⟨hn, i, n, r, u, hf, he, ha⟩ := step_next h
  obtain ⟨⟨pc, rfl⟩, e, hmem, hc, -⟩ := fetch_ok hf
  exact ⟨hn, i, n, pc, u, hf, ⟨e, hmem, hc⟩, he, ha⟩

/-! ### The invariant (`20_memory.md` R62, `45_ppu_render_pipeline.md` R213, R214, `40_fetch_decode_dispatch.md` R137) -/

/-- A value that is 0 has bit 7 clear, so `SetZN` never sets both flags. -/
theorem Flags.setZN_not_both (p : Flags) (v : Byte) : ((p.setZN v).z && (p.setZN v).n) = false := by
  rw [Flags.setZN_z, Flags.setZN_n, Bool.and_eq_false_imp]
  intro hz
  obtain rfl := eq_of_beq hz
  rfl

theorem exec_keeps_flagsWf (h : exec i s = .next t) (hs : s.FlagsWf) : t.FlagsWf := by
  cases exec_effect h with
  | loaded r v _ => rw [State.FlagsWf, State.loaded_flags]; exact Flags.setZN_not_both s.flags v
  | bumped r d _ => rw [State.FlagsWf, State.bumped_flags]; exact Flags.setZN_not_both s.flags _
  | stored addr _ hw =>
    obtain ⟨-, -, -, -, -, hf, -⟩ := memWrite_leaves hw
    rw [State.FlagsWf, hf]
    exact hs
  | sp _ _ _ => exact hs
  | pc _ _ _ _ _ => exact hs
  | sei _ _ _ => exact hs

theorem exec_keeps_memoriesWf (h : exec i s = .next t) (hs : s.MemoriesWf) : t.MemoriesWf := by
  obtain ⟨hc, -, -, hp, -, -, -, -, hw, hb⟩ := exec_leaves h
  obtain ⟨hram, hvram, hoam, hpal, hframe, hprg, hchr⟩ := hs
  refine ⟨⟨hw hram.1, hb hram.2⟩, ⟨hp.vramWf hvram.1, hp.vramBelow hvram.2⟩, ⟨hp.oamWf hoam.1, hp.oamBelow hoam.2⟩,
    ⟨hp.palWf hpal.1, hp.palBelow hpal.2⟩, ?_, ?_, ?_⟩
  · rw [hp.frame]; exact hframe
  · rw [hc]; exact hprg
  · rw [hc]; exact hchr

theorem exec_keeps_countersWf (h : exec i s = .next t) (hs : s.CountersWf) : t.CountersWf := by
  obtain ⟨-, hparams, -, hp, -⟩ := exec_leaves h
  rw [State.CountersWf, hp.scanline, hp.dot, hparams]
  exact hs

theorem exec_keeps_inv (h : exec i s = .next t) (hs : s.Inv) : t.Inv :=
  ⟨exec_keeps_memoriesWf h hs.1, exec_keeps_countersWf h hs.2.1, exec_keeps_flagsWf h hs.2.2⟩

/-- The wrap of one call absorbs at least 314 dots, so a count of at most 314 leaves at most 340. -/
theorem advance_keeps_countersWf {n : Nat} (h : advance n s = .next t)
    (hcycles : (∀ e ∈ s.params.table, e.cycles ≤ 314) → n ≤ 314) (hs : s.CountersWf) : t.CountersWf := by
  obtain ⟨hp, -, -, hcount⟩ := advance_next h
  obtain ⟨hline, hdot⟩ := hs
  have hsub := dotWrapSub_cases
  rw [State.CountersWf, hp.params]
  rcases hcount with ⟨hlt, hd, hl, -⟩ | ⟨hge, hd, ⟨hne, hl, -⟩ | ⟨-, hl, -⟩⟩
  · exact ⟨by omega, fun _ => by omega⟩
  · refine ⟨by omega, fun ht => ?_⟩
    have := hdot ht
    have := hcycles ht
    omega
  · refine ⟨by omega, fun ht => ?_⟩
    have := hdot ht
    have := hcycles ht
    omega

theorem advance_keeps_memoriesWf {n : Nat} (h : advance n s = .next t) (hs : s.MemoriesWf) : t.MemoriesWf := by
  obtain ⟨hp, hwf, hbelow, -⟩ := advance_next h
  obtain ⟨hram, hvram, hoam, hpal, hframe, hprg, hchr⟩ := hs
  rw [State.MemoriesWf, hp.ram, hp.vram, hp.oam, hp.pal, hp.cart]
  exact ⟨hram, hvram, hoam, hpal, ⟨hwf hframe.1, hbelow hframe.2⟩, hprg, hchr⟩

/-- Settles O17: the fetch moves PC alone, and the instruction and `advance` each keep the invariant. -/
theorem stepKeepsTheInvariant : Obligations.StepKeepsTheInvariant := by
  intro s t hs h
  obtain ⟨-, i, n, pc, u, -, ⟨e, he, rfl⟩, hexec, hadv⟩ := step_next_setPc h
  have hu : u.Inv := exec_keeps_inv hexec hs
  obtain ⟨-, hparams, -⟩ := exec_leaves hexec
  obtain ⟨hmem, hcount, hflags⟩ := hu
  refine ⟨advance_keeps_memoriesWf hadv hmem, advance_keeps_countersWf hadv (fun ht => ht e ?_) hcount, ?_⟩
  · rw [hparams]; exact he
  · rw [State.FlagsWf, (advance_next hadv).1.flags]; exact hflags

/-- Settles O18: `State.reset` lists no cell, its counters are 0, and its Z and N are clear. -/
theorem resetMeetsTheInvariant : Obligations.ResetMeetsTheInvariant := by
  have empty : ∀ {w : Nat} (cap : Nat), Cells.wf ([] : List (Nat × BitVec w)) = true ∧
      Cells.below cap ([] : List (Nat × BitVec w)) = true := fun _ => ⟨rfl, rfl⟩
  exact ⟨⟨empty _, empty _, empty _, empty _, empty _, empty _, empty _⟩, ⟨by decide, fun _ => by decide⟩, rfl⟩

/-! ### What no step writes (`10_state.md` R26, R49) -/

/-- SEI is the only instruction that writes the interrupt-disable flag, and it sets it. -/
theorem exec_keeps_interruptDisable (h : exec i s = .next t) (hs : s.flags.i = true) : t.flags.i = true := by
  cases exec_effect h with
  | loaded r v _ => rw [State.loaded_flags]; exact hs
  | bumped r d _ => rw [State.bumped_flags]; exact hs
  | stored addr _ hw =>
    obtain ⟨-, -, -, -, -, hf, -⟩ := memWrite_leaves hw
    rw [hf]
    exact hs
  | sp _ _ _ => exact hs
  | pc _ _ _ _ _ => exact hs
  | sei _ _ _ => rfl

/-- Settles O19: neither the instruction (`exec_leaves`) nor `advance` (`PipelineOnly`) writes any of them. -/
theorem stepNeverWritesLaunchDataOrUnusedFlags : Obligations.StepNeverWritesLaunchDataOrUnusedFlags := by
  intro s t h
  obtain ⟨hn, i, n, pc, u, -, -, hexec, hadv⟩ := step_next_setPc h
  obtain ⟨hcart, hparams, hhalted, -, hc, hd, hb, hv, -⟩ := exec_leaves hexec
  have hi := exec_keeps_interruptDisable hexec
  have hp := (advance_next hadv).1
  rw [hp.cart, hp.params, hp.halted, hp.flags]
  exact ⟨hcart, hparams, hn, hhalted.trans hn, hc, hd, hb, hv, hi⟩

/-! ### The latch (`44_ppu_register_port.md` R188) -/

/-- A bus write that moves the latch is one to 0x2006. -/
theorem memWrite_latch {addr : Word} {v : Byte} (h : memWrite s addr v = .ok t) (hl : t.ppu.latch ≠ s.ppu.latch) :
    addr = 0x2006 := by
  rcases memWrite_cases h with ⟨-, -, rfl⟩ | ⟨-, q, hq, rfl⟩ | ⟨-, -, rfl⟩
  · exact absurd rfl hl
  · by_contra hne
    exact hl ((ppuWrite_frame hq).2 hne)
  · exact absurd rfl hl

/-- Of the effects an instruction can have, only a store reaches the PPU. -/
theorem exec_latch (h : exec i s = .next t) (hl : t.ppu.latch ≠ s.ppu.latch) :
    storeAddress s i = some (.ok 0x2006) := by
  cases exec_effect h with
  | loaded r v _ => rw [State.loaded_ppu] at hl; exact absurd rfl hl
  | bumped r d _ => rw [State.bumped_ppu] at hl; exact absurd rfl hl
  | stored addr hs hw =>
    obtain rfl := memWrite_latch hw hl
    exact hs
  | sp _ _ _ => exact absurd rfl hl
  | pc _ _ _ _ _ => exact absurd rfl hl
  | sei _ _ _ => exact absurd rfl hl

/-- Settles O20: `advance` keeps the latch, so the instruction moved it (`exec_latch`). -/
theorem latchMovesOnlyAtPort2006 : Obligations.LatchMovesOnlyAtPort2006 := by
  intro s t h hl
  obtain ⟨-, i, n, pc, u, hf, -, hexec, hadv⟩ := step_next_setPc h
  rw [(advance_next hadv).1.latch] at hl
  exact ⟨i, n, _, hf, exec_latch hexec hl⟩

/-! ### The frame buffer (`45_ppu_render_pipeline.md` R227) -/

/-- Settles O59: no instruction writes the frame, and `advance` does only at the wrap from scanline 261 to 0. -/
theorem frameChangesOnlyAtTheFrameWrap : Obligations.FrameChangesOnlyAtTheFrameWrap := by
  intro s t h hwrap
  obtain ⟨-, i, n, pc, u, -, -, hexec, hadv⟩ := step_next_setPc h
  obtain ⟨-, -, -, hp, -⟩ := exec_leaves hexec
  have hframe : u.ppu.frame = s.ppu.frame := hp.frame
  have hline : u.ppu.scanline = s.ppu.scanline := hp.scanline
  obtain ⟨-, -, -, ⟨-, -, -, hf, -⟩ | ⟨-, -, ⟨-, -, hf⟩ | ⟨h261, h0, -⟩⟩⟩ := advance_next hadv
  · exact hf.trans hframe
  · exact hf.trans hframe
  · exact absurd ⟨hline.symm.trans h261, h0⟩ hwrap

end Sys2Proof.Machine

/-! PROOFS. Reset and launch (`70_reset_and_hazards.md`): which launches are admitted, and what the loader reads of an image. -/

namespace Sys2Proof.Machine

/-- Settles O6: the blank cartridge's vector is 0x0000, and the registers hold what `reset()` writes. -/
theorem resetStateIsLeftByReset : Obligations.ResetStateIsLeftByReset := by
  have hlo : memRead State.reset 0xFFFC = .ok 0 := by decide
  have hhi : memRead State.reset 0xFFFD = .ok 0 := by decide
  exact ⟨cpuReset_of_vector hlo hhi, rfl, rfl, rfl, rfl, rfl, rfl, rfl, rfl⟩

/-! ### Admission (`00_scope.md` R8, `10_state.md` R29) -/

theorem Cartridge.admitted_iff (c : Cartridge) : c.admitted = true ↔ c.mapper = 0 ∧ 1 ≤ c.prgBanks := by
  rw [Cartridge.admitted, Bool.and_eq_true, beq_iff_eq, decide_eq_true_iff]

/-- An admitted launch is the first reset of the constructed machine, whose vector is readable. -/
theorem launch_of_admitted {c : Cartridge} {p : Params} (l : LaunchContents) (hm : c.mapper = 0) (hb : 1 ≤ c.prgBanks)
    (ht : tableWf p.table = true) : ∃ lo hi, memRead (construct c p l) 0xFFFC = .ok lo ∧
      memRead (construct c p l) 0xFFFD = .ok hi ∧
      launch c p l = .next ((construct c p l).cpuResetTo (wordOfBytes lo hi)) := by
  have hbank : 1 ≤ (construct c p l).cart.prgBanks := hb
  have hlo := memRead_programRom_of_bank hbank (a := 0xFFFC) (by decide)
  have hhi := memRead_programRom_of_bank hbank (a := 0xFFFD) (by decide)
  refine ⟨_, _, hlo, hhi, ?_⟩
  rw [launch, if_pos (c.admitted_iff.mpr ⟨hm, hb⟩), if_pos ht, cpuReset_of_vector hlo hhi]

/-- Settles O7: a launch not admitted is refused before anything is built; one that is admitted is construction and `reset()`,
which leaves what the bus reads at the vector as it was. -/
theorem launchAdmitsMapperZeroWithProgramRom : Obligations.LaunchAdmitsMapperZeroWithProgramRom := by
  intro c p l
  refine ⟨fun h => ?_, fun hm hb ht => ?_, fun hm hb ht => ?_⟩
  · refine if_neg fun ha => ?_
    obtain ⟨hm, hb⟩ := c.admitted_iff.mp ha
    rcases h with h | h
    · exact h hm
    · omega
  · rw [launch, if_pos (c.admitted_iff.mpr ⟨hm, hb⟩), ht]
    rfl
  · obtain ⟨lo, hi, hlo, hhi, hl⟩ := launch_of_admitted l hm hb ht
    exact ⟨_, lo, hi, hl, hlo, hhi, rfl, rfl, rfl, rfl, rfl, rfl, rfl, rfl, rfl, rfl, rfl, rfl, rfl, rfl, rfl, rfl, rfl,
      rfl, rfl, rfl, rfl, rfl⟩

/-! ### The cartridge image (R276) -/

/-- Bytes placed from index `i` on read back from there, and every other cell is 0. -/
theorem read_ofBytes (bs : List Byte) (i k : Nat) :
    Cells.read (Memory.ofBytes i bs) k = if i ≤ k then bs.getD (k - i) 0 else 0 := by
  induction bs generalizing i with
  | nil => simp [Memory.ofBytes]
  | cons b bs ih =>
    rw [Memory.ofBytes]
    by_cases hk : k = i
    · subst hk
      rw [Cells.read_write_same k b (Memory.wf_ofBytes _ _)]
      simp
    · rw [Cells.read_write_other b hk, ih]
      by_cases hlt : i + 1 ≤ k
      · obtain ⟨d, rfl⟩ := Nat.exists_eq_add_of_le hlt
        rw [if_pos hlt, if_pos (by omega), show i + 1 + d - i = d + 1 by omega, Nat.add_sub_cancel_left,
          List.getD_cons_succ]
      · rw [if_neg hlt, if_neg (by omega)]

theorem read_ofBytes_zero (bs : List Byte) (k : Nat) : Cells.read (Memory.ofBytes 0 bs) k = bs.getD k 0 :=
  read_ofBytes bs 0 k

/-- The high nibbles of the two flags bytes, side by side: the masked byte and the shifted one have no bit in common. -/
theorem mapperNumber_toNat (flags flags2 : Byte) :
    (mapperNumber flags flags2).toNat = flags2.toNat / 16 * 16 + flags.toNat / 16 := by
  have h := flags.isLt
  have hhigh : (flags2 &&& 0xF0 : Byte) = (flags2 >>> 4) <<< 4 := by
    apply BitVec.eq_of_getLsbD_eq
    intro i hi
    interval_cases i <;> simp
  have hlow : flags.toNat / 16 < 2 ^ 4 := by omega
  show ((flags2 &&& (0xF0 : Byte)) ||| (flags >>> 4)).toNat = _
  rw [hhigh, BitVec.toNat_or, BitVec.toNat_shiftLeft, BitVec.toNat_ushiftRight, BitVec.toNat_ushiftRight,
    Nat.shiftRight_eq_div_pow, Nat.shiftRight_eq_div_pow]
  have hmod : (flags2.toNat / 2 ^ 4) <<< 4 % 2 ^ 8 = (flags2.toNat / 2 ^ 4) <<< 4 := by
    have := flags2.isLt
    rw [Nat.shiftLeft_eq]
    omega
  rw [hmod, ← Nat.shiftLeft_add_eq_or_of_lt hlow, Nat.shiftLeft_eq]
  rfl

theorem getLsbD_eq_decide (b : Byte) (k : Nat) : b.getLsbD k = decide (b.toNat / 2 ^ k % 2 = 1) := by
  rw [Bool.eq_iff_iff, byte_getLsbD_iff, decide_eq_true_iff]

theorem parseCartridge_of_wrong_signature {image : List Byte} (h : image.take 4 ≠ Config.cartridgeMagic.toList) :
    parseCartridge image = .fault .formatError := if_neg h

/-- An image with the signature and the contents its header announces is parsed; what follows the header is the body. -/
theorem parseCartridge_of_signature (prgBanks chrBanks flags flags2 : Byte) {unused body : List Byte}
    (hu : unused.length = 8) (hbody : prgBanks.toNat * 16384 + chrBanks.toNat * 8192 ≤ body.length) :
    parseCartridge (Config.cartridgeMagic.toList ++ ([prgBanks, chrBanks, flags, flags2] ++ (unused ++ body))) =
      .next (cartridgeOf prgBanks chrBanks flags flags2 body) := by
  have hsig : Config.cartridgeMagic.toList.length = 4 := Vector.length_toList
  unfold parseCartridge
  rw [List.take_left' hsig, List.drop_left' hsig, if_pos rfl]
  dsimp only [List.cons_append, List.nil_append]
  rw [if_neg (by rw [List.length_append]; omega), List.drop_left' hu]

/-- Settles O8: the loader cuts the body where the header says, and bytes placed in a memory read back. -/
theorem cartridgeHeaderIsRead : Obligations.CartridgeHeaderIsRead := by
  refine ⟨fun image => parseCartridge_of_wrong_signature, fun prgBanks chrBanks flags flags2 unused prg chr hu hp hc => ?_⟩
  refine ⟨cartridgeOf prgBanks chrBanks flags flags2 (prg ++ chr), ?_, rfl, rfl, mapperNumber_toNat flags flags2, ?_, ?_,
    fun k => ?_, fun k => ?_, Memory.wf_ofBytes _ _, Memory.wf_ofBytes _ _⟩
  · simp only [List.append_assoc]
    exact parseCartridge_of_signature prgBanks chrBanks flags flags2 hu (by rw [List.length_append]; omega)
  · have hbit := getLsbD_eq_decide flags 0
    rwa [Nat.pow_zero, Nat.div_one] at hbit
  · exact getLsbD_eq_decide flags 1
  · rw [cartridgeOf, read_ofBytes_zero, List.take_left' hp]
  · rw [cartridgeOf, read_ofBytes_zero, List.drop_left' hp, List.take_of_length_le hc.le]

end Sys2Proof.Machine

/-! PROOFS. Loads and stores (`41_load_store.md`) over the addressing modes, and every handler in every mode
(`40_fetch_decode_dispatch.md`, `00_scope.md` R7). -/

namespace Sys2Proof.Machine

variable {s t : State} {i : Instr} {addr : Word}

/-! ### The shared operations at an address (R150 to R153) -/

theorem loadInto_of_read {r : Reg} {v : Byte} (h : memRead s addr = .ok v) :
    loadInto r (.ok addr) s = .next (s.loaded r v) := by
  rw [loadInto, orRaise_ok, h, orRaise_ok]

theorem loadInto_of_read_fault {r : Reg} {f : FaultValue} (h : memRead s addr = .error f) :
    loadInto r (.ok addr) s = raise f s := by
  rw [loadInto, orRaise_ok, h, orRaise_error]

/-- An instruction that loads from `addr` reads into its register, and faults where the bus does. -/
theorem readsInto_of_loadInto {r : Reg} (h : exec i s = loadInto r (.ok addr) s) :
    ReadsInto i s addr (s.loaded r) := by
  have fault : ∀ f, memRead s addr = .error f → Faults i s f := fun f hf => h.trans (loadInto_of_read_fault hf)
  exact ⟨fun v hv => h.trans (loadInto_of_read hv), fault, fun ha hb => fault _ (memRead_unmapped ha hb),
    fun ha hb hm => fault _ (memRead_past_ram ha hb hm)⟩

theorem storeA_of_write (h : memWrite s addr s.a = .ok t) : storeA (.ok addr) s = .next t := by
  rw [storeA, orRaise_ok, h, orRaise_ok]

theorem storeA_of_write_fault {f : FaultValue} (h : memWrite s addr s.a = .error f) :
    storeA (.ok addr) s = raise f s := by
  rw [storeA, orRaise_ok, h, orRaise_error]

/-- An instruction that stores at `addr` does what the bus write does, region by region. -/
theorem storesAt_of_storeA (h : exec i s = storeA (.ok addr) s) : StoresAt i s addr := by
  refine ⟨fun ha => ?_, fun _ hb hm => ?_, fun ha hb hm => ?_, fun ha hb => ⟨fun p hp => ?_, fun f hf => ?_⟩, fun ha => ?_⟩
  · exact h.trans (storeA_of_write (memWrite_low ha s.a))
  · exact h.trans (storeA_of_write (memWrite_mirrored hb hm s.a))
  · exact h.trans (storeA_of_write_fault (memWrite_past_ram ha hb hm s.a))
  · exact h.trans (storeA_of_write (by rw [memWrite_ppuPort ha hb, hp]; rfl))
  · exact h.trans (storeA_of_write_fault (by rw [memWrite_ppuPort ha hb, hf]; rfl))
  · exact h.trans (storeA_of_write (memWrite_sink ha))

/-! ### Page zero, which is work RAM (R127 to R129) -/

theorem zext16_toNat (b : Byte) : (zext16 b).toNat = b.toNat := by
  have := b.isLt
  rw [zext16, BitVec.toNat_setWidth]
  omega

theorem zext16_lt (b : Byte) : (zext16 b).toNat < 0x0800 := by
  have := b.isLt
  rw [zext16_toNat]
  omega

theorem loadInto_zeroPage (r : Reg) (b : Byte) (s : State) :
    loadInto r (.ok (zext16 b)) s = .next (s.loaded r (Cells.read s.ram b.toNat)) := by
  rw [← zext16_toNat b]
  exact loadInto_of_read (memRead_low (zext16_lt b))

theorem storeA_zeroPage (b : Byte) (s : State) :
    storeA (.ok (zext16 b)) s = .next (s.setRam (Cells.write s.ram b.toNat s.a)) := by
  rw [← zext16_toNat b]
  exact storeA_of_write (memWrite_low (zext16_lt b) s.a)

/-! ### The two page-zero pointers (R135, R136): they are always readable -/

theorem eaIndexedIndirect_ok (s : State) (b : Byte) : eaIndexedIndirect s b = .ok (pointerWord s (b + s.x)) :=
  zeroPagePointer_ok s (b + s.x)

theorem eaIndirectIndexed_ok (s : State) (b : Byte) : eaIndirectIndexed s b = .ok (pointerWord s b + zext16 s.y) := by
  rw [eaIndirectIndexed, zeroPagePointer_ok]
  rfl

/-! ### LDA, LDX, LDY and STA in the modes of the default table -/

/-- The operand of an Immediate load is the byte the bus reads before the PC its fetch leaves. -/
theorem immediate_operand_at {u : State} {n : Nat} {v : Byte} (hi : i = .ldaImm v ∨ i = .ldxImm v ∨ i = .ldyImm v)
    (h : fetch u = .ok (i, n, s)) : memRead s (s.pc - 1) = .ok v :=
  (immediateIsTheByteAtItsOwnAddress u s v i n hi h).1

theorem exec_ldaIndX (b : Byte) (s : State) :
    exec (.ldaIndX b) s = loadInto .a (.ok (pointerWord s (b + s.x))) s :=
  congrArg (fun ea => loadInto .a ea s) (eaIndexedIndirect_ok s b)

theorem exec_ldaIndY (b : Byte) (s : State) :
    exec (.ldaIndY b) s = loadInto .a (.ok (pointerWord s b + zext16 s.y)) s :=
  congrArg (fun ea => loadInto .a ea s) (eaIndirectIndexed_ok s b)

theorem exec_staIndX (b : Byte) (s : State) :
    exec (.staIndX b) s = storeA (.ok (pointerWord s (b + s.x))) s :=
  congrArg (fun ea => storeA ea s) (eaIndexedIndirect_ok s b)

theorem exec_staIndY (b : Byte) (s : State) :
    exec (.staIndY b) s = storeA (.ok (pointerWord s b + zext16 s.y)) s :=
  congrArg (fun ea => storeA ea s) (eaIndirectIndexed_ok s b)

/-- Settles O25: each mode is a load into A from the address its rule gives. -/
theorem ldaLoadsTheAccumulator : Obligations.LdaLoadsTheAccumulator := by
  intro s
  refine ⟨fun v => ⟨rfl, rfl, rfl, rfl⟩, fun u n v h => immediate_operand_at (.inl rfl) h, fun b => ⟨?_, rfl, rfl, rfl⟩,
    fun b => ⟨?_, rfl, rfl, rfl⟩, fun w => ⟨?_, rfl, rfl, rfl⟩, fun w => ⟨?_, rfl, rfl, rfl⟩, fun w => ⟨?_, rfl, rfl, rfl⟩,
    fun b => ⟨?_, rfl, rfl, rfl⟩, fun b => ⟨?_, rfl, rfl, rfl⟩⟩
  · exact loadInto_zeroPage .a b s
  · exact loadInto_zeroPage .a (b + s.x) s
  · exact readsInto_of_loadInto (r := .a) (addr := eaAbsolute w) rfl
  · exact readsInto_of_loadInto (r := .a) (addr := eaAbsoluteX s w) rfl
  · exact readsInto_of_loadInto (r := .a) (addr := eaAbsoluteY s w) rfl
  · exact readsInto_of_loadInto (exec_ldaIndX b s)
  · exact readsInto_of_loadInto (exec_ldaIndY b s)

/-- Settles O26: each mode is a load into X from the address its rule gives. -/
theorem ldxLoadsIndexX : Obligations.LdxLoadsIndexX := by
  intro s
  refine ⟨fun v => ⟨rfl, rfl, rfl, rfl⟩, fun u n v h => immediate_operand_at (.inr (.inl rfl)) h,
    fun b => ⟨?_, rfl, rfl, rfl⟩, fun b => ⟨?_, rfl, rfl, rfl⟩, fun w => ⟨?_, rfl, rfl, rfl⟩, fun w => ⟨?_, rfl, rfl, rfl⟩⟩
  · exact loadInto_zeroPage .x b s
  · exact loadInto_zeroPage .x (b + s.y) s
  · exact readsInto_of_loadInto (r := .x) (addr := eaAbsolute w) rfl
  · exact readsInto_of_loadInto (r := .x) (addr := eaAbsoluteY s w) rfl

/-- Settles O27: each mode is a load into Y from the address its rule gives. -/
theorem ldyLoadsIndexY : Obligations.LdyLoadsIndexY := by
  intro s
  refine ⟨fun v => ⟨rfl, rfl, rfl, rfl⟩, fun u n v h => immediate_operand_at (.inr (.inr rfl)) h,
    fun b => ⟨?_, rfl, rfl, rfl⟩, fun b => ⟨?_, rfl, rfl, rfl⟩, fun w => ⟨?_, rfl, rfl, rfl⟩, fun w => ⟨?_, rfl, rfl, rfl⟩⟩
  · exact loadInto_zeroPage .y b s
  · exact loadInto_zeroPage .y (b + s.x) s
  · exact readsInto_of_loadInto (r := .y) (addr := eaAbsolute w) rfl
  · exact readsInto_of_loadInto (r := .y) (addr := eaAbsoluteX s w) rfl

/-- Settles O28: each mode is a store of A at the address its rule gives. -/
theorem staStoresTheAccumulator : Obligations.StaStoresTheAccumulator := by
  intro s
  refine ⟨fun b => ⟨?_, rfl, rfl, rfl⟩, fun b => ⟨?_, rfl, rfl, rfl⟩, fun w => ⟨?_, rfl, rfl, rfl⟩,
    fun w => ⟨?_, rfl, rfl, rfl⟩, fun w => ⟨?_, rfl, rfl, rfl⟩, fun b => ⟨?_, rfl, rfl, rfl⟩, fun b => ⟨?_, rfl, rfl, rfl⟩⟩
  · exact storeA_zeroPage b s
  · exact storeA_zeroPage (b + s.x) s
  · exact storesAt_of_storeA (addr := eaAbsolute w) rfl
  · exact storesAt_of_storeA (addr := eaAbsoluteX s w) rfl
  · exact storesAt_of_storeA (addr := eaAbsoluteY s w) rfl
  · exact storesAt_of_storeA (exec_staIndX b s)
  · exact storesAt_of_storeA (exec_staIndY b s)

/-! ### Every handler in every mode (`00_scope.md` R7) -/

/-- Where the mode's resolution faults, each of the twelve handlers takes that fault, whether or not it looks at the address. -/
theorem modeHandlers_fault {m : Mode} {w : Word} {f : FaultValue} (h : resolve s m w = .error f) :
    Faults (.ldaMode m w) s f ∧ Faults (.ldxMode m w) s f ∧ Faults (.ldyMode m w) s f ∧ Faults (.staMode m w) s f ∧
    Faults (.inxMode m w) s f ∧ Faults (.inyMode m w) s f ∧ Faults (.dexMode m w) s f ∧ Faults (.deyMode m w) s f ∧
    Faults (.txsMode m w) s f ∧ Faults (.jmpMode m w) s f ∧ Faults (.bneMode m w) s f ∧ Faults (.seiMode m w) s f := by
  have fault : ∀ k : Word → Result, orRaise (resolve s m w) s k = raise f s := fun k => by rw [h, orRaise_error]
  exact ⟨fault _, fault _, fault _, fault _, fault _, fault _, fault _, fault _, fault _, fault _, fault _, fault _⟩

/-- Where it gives an address, each handler goes on as in the modes of the default table. -/
theorem modeHandler_ok {m : Mode} {w ea : Word} (h : resolve s m w = .ok ea) (k : Word → Result) :
    orRaise (resolve s m w) s k = k ea := by
  rw [h, orRaise_ok]

/-- Settles O37: a handler outside the default pairs runs on what its mode resolves to. -/
theorem everyHandlerRunsInEveryMode : Obligations.EveryHandlerRunsInEveryMode := by
  intro s w
  refine ⟨rfl, rfl, rfl, rfl, rfl, rfl, rfl, rfl, rfl, congrArg Except.ok (eaRelative_eq_ofInt s _),
    fun l h hl hh => eaIndirect_ok hl hh, fun f hf => eaIndirect_error hf, eaIndexedIndirect_ok s _,
    eaIndirectIndexed_ok s _, fun m => ⟨fun f => modeHandlers_fault, fun ea h => ?_⟩⟩
  have run := modeHandler_ok h
  refine ⟨readsInto_of_loadInto (r := .a) (run _), readsInto_of_loadInto (r := .x) (run _),
    readsInto_of_loadInto (r := .y) (run _), storesAt_of_storeA (run _), run _, run _, ?_, ?_, run _, run _,
    fun hz => ?_, fun hz => ?_, run _⟩
  · rw [BitVec.sub_eq_add_neg s.x 1]
    exact run _
  · rw [BitVec.sub_eq_add_neg s.y 1]
    exact run _
  · exact (run _).trans (congrArg Host.Outcome.next (if_pos hz))
  · exact (run _).trans (congrArg Host.Outcome.next (if_neg (by simp [hz])))

end Sys2Proof.Machine

/-! PROOFS. The PPU register port (`44_ppu_register_port.md`): the scroll port, the two writes of the address port, the data
port by address, and the unlisted ports. -/

namespace Sys2Proof.Machine

variable {s t : State} {p q : Ppu} {v : Byte}

/-! ### The scroll port and the unlisted ports (R187, R199) -/

theorem ppuWrite_scroll (p : Ppu) (v : Byte) : ppuWrite p 0x2005 v = .ok p := rfl

/-- Settles O43: the port writes nothing, and the latch is the address port's alone. -/
theorem scrollPortChangesNothing : Obligations.ScrollPortChangesNothing := fun s =>
  exec_staAbs_of_ppuWrite (by decide) (by decide) (ppuWrite_scroll s.ppu s.a)

theorem ppuWrite_unlisted {addr : Word} (h : addr.toNat = 0x2002 ∨ 0x2008 ≤ addr.toNat) (p : Ppu) (v : Byte) :
    ppuWrite p addr v = .error (.unmappedAddress .ppuPort addr .write) := by
  have other : ∀ k : Word, k.toNat ≠ 0x2002 → k.toNat < 0x2008 → addr ≠ k := fun k hk hk' he => by
    subst he
    omega
  rw [ppuWrite, if_neg (other _ (by decide) (by decide)), if_neg (other _ (by decide) (by decide)),
    if_neg (other _ (by decide) (by decide)), if_neg (other _ (by decide) (by decide)),
    if_neg (other _ (by decide) (by decide)), if_neg (other _ (by decide) (by decide)),
    if_neg (other _ (by decide) (by decide))]

theorem exec_staAbs_of_ppuWrite_fault {w : Word} {f : FaultValue} (h : 0x2000 ≤ w.toNat) (h' : w.toNat < 0x4000)
    (hf : ppuWrite s.ppu w s.a = .error f) : Faults (.staAbs w) s f := by
  rw [Faults, exec_staAbs_ppuPort s h h', hf, orRaise_error]
  rfl

/-- Settles O50: a port the source does not list is none of the seven. -/
theorem unlistedPortsFault : Obligations.UnlistedPortsFault :=
  fun s _ h h' hu => exec_staAbs_of_ppuWrite_fault h h' (ppuWrite_unlisted hu s.ppu s.a)

/-! ### The address port (R188 to R190) -/

theorem exec_staAbs_addressPort (s : State) : exec (.staAbs 0x2006) s = .next (s.setPpu (writeVaddr s.ppu s.a)) :=
  exec_staAbs_of_ppuWrite (by decide) (by decide) rfl

theorem writeVaddr_high (h : p.latch = .awaitingHighByte) (v : Byte) :
    writeVaddr p v = (p.setVaddr (wordOfBytes 0x00 v)).setLatch .awaitingLowByte := by
  rw [writeVaddr, h]

theorem writeVaddr_low (h : p.latch = .awaitingLowByte) (v : Byte) :
    writeVaddr p v = (p.setVaddr (wordOfBytes v (highByte p.vaddr))).setLatch .awaitingHighByte := by
  rw [writeVaddr, h]

/-- The high byte over a zero low byte, as a number. -/
theorem wordOfBytes_zero_low (hi : Byte) : wordOfBytes 0x00 hi = BitVec.ofNat 16 (hi.toNat * 256) := by
  apply BitVec.eq_of_toNat_eq
  have h := hi.isLt
  have h0 : (0x00 : Byte).toNat = 0 := rfl
  rw [wordOfBytes_toNat, BitVec.toNat_ofNat, h0]
  omega

/-- A word with its low byte replaced, as a number. -/
theorem wordOfBytes_highByte (lo : Byte) (w : Word) :
    wordOfBytes lo (highByte w) = BitVec.ofNat 16 (w.toNat / 256 * 256 + lo.toNat) := by
  apply BitVec.eq_of_toNat_eq
  have hw := w.isLt
  have hl := lo.isLt
  rw [wordOfBytes_toNat, highByte_toNat, BitVec.toNat_ofNat]
  omega

/-- Settles O46, by the two states of the latch. -/
theorem vramAddressPortLatches : Obligations.VramAddressPortLatches := by
  refine fun s => ⟨fun h => ?_, fun h => ?_⟩
  · rw [exec_staAbs_addressPort, writeVaddr_high h, wordOfBytes_zero_low]
    rfl
  · rw [exec_staAbs_addressPort, writeVaddr_low h, wordOfBytes_highByte]
    rfl

/-- The first write of a pair: the high byte, over zero. -/
theorem writeVaddr_first (h : p.latch = .awaitingHighByte) (v : Byte) :
    (writeVaddr p v).vaddr.toNat = v.toNat * 256 ∧ highByte (writeVaddr p v).vaddr = v ∧
      (writeVaddr p v).latch = .awaitingLowByte := by
  rw [writeVaddr_high h]
  exact ⟨(wordOfBytes_toNat 0x00 v).trans (Nat.add_zero _), highByte_wordOfBytes 0x00 v, rfl⟩

/-- The second write: the low byte, under the high byte that stands there. -/
theorem writeVaddr_second (h : p.latch = .awaitingLowByte) (v : Byte) :
    (writeVaddr p v).vaddr.toNat = (highByte p.vaddr).toNat * 256 + v.toNat ∧
      (writeVaddr p v).latch = .awaitingHighByte := by
  rw [writeVaddr_low h]
  exact ⟨wordOfBytes_toNat v (highByte p.vaddr), rfl⟩

/-- Settles O47: the second write keeps the high byte the first one left, and sets the latch back. -/
theorem twoAddressWritesFormTheAddress : Obligations.TwoAddressWritesFormTheAddress := by
  intro s hi lo third h
  obtain ⟨-, hhigh, hl1⟩ := writeVaddr_first h hi
  obtain ⟨haddr, hl2⟩ := writeVaddr_second hl1 lo
  obtain ⟨hthird, -, hl3⟩ := writeVaddr_first hl2 third
  rw [hhigh] at haddr
  exact ⟨_, _, _, exec_staAbs_addressPort _, exec_staAbs_addressPort _, haddr, hl2, exec_staAbs_addressPort _, hthird, hl3⟩

/-! ### The data port (R191 to R198) -/

theorem writeVdata_of_ok (h : vramWrite p p.vaddr v = .ok q) : writeVdata p v = .ok (q.setVaddr (p.vaddr + p.increment)) := by
  rw [writeVdata, h]
  rfl

theorem writeVdata_of_error {f : FaultValue} (h : vramWrite p p.vaddr v = .error f) : writeVdata p v = .error f := by
  rw [writeVdata, h]
  rfl

/-- A store to the data port that the classification accepts. -/
theorem exec_staAbs_dataPort (h : vramWrite s.ppu s.ppu.vaddr s.a = .ok q) :
    exec (.staAbs 0x2007) s = .next (s.setPpu (q.setVaddr (s.ppu.vaddr + s.ppu.increment))) :=
  exec_staAbs_of_ppuWrite (by decide) (by decide) (writeVdata_of_ok h)

theorem exec_staAbs_dataPort_fault {f : FaultValue} (h : vramWrite s.ppu s.ppu.vaddr s.a = .error f) :
    Faults (.staAbs 0x2007) s f :=
  exec_staAbs_of_ppuWrite_fault (by decide) (by decide) (writeVdata_of_error h)

/-- The mirror rule as arithmetic: every fourth entry is shared between the two halves of palette RAM (R196). -/
theorem palIndex_mod (a : Nat) : palIndex (a % 32) = if a % 4 = 0 then a % 16 else a % 32 := by
  unfold palIndex
  split <;> split <;> omega

theorem vramWrite_palette {a : Word} (h : 0x3F00 ≤ a.toNat) (h' : a.toNat < 0x4000) (p : Ppu) (v : Byte) :
    vramWrite p a v = .ok (p.setPal (Cells.write p.pal (palIndex (a.toNat % 32)) v)) := by
  rw [vramWrite_eq, if_neg (by omega), if_neg (by omega), if_neg (by omega), if_neg (by omega), if_neg (by omega), if_pos h']

/-- Settles O48: the classification is one chain of ranges (`vramWrite_eq`), and the increment is bit 2's. -/
theorem vramDataPortByAddress : Obligations.VramDataPortByAddress := by
  intro s
  have hinc := (controlSelectsIncrementAndBase s.ppu).1
  have ok : ∀ q, vramWrite s.ppu s.ppu.vaddr s.a = .ok q → exec (.staAbs 0x2007) s = .next (s.setPpu (q.setVaddr
      (s.ppu.vaddr + (if s.ppu.ctrl.toNat / 4 % 2 = 1 then 0x0020 else 0x0001)))) := fun q hq => by
    rw [← hinc]
    exact exec_staAbs_dataPort hq
  have hclass := vramWrite_eq s.ppu s.ppu.vaddr s.a
  refine ⟨fun h => ?_, fun h h' => ?_, fun h h' => ?_, fun h h' => ?_, fun h h' => ?_, fun h h' => ?_, fun h => ?_⟩
  · exact ok s.ppu (by rw [hclass, if_pos h])
  · exact ok _ (by rw [hclass, if_neg (by omega), if_pos h'])
  · exact exec_staAbs_dataPort_fault (by rw [hclass, if_neg (by omega), if_neg (by omega), if_pos h'])
  · exact ok _ (by rw [hclass, if_neg (by omega), if_neg (by omega), if_neg (by omega), if_pos h'])
  · exact exec_staAbs_dataPort_fault
      (by rw [hclass, if_neg (by omega), if_neg (by omega), if_neg (by omega), if_neg (by omega), if_pos h'])
  · rw [← palIndex_mod]
    exact ok _ (vramWrite_palette h h' s.ppu s.a)
  · exact exec_staAbs_dataPort_fault (by rw [hclass, if_neg (by omega), if_neg (by omega), if_neg (by omega),
      if_neg (by omega), if_neg (by omega), if_neg (by omega)])

/-- Settles O49: the store wrote the cell `PalIndex` selects, which a mirrored index shares with the one 0x10 below. -/
theorem paletteMirrorReadsBack : Obligations.PaletteMirrorReadsBack := by
  intro s t hwf h h' he
  rw [exec_staAbs_dataPort (vramWrite_palette h h' s.ppu s.a)] at he
  cases he
  have same : ∀ k, palIndex (s.ppu.vaddr.toNat % 32) = k →
      Cells.read (Cells.write s.ppu.pal (palIndex (s.ppu.vaddr.toNat % 32)) s.a) k = s.a := fun k hk => by
    rw [hk]
    exact Cells.read_write_same k s.a hwf
  refine ⟨same _ rfl, fun hm => same _ ?_, fun hm => same _ ?_, fun hm => same _ ?_, fun hm => same _ ?_,
    fun i _ hi => Cells.read_write_other s.a hi⟩
  all_goals rw [hm]; rfl

end Sys2Proof.Machine

/-! PROOFS. Frames: what each kind of instruction leaves alone (`41_load_store.md`, `42_register_ops.md`,
`43_control_and_flag.md`, `44_ppu_register_port.md`). -/

namespace Sys2Proof.Machine

variable {s t : State} {i : Instr} {addr : Word}

/-! ### Loads, increments and decrements (`10_state.md` R21, R22, R26) -/

theorem State.reg_loaded_other {r q : Reg} (h : q ≠ r) (s : State) (v : Byte) : (s.loaded r v).reg q = s.reg q :=
  match r, q, h with
  | .a, .x, _ | .a, .y, _ | .x, .a, _ | .x, .y, _ | .y, .a, _ | .y, .x, _ => rfl
  | .a, .a, h | .x, .x, h | .y, .y, h => absurd rfl h

/-- Memory is the same where work RAM, the PPU and the launch data are. -/
theorem SameMemory.of_eq (hr : t.ram = s.ram) (hq : t.ppu = s.ppu) (hc : t.cart = s.cart) (hp : t.params = s.params) :
    SameMemory s t := by
  refine ⟨memRead_congr hr hc hp, ?_⟩
  rw [hq]
  exact ⟨fun _ => rfl, fun _ => rfl, fun _ => rfl, fun _ => rfl⟩

/-- Settles O39: the state is one in which the destination was loaded with some value (`exec_next_of_destination`). -/
theorem loadAndCountFrame : Obligations.LoadAndCountFrame := by
  intro s t i r hd h
  obtain ⟨v, rfl⟩ := exec_next_of_destination hd h
  have hram := State.loaded_ram s r v
  have hppu := State.loaded_ppu s r v
  have hcart := State.loaded_cart s r v
  have hparams := State.loaded_params s r v
  refine ⟨fun q hq => State.reg_loaded_other hq s v, State.loaded_sp s r v, State.loaded_pc s r v, ?_, hram, hppu, hcart,
    hparams, State.loaded_halted s r v, .of_eq hram hppu hcart hparams⟩
  rw [State.loaded_flags]
  rfl

/-! ### TXS, JMP, BNE and SEI -/

/-- Settles O41: an instruction with no destination and no address to store at wrote SP, PC or the interrupt-disable flag. -/
theorem transferAndControlFrame : Obligations.TransferAndControlFrame := by
  intro s t i hd hs h
  cases exec_effect h with
  | loaded r v hr => exact nomatch hd.symm.trans hr
  | bumped r d hr => exact nomatch hd.symm.trans hr
  | stored addr ha _ => exact nomatch hs.symm.trans ha
  | sp ht _ _ =>
    exact ⟨rfl, rfl, rfl, fun hn => absurd ht hn, fun _ => rfl, fun _ => rfl, rfl, rfl, rfl, rfl, rfl, rfl,
      .of_eq rfl rfl rfl rfl⟩
  | pc v ht hi _ _ =>
    exact ⟨rfl, rfl, rfl, fun _ => rfl, fun hm => (hm.elim ht hi).elim, fun _ => rfl, rfl, rfl, rfl, rfl, rfl, rfl,
      .of_eq rfl rfl rfl rfl⟩
  | sei hi _ _ =>
    exact ⟨rfl, rfl, rfl, fun _ => rfl, fun _ => rfl, fun hn => absurd hi hn, rfl, rfl, rfl, rfl, rfl, rfl,
      .of_eq rfl rfl rfl rfl⟩

/-! ### What a PPU port leaves alone (`44_ppu_register_port.md` R181 to R196) -/

/-- The registers and memory cells of `p` that a write to `addr` leaves alone, as `q` has them. -/
structure PortKeeps (addr : Word) (p q : Ppu) : Prop where
  ctrl : addr ≠ 0x2000 → q.ctrl = p.ctrl
  mask : addr ≠ 0x2001 → q.mask = p.mask
  oamaddr : addr ≠ 0x2003 → addr ≠ 0x2004 → q.oamaddr = p.oamaddr
  latch : addr ≠ 0x2006 → q.latch = p.latch
  vaddr : addr ≠ 0x2006 → addr ≠ 0x2007 → q.vaddr = p.vaddr
  oam : ∀ k, addr ≠ 0x2004 ∨ k ≠ p.oamaddr.toNat → Cells.read q.oam k = Cells.read p.oam k
  vram : ∀ k, addr ≠ 0x2007 ∨ k ≠ p.vaddr.toNat % 0x1000 → Cells.read q.vram k = Cells.read p.vram k
  pal : ∀ k, addr ≠ 0x2007 ∨ k ≠ palIndex (p.vaddr.toNat % 32) → Cells.read q.pal k = Cells.read p.pal k

theorem PortKeeps.refl (addr : Word) (p : Ppu) : PortKeeps addr p p :=
  ⟨fun _ => rfl, fun _ => rfl, fun _ _ => rfl, fun _ => rfl, fun _ _ => rfl, fun _ _ => rfl, fun _ _ => rfl, fun _ _ => rfl⟩

/-- The one cell a classified write can store: in palette RAM by the mirror rule, or in video RAM at the address modulo
0x1000, which both images of nametable space share (R194 to R197). -/
theorem vramWrite_ok_cell {p q : Ppu} {a : Word} {v : Byte} (h : vramWrite p a v = .ok q) :
    q = p ∨ q = p.setPal (Cells.write p.pal (palIndex (a.toNat % 32)) v) ∨
      q = p.setVram (Cells.write p.vram (a.toNat % 0x1000) v) := by
  rw [vramWrite_eq] at h
  split at h
  · exact .inl (Except.ok.inj h).symm
  split at h
  · rw [show a.toNat - 0x2000 = a.toNat % 0x1000 by omega] at h
    exact .inr (.inr (Except.ok.inj h).symm)
  split at h
  · exact nomatch h
  split at h
  · rw [show a.toNat - 0x3000 = a.toNat % 0x1000 by omega] at h
    exact .inr (.inr (Except.ok.inj h).symm)
  split at h
  · exact nomatch h
  split at h
  · exact .inr (.inl (Except.ok.inj h).symm)
  · exact nomatch h

theorem writeVdata_keeps {p q : Ppu} {v : Byte} (h : writeVdata p v = .ok q) : PortKeeps 0x2007 p q := by
  cases hw : vramWrite p p.vaddr v with
  | error f => exact nomatch (writeVdata_of_error hw).symm.trans h
  | ok r =>
    obtain rfl := Except.ok.inj ((writeVdata_of_ok hw).symm.trans h)
    have cell : ∀ {k j : Nat}, (0x2007 : Word) ≠ 0x2007 ∨ k ≠ j → k ≠ j := fun hk => hk.resolve_left (absurd rfl)
    rcases vramWrite_ok_cell hw with rfl | rfl | rfl
    · exact ⟨fun _ => rfl, fun _ => rfl, fun _ _ => rfl, fun _ => rfl, fun _ hn => absurd rfl hn, fun _ _ => rfl,
        fun _ _ => rfl, fun _ _ => rfl⟩
    · exact ⟨fun _ => rfl, fun _ => rfl, fun _ _ => rfl, fun _ => rfl, fun _ hn => absurd rfl hn, fun _ _ => rfl,
        fun _ _ => rfl, fun _ hk => Cells.read_write_other v (cell hk)⟩
    · exact ⟨fun _ => rfl, fun _ => rfl, fun _ _ => rfl, fun _ => rfl, fun _ hn => absurd rfl hn, fun _ _ => rfl,
        fun _ hk => Cells.read_write_other v (cell hk), fun _ _ => rfl⟩

theorem writeVaddr_keeps (p : Ppu) (v : Byte) : PortKeeps 0x2006 p (writeVaddr p v) := by
  cases hl : p.latch
  · rw [writeVaddr_high hl]
    exact ⟨fun _ => rfl, fun _ => rfl, fun _ _ => rfl, absurd rfl, absurd rfl, fun _ _ => rfl, fun _ _ => rfl, fun _ _ => rfl⟩
  · rw [writeVaddr_low hl]
    exact ⟨fun _ => rfl, fun _ => rfl, fun _ _ => rfl, absurd rfl, absurd rfl, fun _ _ => rfl, fun _ _ => rfl, fun _ _ => rfl⟩

theorem writeOamData_keeps {p q : Ppu} {v : Byte} (h : writeOamData p v = .ok q) : PortKeeps 0x2004 p q := by
  obtain rfl := Except.ok.inj ((writeOamData_eq p v).symm.trans h)
  exact ⟨fun _ => rfl, fun _ => rfl, fun _ hn => absurd rfl hn, fun _ => rfl, fun _ _ => rfl,
    fun _ hk => Cells.read_write_other v (hk.resolve_left (absurd rfl)), fun _ _ => rfl, fun _ _ => rfl⟩

/-- Each port leaves alone what is not its own. -/
theorem ppuWrite_keeps {p q : Ppu} {v : Byte} (h : ppuWrite p addr v = .ok q) : PortKeeps addr p q := by
  unfold ppuWrite at h
  split at h
  · subst addr; cases h
    exact { PortKeeps.refl _ p with ctrl := absurd rfl }
  split at h
  · subst addr; cases h
    exact { PortKeeps.refl _ p with mask := absurd rfl }
  split at h
  · subst addr; cases h
    exact { PortKeeps.refl _ p with oamaddr := absurd rfl }
  split at h
  · subst addr
    exact writeOamData_keeps h
  split at h
  · cases h
    exact .refl addr p
  split at h
  · subst addr; cases h
    exact writeVaddr_keeps p v
  split at h
  · subst addr
    exact writeVdata_keeps h
  · exact nomatch h

/-! ### STA (`41_load_store.md` R153) -/

theorem region_workRam {a : Word} (h : region a = .workRam) : a.toNat < 0x2000 := by
  by_contra hn
  rw [region_eq, if_neg hn] at h
  repeat' split at h
  all_goals exact nomatch h

theorem region_ppuPort {a : Word} (h : region a = .ppuPort) : 0x2000 ≤ a.toNat ∧ a.toNat < 0x4000 := by
  rw [region_eq] at h
  split at h
  · exact nomatch h
  split at h
  · exact ⟨by omega, ‹_›⟩
  repeat' split at h
  all_goals exact nomatch h

/-- A bus write reaches the PPU through the port region only. -/
theorem memWrite_ppu {v : Byte} (h : memWrite s addr v = .ok t) :
    t.ppu = s.ppu ∨ (0x2000 ≤ addr.toNat ∧ addr.toNat < 0x4000) ∧ ppuWrite s.ppu addr v = .ok t.ppu := by
  rcases memWrite_cases h with ⟨-, -, rfl⟩ | ⟨hr, q, hq, rfl⟩ | ⟨-, -, rfl⟩
  · exact .inl rfl
  · exact .inr ⟨region_ppuPort hr, hq⟩
  · exact .inl rfl

theorem memWrite_keeps {v : Byte} (h : memWrite s addr v = .ok t) : PortKeeps addr s.ppu t.ppu := by
  rcases memWrite_ppu h with hq | ⟨-, hq⟩
  · rw [hq]
    exact .refl addr s.ppu
  · exact ppuWrite_keeps hq

/-- A bus write changes what the bus reads at the images of its address in work RAM only. -/
theorem memRead_after_memWrite {v : Byte} {other : Word} (h : memWrite s addr v = .ok t)
    (ho : ¬ (addr.toNat < 0x2000 ∧ other.toNat < 0x2000 ∧ ramIndex s other = ramIndex s addr)) :
    memRead t other = memRead s other := by
  rcases memWrite_cases h with ⟨hr, -, rfl⟩ | ⟨-, q, -, rfl⟩ | ⟨-, -, rfl⟩
  · exact memRead_setRam_write_other v fun hi => ho ⟨region_workRam hr, hi⟩
  · exact memRead_congr rfl rfl rfl other
  · rfl

/-- An instruction with an address to store at is one bus write of A there. -/
theorem exec_next_of_storeAddress {ea : Except FaultValue Word} (hs : storeAddress s i = some ea) (h : exec i s = .next t) :
    ∃ addr, ea = .ok addr ∧ memWrite s addr s.a = .ok t := by
  have hd := destination_eq_none_of_storeAddress hs
  cases exec_effect h with
  | loaded r v hr => exact nomatch hd.symm.trans hr
  | bumped r d hr => exact nomatch hd.symm.trans hr
  | stored addr ha hw => exact ⟨addr, Option.some.inj (hs.symm.trans ha), hw⟩
  | sp _ _ hn => exact nomatch hs.symm.trans hn
  | pc v _ _ _ hn => exact nomatch hs.symm.trans hn
  | sei _ _ hn => exact nomatch hs.symm.trans hn

/-- Settles O40: STA is one bus write, which leaves the CPU and the launch data alone (`memWrite_leaves`), the bytes at other
addresses (`memRead_after_memWrite`), and of the PPU what is not its port's (`memWrite_keeps`). -/
theorem storeFrame : Obligations.StoreFrame := by
  intro s t i ea hs h
  obtain ⟨addr, rfl, hw⟩ := exec_next_of_storeAddress hs h
  obtain ⟨ha, hx, hy, hsp, hpc, hf, hc, hp, hh, hframe⟩ := memWrite_leaves hw
  have hk := memWrite_keeps hw
  exact ⟨addr, rfl, ha, hx, hy, hsp, hpc, hf, hc, hp, hh, fun other => memRead_after_memWrite hw,
    fun hn => (memWrite_ppu hw).resolve_right fun hq => hn hq.1, hk.ctrl, hk.mask, hk.oamaddr, hk.latch, hk.vaddr,
    hk.oam, hk.vram, hk.pal, hframe.dot, hframe.scanline, hframe.tiles, hframe.frame⟩

end Sys2Proof.Machine

/-! PROOFS. The PPU's `advance` (`45_ppu_render_pipeline.md`): the counters, what it writes, and what it does not read. -/

namespace Sys2Proof.Machine

variable {s s' t : State} {n : Nat}

/-! ### The counters (R211 to R214) -/

theorem advance_below (h : s.ppu.dot + n < 341) : advance n s = .next (accumulate n s) := if_neg (by omega)

/-- Settles O51: below 341 dots `advance` only accumulates. -/
theorem advanceBelowTheWrap : Obligations.AdvanceBelowTheWrap := fun _ _ h => advance_below h

/-- At a scanline that is no band's and not the frame's last, a wrap moves the counters alone. -/
theorem advance_wrap_alone (hw : 341 ≤ s.ppu.dot + n) (h261 : s.ppu.scanline ≠ 261)
    (hband : 240 < s.ppu.scanline + 1 ∨ (s.ppu.scanline + 1) % 8 ≠ 0) :
    advance n s = .next { s with ppu := { s.ppu with
      dot := s.ppu.dot + n - Config.dotWrapSub, scanline := s.ppu.scanline + 1,
      tiles := if s.ppu.scanline = 0 then [] else s.ppu.tiles } } := by
  rw [advance, if_pos hw, dotWrap, bandStep_none, andThen, frameStep_none]
  · rfl
  · show s.ppu.scanline + 1 ≠ 262
    omega
  · show ¬ (s.ppu.scanline + 1 ≤ 240 ∧ (s.ppu.scanline + 1) % 8 = 0)
    omega

/-- Settles O52: neither the band step nor the frame step has anything to do. -/
theorem advanceWrapsTheDotCounter : Obligations.AdvanceWrapsTheDotCounter :=
  fun _ _ hw h261 hband => ⟨dotWrapSub_cases, advance_wrap_alone hw h261 hband⟩

/-! ### What `advance` writes (R210) -/

/-- States that agree but for the pipeline state differ in four fields of the PPU. -/
theorem PipelineOnly.eq (h : PipelineOnly s t) : t = { s with ppu := { s.ppu with
    dot := t.ppu.dot, scanline := t.ppu.scanline, tiles := t.ppu.tiles, frame := t.ppu.frame } } := by
  obtain ⟨ha, hx, hy, hsp, hpc, hflags, hram, hcart, hparams, hhalted, hctrl, hmask, hlatch, hvaddr, hoamaddr, hvram, hoam,
    hpal⟩ := h
  dsimp only
  rw [← ha, ← hx, ← hy, ← hsp, ← hpc, ← hflags, ← hram, ← hcart, ← hparams, ← hhalted, ← hctrl, ← hmask, ← hlatch, ← hvaddr,
    ← hoamaddr, ← hvram, ← hoam, ← hpal]

/-- Settles O57: the laws `advance_next` and `advance_fault` say that the pipeline state alone moves. -/
theorem advanceTouchesThePipelineOnly : Obligations.AdvanceTouchesThePipelineOnly := by
  refine fun s t n => ⟨fun h => (advance_next h).1.eq, fun f h => ?_⟩
  obtain ⟨v, u, hr, hp⟩ := advance_fault h
  obtain ⟨rfl, rfl⟩ := Fault.raised.inj hr
  exact congrArg (State.setHalted · (some f)) hp.eq

/-! ### What `advance` reads (R210): states that agree there are advanced alike -/

theorem buildTile_congr (h : SamePipelineInput s s') (col : Fin 32) (row : Fin 30) (off : Nat) :
    buildTile s' col row off = buildTile s col row off := by
  obtain ⟨hctrl, hvram, -, -, -, -, -, hchr, hbanks, -⟩ := h
  have hread : chrRead s' = chrRead s := by
    funext i
    simp only [chrRead, capacity, hchr, hbanks]
  have hbase : patternBase s'.ppu = patternBase s.ppu := by
    funext pidx
    simp only [patternBase, Ppu.bgBase, hctrl]
  have hrow : pixelRowAt s' = pixelRowAt s := by
    funext base y
    simp only [pixelRowAt, hread]
  simp only [buildTile, pixelMatrix, hvram, hbase, hrow]

theorem colour_congr {p q : Ppu} (h : q.pal = p.pal) : colour q = colour p := by
  funext sel px
  simp only [colour, h]

/-- From states that agree on what `advance` reads, `k` answers states that do. -/
def KeepsAgreement (k : State → Result) : Prop :=
  ∀ ⦃s s' t : State⦄, SamePipelineInput s s' → k s = .next t → ∃ t', k s' = .next t' ∧ SamePipelineInput t t'

theorem KeepsAgreement.andThen {k l : State → Result} (hk : KeepsAgreement k) (hl : KeepsAgreement l) :
    KeepsAgreement fun s => andThen (k s) l := by
  intro s s' t hs h
  obtain ⟨u, hu, ht⟩ := andThen_next.mp h
  obtain ⟨u', hu', hsame⟩ := hk hs hu
  obtain ⟨t', ht', hsame'⟩ := hl hsame ht
  exact ⟨t', andThen_next.mpr ⟨u', hu', ht'⟩, hsame'⟩

/-- An access that agreeing states answer alike, then an operation that keeps the agreement for each value. -/
theorem KeepsAgreement.orRaise {α : Type} {r : State → Except FaultValue α} {k : α → State → Result}
    (hr : ∀ ⦃s s' : State⦄, SamePipelineInput s s' → r s' = r s) (hk : ∀ v, KeepsAgreement (k v)) :
    KeepsAgreement fun s => orRaise (r s) s fun v => k v s := by
  intro s s' t hs h
  obtain ⟨v, hv, ht⟩ := orRaise_next.mp h
  obtain ⟨t', ht', hsame⟩ := hk v hs ht
  exact ⟨t', orRaise_next.mpr ⟨v, (hr hs).trans hv, ht'⟩, hsame⟩

/-- A total update that keeps the agreement, before an operation that does. -/
theorem KeepsAgreement.after {k : State → Result} {g : State → State} (hk : KeepsAgreement k)
    (hg : ∀ ⦃s s' : State⦄, SamePipelineInput s s' → SamePipelineInput (g s) (g s')) : KeepsAgreement fun s => k (g s) :=
  fun _ _ _ hs h => hk (hg hs) h

theorem KeepsAgreement.next : KeepsAgreement .next :=
  fun _ s' _ hs h => ⟨s', rfl, Host.Outcome.next.inj h ▸ hs⟩

section
variable (h : SamePipelineInput s s')
include h

theorem SamePipelineInput.setTiles (g : List Tile → List Tile) :
    SamePipelineInput (s.setPpu (s.ppu.setTiles (g s.ppu.tiles))) (s'.setPpu (s'.ppu.setTiles (g s'.ppu.tiles))) := by
  obtain ⟨hctrl, hvram, hpal, hdot, hline, htiles, hframe, hrest⟩ := h
  exact ⟨hctrl, hvram, hpal, hdot, hline, congrArg g htiles, hframe, hrest⟩

theorem SamePipelineInput.setFrame (g : FrameBuffer → FrameBuffer) :
    SamePipelineInput (s.setPpu (s.ppu.setFrame (g s.ppu.frame))) (s'.setPpu (s'.ppu.setFrame (g s'.ppu.frame))) := by
  obtain ⟨hctrl, hvram, hpal, hdot, hline, htiles, hframe, hrest⟩ := h
  exact ⟨hctrl, hvram, hpal, hdot, hline, htiles, congrArg g hframe, hrest⟩

theorem SamePipelineInput.setScanline (k : Nat) :
    SamePipelineInput (s.setPpu (s.ppu.setScanline k)) (s'.setPpu (s'.ppu.setScanline k)) := by
  obtain ⟨hctrl, hvram, hpal, hdot, hline, hrest⟩ := h
  exact ⟨hctrl, hvram, hpal, hdot, rfl, hrest⟩

theorem SamePipelineInput.wrap :
    SamePipelineInput (s.setPpu ((s.ppu.setDot (s.ppu.dot - Config.dotWrapSub)).setScanline (s.ppu.scanline + 1)))
      (s'.setPpu ((s'.ppu.setDot (s'.ppu.dot - Config.dotWrapSub)).setScanline (s'.ppu.scanline + 1))) := by
  obtain ⟨hctrl, hvram, hpal, hdot, hline, hrest⟩ := h
  exact ⟨hctrl, hvram, hpal, congrArg (· - Config.dotWrapSub) hdot, congrArg (· + 1) hline, hrest⟩

theorem SamePipelineInput.accumulate (n : Nat) : SamePipelineInput (accumulate n s) (accumulate n s') := by
  obtain ⟨hctrl, hvram, hpal, hdot, hline, htiles, hrest⟩ := h
  refine ⟨hctrl, hvram, hpal, congrArg (· + n) hdot, hline, ?_, hrest⟩
  show (if s'.ppu.scanline = 0 then [] else s'.ppu.tiles) = if s.ppu.scanline = 0 then [] else s.ppu.tiles
  rw [hline, htiles]

end

theorem appendTiles_keepsAgreement (row : Fin 30) (cols : List (Fin 32)) : KeepsAgreement (appendTiles row cols) := by
  induction cols with
  | nil => exact .next
  | cons col cols ih =>
    refine .orRaise (r := fun s => buildTile s col row s.params.ntOffset) (fun s s' h => ?_)
      fun tile => ih.after fun s s' h => h.setTiles (· ++ [tile])
    obtain ⟨-, -, -, -, -, -, -, -, -, hoff⟩ := id h
    rw [hoff]
    exact buildTile_congr h col row _

theorem plotPixels_keepsAgreement (tile : Tile) (ps : List (Fin 8 × Fin 8)) : KeepsAgreement (plotPixels tile ps) := by
  induction ps with
  | nil => exact .next
  | cons p ps ih =>
    refine .orRaise (r := fun s => colour s.ppu tile.sel tile.px[p.1][p.2]) (fun s s' h => ?_)
      fun c => ih.after fun s s' h => h.setFrame (Cells.write · (frameIndex tile p.1 p.2) c)
    obtain ⟨-, -, hpal, -⟩ := h
    rw [colour_congr hpal]

theorem plotTiles_keepsAgreement (ts : List Tile) : KeepsAgreement (plotTiles ts) := by
  induction ts with
  | nil => exact .next
  | cons tile ts ih => exact (plotPixels_keepsAgreement tile pixelPositions).andThen ih

theorem render_keepsAgreement : KeepsAgreement render := by
  intro s s' t hs h
  obtain ⟨-, -, -, -, -, htiles, -⟩ := id hs
  have hplot := (plotTiles_keepsAgreement s.ppu.tiles).andThen (KeepsAgreement.next.after fun s s' h => h.setTiles fun _ => [])
  rw [render, htiles]
  exact hplot hs h

theorem bandStep_keepsAgreement : KeepsAgreement bandStep := by
  intro s s' t hs h
  obtain ⟨-, -, -, -, hline, -⟩ := id hs
  unfold bandStep at h ⊢
  simp only [hline]
  split at h
  · next hb =>
    rw [dif_pos hb]
    exact appendTiles_keepsAgreement _ _ hs h
  · next hb =>
    rw [dif_neg hb]
    exact KeepsAgreement.next hs h

theorem frameStep_keepsAgreement : KeepsAgreement frameStep := by
  intro s s' t hs h
  obtain ⟨-, -, -, -, hline, -⟩ := id hs
  unfold frameStep at h ⊢
  rw [hline]
  split at h
  · next he =>
    rw [if_pos he]
    exact render_keepsAgreement (hs.setScanline 0) h
  · next he =>
    rw [if_neg he]
    exact KeepsAgreement.next hs h

theorem dotWrap_keepsAgreement : KeepsAgreement dotWrap :=
  (bandStep_keepsAgreement.after fun _ _ h => h.wrap).andThen frameStep_keepsAgreement

theorem advance_keepsAgreement (n : Nat) : KeepsAgreement (advance n) := by
  intro s s' t hs h
  obtain ⟨-, -, -, hdot, -⟩ := id hs
  unfold advance at h ⊢
  rw [hdot]
  split at h
  · next hw =>
    rw [if_pos hw]
    exact dotWrap_keepsAgreement (hs.accumulate n) h
  · next hw =>
    rw [if_neg hw]
    exact KeepsAgreement.next (hs.accumulate n) h

/-- Settles O58: the next states agree on everything `advance` reads, the counters, the tiles and the frame among it. -/
theorem advanceIgnoresWhatItDoesNotRead : Obligations.AdvanceIgnoresWhatItDoesNotRead := by
  intro s s' t n hs h
  obtain ⟨t', ht', -, -, -, hdot, hline, htiles, hframe, -⟩ := advance_keepsAgreement n hs h
  exact ⟨t', ht', hdot, hline, htiles, hframe⟩

/-! ### The block id (R219) -/

/-- Settles O60: the id is twice the tile row's half of the 4×4 area plus the column's. -/
theorem blockIdNamesOneOfFourBlocks : Obligations.BlockIdNamesOneOfFourBlocks := by
  intro col col' row row'
  unfold blockId
  refine ⟨by omega, fun hc hr => by omega, ?_, ?_, ?_, ?_⟩ <;> omega

end Sys2Proof.Machine

/-! PROOFS. Tile building and the band (`45_ppu_render_pipeline.md` R215 to R224, R229): the 32 tiles of a tile row, or those
before the first one past video RAM. -/

namespace Sys2Proof.Machine

variable {s : State} {col row : Nat}

/-! ### The pixel indices (R223) -/

/-- A byte of character ROM, which a bank holds below 0x2000. -/
theorem chrRead_of_bank (h : 1 ≤ s.cart.chrBanks) {i : Nat} (hi : i < 0x2000) :
    chrRead s i = .ok (Cells.read s.cart.chr i) := by
  refine storeRead_of_lt ?_ .chr s.cart.chr
  show i < s.cart.chrBanks * 8192
  omega

theorem pixelRowAt_of_bank (h : 1 ≤ s.cart.chrBanks) {base y : Nat} (hi : base + 8 + y < 0x2000) :
    pixelRowAt s base y =
      .ok (pixelRow (Cells.read s.cart.chr (base + y)) (Cells.read s.cart.chr (base + 8 + y))) := by
  rw [pixelRowAt, chrRead_of_bank h (by omega), chrRead_of_bank h hi]

/-- Every pattern of the two tables lies in one bank. -/
theorem patternBase_lt (p : Ppu) (pidx : Byte) : patternBase p pidx + 15 < 0x2000 := by
  have := pidx.isLt
  unfold patternBase Ppu.bgBase
  split <;> omega

/-- The pixel indices of the pattern that begins at `base` in character ROM. -/
def patternAt (s : State) (base : Nat) : PixelMatrix :=
  .ofFn fun y => pixelRow (Cells.read s.cart.chr (base + y.val)) (Cells.read s.cart.chr (base + 8 + y.val))

theorem pixelMatrix_of_bank (h : 1 ≤ s.cart.chrBanks) (pidx : Byte) :
    pixelMatrix s pidx = .ok (patternAt s (patternBase s.ppu pidx)) := by
  have hb := patternBase_lt s.ppu pidx
  have hrow : ∀ y < 8, pixelRowAt s (patternBase s.ppu pidx) y = .ok (pixelRow
      (Cells.read s.cart.chr (patternBase s.ppu pidx + y)) (Cells.read s.cart.chr (patternBase s.ppu pidx + 8 + y))) :=
    fun y hy => pixelRowAt_of_bank h (by omega)
  unfold pixelMatrix
  rw [hrow 0 (by decide), hrow 1 (by decide), hrow 2 (by decide), hrow 3 (by decide), hrow 4 (by decide),
    hrow 5 (by decide), hrow 6 (by decide), hrow 7 (by decide)]
  rfl

theorem pixelRow_get (p0 p1 : Byte) (x : Fin 8) : (pixelRow p0 p1)[x] = pixelIndex p0 p1 x := by
  fin_cases x <;> rfl

/-- "Combined as plane1·2 + plane0", the bits as arithmetic. -/
theorem pixelIndex_toNat (p0 p1 : Byte) (x : Fin 8) :
    (pixelIndex p0 p1 x).toNat = 2 * (p1.toNat / 2 ^ (7 - x.val) % 2) + p0.toNat / 2 ^ (7 - x.val) % 2 := by
  have bit : ∀ b : Byte, (BitVec.ofBool (b.getLsbD (7 - x.val))).toNat = b.toNat / 2 ^ (7 - x.val) % 2 := fun b => by
    rw [getLsbD_eq_decide]
    rcases Nat.mod_two_eq_zero_or_one (b.toNat / 2 ^ (7 - x.val)) with h | h <;> simp [h]
  have hlow : (BitVec.ofBool (p0.getLsbD (7 - x.val))).toNat < 2 ^ 1 := BitVec.isLt _
  rw [pixelIndex, BitVec.toNat_append, ← Nat.shiftLeft_add_eq_or_of_lt hlow, Nat.shiftLeft_eq, bit, bit, Nat.mul_comm, Nat.pow_one]

theorem patternAt_get (s : State) (base : Nat) (y x : Fin 8) :
    ((patternAt s base)[y][x]).toNat =
      2 * ((Cells.read s.cart.chr (base + 8 + y.val)).toNat / 2 ^ (7 - x.val) % 2) +
        (Cells.read s.cart.chr (base + y.val)).toNat / 2 ^ (7 - x.val) % 2 := by
  have hrow : (patternAt s base)[y] =
      pixelRow (Cells.read s.cart.chr (base + y.val)) (Cells.read s.cart.chr (base + 8 + y.val)) :=
    Vector.getElem_ofFn y.isLt
  rw [hrow, pixelRow_get, pixelIndex_toNat]

/-! ### A tile (R218 to R224) -/

theorem paletteSelector_toNat (attr : Byte) (block : Nat) :
    (paletteSelector attr block).toNat = attr.toNat / 4 ^ block % 4 := by
  rw [paletteSelector, BitVec.toNat_setWidth, BitVec.toNat_ushiftRight, Nat.shiftRight_eq_div_pow, Nat.mul_comm block 2,
    Nat.pow_mul]

/-- The tile at a column and a row, as tile building gives it where nothing faults. -/
def State.tileAt (s : State) (col : Fin 32) (row : Fin 30) : Tile :=
  ⟨col, row, patternAt s (patternBase s.ppu (Cells.read s.ppu.vram (s.patternIndexAt col row))),
    paletteSelector (Cells.read s.ppu.vram (s.attributeByteAt col row)) (blockId col row), 0⟩

theorem buildTile_of_bank (h : 1 ≤ s.cart.chrBanks) {col : Fin 32} {row : Fin 30} (hin : s.TileInVram col row) :
    buildTile s col row s.params.ntOffset = .ok (s.tileAt col row) := by
  have hp : nametableIndex col row s.params.ntOffset = s.patternIndexAt col row := rfl
  have ha : attributeIndex col row s.params.ntOffset = s.attributeByteAt col row := rfl
  unfold buildTile
  rw [hp, ha, storeRead_of_lt hin.1, storeRead_of_lt hin.2]
  simp only [bind, Except.bind, pixelMatrix_of_bank h]
  rfl

/-- The video RAM index that faults where one of the two a tile reads is past video RAM: the first of them (R220, R221). -/
def State.tileFaultIndex (s : State) (col row : Nat) : Nat :=
  if 0x0800 ≤ s.patternIndexAt col row then s.patternIndexAt col row else s.attributeByteAt col row

theorem buildTile_past_vram {col : Fin 32} {row : Fin 30} (hout : ¬ s.TileInVram col row) :
    buildTile s col row s.params.ntOffset = .error (.storageOutOfRange .vram (s.tileFaultIndex col row)) := by
  have hp : nametableIndex col row s.params.ntOffset = s.patternIndexAt col row := rfl
  have ha : attributeIndex col row s.params.ntOffset = s.attributeByteAt col row := rfl
  unfold buildTile State.tileFaultIndex
  rw [hp, ha]
  split
  · next hpat =>
    rw [storeRead_of_le hpat]
    rfl
  · next hpat =>
    have hattr : 0x0800 ≤ s.attributeByteAt col row := by
      by_contra hn
      exact hout ⟨by omega, by omega⟩
    rw [storeRead_of_lt (by omega), storeRead_of_le hattr]
    rfl

theorem tileBuiltFrom_tileAt (s : State) (col : Fin 32) (row : Fin 30) : TileBuiltFrom s col row (s.tileAt col row) := by
  refine ⟨rfl, rfl, rfl, paletteSelector_toNat _ _, fun y x => ?_⟩
  rw [← (controlSelectsIncrementAndBase s.ppu).2]
  exact patternAt_get s _ y x

/-! ### A row of tiles (R216, R229) -/

/-- Appending tiles does not change what a tile is built from. -/
theorem buildTile_setTiles (s : State) (ts : List Tile) (col : Fin 32) (row : Fin 30) (off : Nat) :
    buildTile (s.setPpu (s.ppu.setTiles ts)) col row off = buildTile s col row off :=
  buildTile_congr ⟨rfl, rfl, rfl, rfl, rfl, rfl, rfl, rfl, rfl, rfl⟩ col row off

theorem appendTiles_append (row : Fin 30) (cols cols' : List (Fin 32)) (s : State) :
    appendTiles row (cols ++ cols') s = andThen (appendTiles row cols s) (appendTiles row cols') := by
  induction cols generalizing s with
  | nil => rfl
  | cons col cols ih =>
    rw [List.cons_append, appendTiles, appendTiles]
    cases buildTile s col row s.params.ntOffset with
    | error f => rfl
    | ok tile => exact ih _

/-- Columns whose tiles can be built are appended, each the tile `f` gives. -/
theorem appendTiles_of_ok {row : Fin 30} {cols : List (Fin 32)} {f : Fin 32 → Tile}
    (h : ∀ col ∈ cols, buildTile s col row s.params.ntOffset = .ok (f col)) :
    appendTiles row cols s = .next (s.setPpu (s.ppu.setTiles (s.ppu.tiles ++ cols.map f))) := by
  induction cols generalizing s with
  | nil =>
    rw [List.map_nil, List.append_nil]
    rfl
  | cons col cols ih =>
    rw [appendTiles, h col List.mem_cons_self, orRaise_ok, ih fun c hc => ?_]
    · simp [State.setPpu, Ppu.setTiles]
    · exact (buildTile_setTiles s _ c row _).trans (h c (List.mem_cons_of_mem _ hc))

/-- The first column whose tile faults ends the band, with the tiles before it appended. -/
theorem appendTiles_of_error {row : Fin 30} {cols rest : List (Fin 32)} {col : Fin 32} {f : Fin 32 → Tile} {e : FaultValue}
    (h : ∀ c ∈ cols, buildTile s c row s.params.ntOffset = .ok (f c))
    (he : buildTile s col row s.params.ntOffset = .error e) :
    appendTiles row (cols ++ col :: rest) s = raise e (s.setPpu (s.ppu.setTiles (s.ppu.tiles ++ cols.map f))) := by
  rw [appendTiles_append, appendTiles_of_ok h, andThen, appendTiles]
  exact congrArg (fun r => orRaise r _ _) ((buildTile_setTiles s _ col row _).trans he)

/-- The columns below `k`, in order. -/
def columnsBelow (k : Nat) : List (Fin 32) := bandColumns.take k

theorem length_columnsBelow {k : Nat} (h : k ≤ 32) : (columnsBelow k).length = k := by
  simp [columnsBelow, bandColumns, h]

theorem columnsBelow_get {k j : Nat} {col : Fin 32} (h : (columnsBelow k)[j]? = some col) : j < k ∧ col.val = j := by
  rw [columnsBelow, List.getElem?_take] at h
  split at h
  · next hj =>
    obtain ⟨hj', rfl⟩ := List.getElem?_eq_some_iff.mp h
    exact ⟨hj, by simp [bandColumns]⟩
  · exact nomatch h

theorem mem_columnsBelow {k : Nat} {col : Fin 32} (h : col ∈ columnsBelow k) : col.val < k := by
  obtain ⟨j, hj⟩ := List.mem_iff_getElem?.mp h
  obtain ⟨hlt, he⟩ := columnsBelow_get hj
  omega

theorem columnsBelow_all : columnsBelow 32 = bandColumns := List.take_of_length_le (by simp [bandColumns])

theorem bandColumns_split {k : Nat} (h : k < 32) : ∃ rest, bandColumns = columnsBelow k ++ ⟨k, h⟩ :: rest := by
  have hk : k < bandColumns.length := by simpa [bandColumns] using h
  refine ⟨bandColumns.drop (k + 1), ?_⟩
  have hget : bandColumns[k] = ⟨k, h⟩ := by simp [bandColumns]
  rw [← hget, List.cons_getElem_drop_succ, columnsBelow, List.take_append_drop]

/-- The tiles of the columns below `k` of a row. -/
def State.rowTiles (s : State) (row : Fin 30) (k : Nat) : List Tile := (columnsBelow k).map (s.tileAt · row)

theorem length_rowTiles (s : State) (row : Fin 30) {k : Nat} (h : k ≤ 32) : (s.rowTiles row k).length = k := by
  rw [State.rowTiles, List.length_map, length_columnsBelow h]

theorem tilesBuiltFrom_rowTiles (s : State) (row : Fin 30) (k : Nat) : TilesBuiltFrom s row (s.rowTiles row k) := by
  intro j tile h
  rw [State.rowTiles, List.getElem?_map, Option.map_eq_some_iff] at h
  obtain ⟨col, hcol, rfl⟩ := h
  rw [← (columnsBelow_get hcol).2]
  exact tileBuiltFrom_tileAt s col row

theorem buildBand_of_inVram (h : 1 ≤ s.cart.chrBanks) {row : Fin 30} (hin : ∀ col < 32, s.TileInVram col row) :
    buildBand row s = .next (s.setPpu (s.ppu.setTiles (s.ppu.tiles ++ s.rowTiles row 32))) := by
  rw [buildBand, ← columnsBelow_all]
  exact appendTiles_of_ok fun col _ => buildTile_of_bank h (hin col col.isLt)

theorem buildBand_past_vram (h : 1 ≤ s.cart.chrBanks) {row : Fin 30} {k : Nat} (hk : k < 32)
    (hin : ∀ col < k, s.TileInVram col row) (hout : ¬ s.TileInVram k row) :
    buildBand row s = raise (.storageOutOfRange .vram (s.tileFaultIndex k row))
      (s.setPpu (s.ppu.setTiles (s.ppu.tiles ++ s.rowTiles row k))) := by
  obtain ⟨rest, hsplit⟩ := bandColumns_split hk
  rw [buildBand, hsplit]
  exact appendTiles_of_error (fun col hc => buildTile_of_bank h (hin col (mem_columnsBelow hc)))
    (buildTile_past_vram (col := ⟨k, hk⟩) hout)

/-- Up to an `NT_OFFSET` of 0x400 the last index of the last row is still in video RAM. -/
theorem tileInVram_of_offset_le (h : s.params.ntOffset ≤ 0x400) (hcol : col < 32) (hrow : row < 30) :
    s.TileInVram col row := by
  unfold State.TileInVram State.patternIndexAt State.attributeByteAt
  omega

/-- The state in which a wrap begins its band: the counters moved. -/
def State.wrapped (s : State) (n : Nat) : State :=
  { s with ppu := { s.ppu with dot := s.ppu.dot + n - Config.dotWrapSub, scanline := s.ppu.scanline + 1 } }

/-- Settles O53: the wrap builds the band in the state with the counters moved, which a tile's building does not read. -/
theorem bandAppendsTheTileRow : Obligations.BandAppendsTheTileRow := by
  intro s n hbank hwrap hline h8
  obtain ⟨row, hrow, hadv⟩ : ∃ row : Fin 30, row.val = s.bandRow ∧
      advance n s = andThen (buildBand row (s.wrapped n)) frameStep :=
    ⟨⟨(s.ppu.scanline + 1) / 8 - 1, by omega⟩, rfl, advance_band hwrap hline h8⟩
  rw [← hrow, hadv]
  refine ⟨fun hin => ?_, fun k hk hin hout => ?_, fun hoff col hcol => tileInVram_of_offset_le hoff hcol row.isLt⟩
  · refine ⟨s.rowTiles row 32, length_rowTiles s row (by omega), tilesBuiltFrom_rowTiles s row 32, ?_⟩
    rw [buildBand_of_inVram (s := s.wrapped n) hbank hin, andThen, frameStep_none]
    · rfl
    · show s.ppu.scanline + 1 ≠ 262
      omega
  · refine ⟨s.rowTiles row k, _, length_rowTiles s row (by omega), tilesBuiltFrom_rowTiles s row k, rfl, ?_⟩
    rw [buildBand_past_vram (s := s.wrapped n) hbank hk hin hout]
    rfl

end Sys2Proof.Machine

/-! PROOFS. Frame rendering (`45_ppu_render_pipeline.md` R217, R225 to R229): the frame wrap as one list of pixels, each written
over those before it. -/

namespace Sys2Proof.Machine

variable {s t : State} {p : Ppu} {n : Nat}

/-! ### The pixels of a tile in the order of rendering (R225) -/

theorem mem_pixelPositions (y x : Fin 8) : (y, x) ∈ pixelPositions := by
  simp [pixelPositions]

/-- The order of `pixelPositions` is `PixelBefore`. -/
theorem pixelPositions_pairwise : pixelPositions.Pairwise fun q r => PixelBefore q.1 q.2 r.1 r.2 := by
  rw [pixelPositions, List.pairwise_flatMap]
  refine ⟨fun y _ => ?_, ?_⟩
  · rw [List.pairwise_map]
    exact (List.pairwise_lt_finRange 8).imp fun h => .inr ⟨rfl, h⟩
  · refine (List.pairwise_lt_finRange 8).imp fun {y y'} h q hq r hr => ?_
    obtain ⟨x, -, rfl⟩ := List.mem_map.mp hq
    obtain ⟨x', -, rfl⟩ := List.mem_map.mp hr
    exact .inl h

theorem PixelBefore.irrefl (y x : Fin 8) : ¬ PixelBefore y x y x := by
  unfold PixelBefore
  omega

theorem PixelBefore.asymm {y x y' x' : Fin 8} (h : PixelBefore y x y' x') : ¬ PixelBefore y' x' y x := by
  unfold PixelBefore at *
  omega

theorem pixelPositions_nodup : pixelPositions.Nodup :=
  List.nodup_iff_pairwise_ne.mpr (pixelPositions_pairwise.imp fun {q r} h he => by
    subst he
    exact PixelBefore.irrefl q.1 q.2 h)

/-- The pixels of a tile that come before one in the list are exactly those rendered before it. -/
theorem pixelPositions_split (y x : Fin 8) : ∃ pre post, pixelPositions = pre ++ (y, x) :: post ∧
    ∀ q, q ∈ pre ↔ PixelBefore q.1 q.2 y x := by
  obtain ⟨pre, post, hsplit⟩ := List.append_of_mem (mem_pixelPositions y x)
  have hpair := pixelPositions_pairwise
  rw [hsplit, List.pairwise_append, List.pairwise_cons] at hpair
  obtain ⟨-, ⟨hpost, -⟩, hpre⟩ := hpair
  refine ⟨pre, post, hsplit, fun q => ⟨fun hq => hpre q hq (y, x) List.mem_cons_self, fun hq => ?_⟩⟩
  have hmem : q ∈ pre ++ (y, x) :: post := hsplit ▸ mem_pixelPositions q.1 q.2
  rcases List.mem_append.mp hmem with h | h
  · exact h
  rcases List.mem_cons.mp h with rfl | h
  · exact absurd hq (PixelBefore.irrefl y x)
  · exact absurd hq (hpost q h).asymm

/-! ### A dot: a tile and one of its pixels -/

/-- One pixel of a tile, which rendering writes to one cell of the frame. -/
abbrev Dot := Tile × Fin 8 × Fin 8

/-- The frame cell of a dot (R225). -/
def Dot.cell (d : Dot) : Nat := frameIndex d.1 d.2.1 d.2.2

/-- The palette byte of a dot (R226). -/
def Dot.byte (p : Ppu) (d : Dot) : Byte := paletteByte p d.1 d.2.1 d.2.2

/-- The colour of a dot: its palette byte's entry in the colour table; 0 where there is none, and rendering faults. -/
def Dot.colour (p : Ppu) (d : Dot) : BitVec 32 :=
  if h : (d.byte p).toNat < 64 then Config.rgbTable ⟨_, h⟩ else 0

theorem colour_of_lt {d : Dot} (h : (d.byte p).toNat < 64) :
    Machine.colour p d.1.sel d.1.px[d.2.1][d.2.2] = .ok (d.colour p) := by
  rw [Dot.colour, dif_pos h]
  exact dif_pos h

theorem colour_of_le {d : Dot} (h : 64 ≤ (d.byte p).toNat) :
    Machine.colour p d.1.sel d.1.px[d.2.1][d.2.2] = .error (.storageOutOfRange .rgbTable (d.byte p).toNat) :=
  dif_neg (by exact Nat.not_lt.mpr h)

theorem Dot.colour_eq {d : Dot} {c : BitVec 32} (h : (d.byte p).toNat < 64) (hc : c = d.colour p) :
    ∃ h : (paletteByte p d.1 d.2.1 d.2.2).toNat < 64, c = Config.rgbTable ⟨_, h⟩ :=
  ⟨h, by rw [hc, Dot.colour, dif_pos h]; rfl⟩

/-- A dot's cell is a pixel of the screen that its tile covers, and no other. -/
theorem Dot.cell_eq_iff (d : Dot) (x : Fin 256) (y : Fin 240) :
    d.cell = y.val * 256 + x.val ↔ d.1.Covers x y ∧ d.2.1.val = y.val % 8 ∧ d.2.2.val = x.val % 8 := by
  unfold Dot.cell frameIndex Tile.Covers
  omega

/-- The pixels of one tile have cells of their own. -/
theorem frameIndex_inj {tile : Tile} {y x y' x' : Fin 8} (h : frameIndex tile y x = frameIndex tile y' x') :
    (y, x) = (y', x') := by
  unfold frameIndex at h
  have hy : y.val = y'.val := by omega
  have hx : x.val = x'.val := by omega
  exact Prod.ext (Fin.ext hy) (Fin.ext hx)

/-- The given pixels of a tile as dots. -/
def Tile.dotsAt (tile : Tile) (ps : List (Fin 8 × Fin 8)) : List Dot := ps.map fun q => (tile, q)

/-- The dots of a tile in the order of rendering. -/
def Tile.dots (tile : Tile) : List Dot := tile.dotsAt pixelPositions

/-- The dots of a sequence of tiles in the order of rendering. -/
def dotsOf (ts : List Tile) : List Dot := ts.flatMap Tile.dots

theorem dotsOf_append (ts us : List Tile) : dotsOf (ts ++ us) = dotsOf ts ++ dotsOf us := List.flatMap_append

theorem dotsOf_cons (tile : Tile) (ts : List Tile) : dotsOf (tile :: ts) = tile.dots ++ dotsOf ts := List.flatMap_cons

theorem mem_dotsOf {ts : List Tile} {d : Dot} : d ∈ dotsOf ts ↔ d.1 ∈ ts := by
  obtain ⟨tile, y, x⟩ := d
  simp [dotsOf, Tile.dots, Tile.dotsAt, mem_pixelPositions]

/-- Some dots of one more tile are dots of the sequence with it. -/
theorem mem_dotsOf_snoc {ts : List Tile} {tile : Tile} {ps : List (Fin 8 × Fin 8)} {d : Dot}
    (h : d ∈ dotsOf ts ++ tile.dotsAt ps) : d ∈ dotsOf (ts ++ [tile]) := by
  rw [mem_dotsOf, List.mem_append, List.mem_singleton]
  rcases List.mem_append.mp h with h | h
  · exact .inl (mem_dotsOf.mp h)
  · obtain ⟨q, -, rfl⟩ := List.mem_map.mp h
    exact .inr rfl

/-- Where no tile covers a pixel of the screen, no dot of theirs has its cell. -/
theorem cell_ne_of_not_covers {ts : List Tile} {x : Fin 256} {y : Fin 240} (h : ∀ u ∈ ts, ¬ u.Covers x y) :
    ∀ d ∈ dotsOf ts, d.cell ≠ y.val * 256 + x.val :=
  fun d hd he => h d.1 (mem_dotsOf.mp hd) ((d.cell_eq_iff x y).mp he).1

/-! ### Rendering as one pass over the dots (R225, R226, R229) -/

/-- Write the given dots one after the other; a fault leaves those already written. -/
def plotDots : List Dot → State → Result
  | [], s => .next s
  | d :: ds, s =>
    orRaise (colour s.ppu d.1.sel d.1.px[d.2.1][d.2.2]) s fun c =>
    plotDots ds (s.setPpu (s.ppu.setFrame (Cells.write s.ppu.frame d.cell c)))

theorem plotDots_append (ds es : List Dot) (s : State) :
    plotDots (ds ++ es) s = andThen (plotDots ds s) (plotDots es) := by
  induction ds generalizing s with
  | nil => rfl
  | cons d ds ih =>
    rw [List.cons_append, plotDots, plotDots]
    cases colour s.ppu d.1.sel d.1.px[d.2.1][d.2.2] with
    | error f => rfl
    | ok c => exact ih _

theorem plotPixels_eq (tile : Tile) (ps : List (Fin 8 × Fin 8)) (s : State) :
    plotPixels tile ps s = plotDots (tile.dotsAt ps) s := by
  induction ps generalizing s with
  | nil => rfl
  | cons q ps ih =>
    rw [Tile.dotsAt, List.map_cons, plotPixels, plotDots]
    exact congrArg (orRaise _ s) (funext fun c => ih _)

theorem plotTiles_eq (ts : List Tile) (s : State) : plotTiles ts s = plotDots (dotsOf ts) s := by
  induction ts generalizing s with
  | nil => rfl
  | cons tile ts ih =>
    rw [dotsOf_cons, plotDots_append, plotTiles, plotPixels_eq, funext ih]
    rfl

/-- The frame after the given dots, with palette RAM as in `p`. -/
def plotted (p : Ppu) (ds : List Dot) (f : FrameBuffer) : FrameBuffer :=
  ds.foldl (fun g d => Cells.write g d.cell (d.colour p)) f

theorem plotted_append (p : Ppu) (ds es : List Dot) (f : FrameBuffer) :
    plotted p (ds ++ es) f = plotted p es (plotted p ds f) := List.foldl_append

theorem plotted_wf (p : Ppu) (ds : List Dot) {f : FrameBuffer} (h : Cells.wf f = true) : Cells.wf (plotted p ds f) = true := by
  induction ds generalizing f with
  | nil => exact h
  | cons d ds ih => exact ih (Cells.wf_write h)

/-- The state after the given dots. -/
def State.afterDots (s : State) (ds : List Dot) : State :=
  s.setPpu (s.ppu.setFrame (plotted s.ppu ds s.ppu.frame))

/-- Dots whose palette bytes are below 64 are all written. -/
theorem plotDots_of_lt {ds : List Dot} (h : ∀ d ∈ ds, (d.byte s.ppu).toNat < 64) :
    plotDots ds s = .next (s.afterDots ds) := by
  induction ds generalizing s with
  | nil => rfl
  | cons d ds ih =>
    rw [plotDots, colour_of_lt (h d List.mem_cons_self), orRaise_ok]
    exact ih fun e he => h e (List.mem_cons_of_mem _ he)

/-- The first dot whose palette byte is not ends the rendering, with those before it written. -/
theorem plotDots_of_le {ds rest : List Dot} {d : Dot} (h : ∀ e ∈ ds, (e.byte s.ppu).toNat < 64)
    (hd : 64 ≤ (d.byte s.ppu).toNat) :
    plotDots (ds ++ d :: rest) s = raise (.storageOutOfRange .rgbTable (d.byte s.ppu).toNat) (s.afterDots ds) := by
  rw [plotDots_append, plotDots_of_lt h, andThen, plotDots]
  exact congrArg (fun r => orRaise r _ _) (colour_of_le hd)

/-- Where rendering goes through, every palette byte was below 64. -/
theorem plotDots_next {ds : List Dot} (h : plotDots ds s = .next t) : ∀ d ∈ ds, (d.byte s.ppu).toNat < 64 := by
  induction ds generalizing s with
  | nil => exact fun d hd => nomatch hd
  | cons d ds ih =>
    obtain ⟨c, hc, hnext⟩ := orRaise_next.mp h
    intro e he
    rcases List.mem_cons.mp he with rfl | he
    · by_contra hn
      exact nomatch (colour_of_le (Nat.not_lt.mp hn)).symm.trans hc
    · exact ih hnext e he

/-! ### What the frame shows -/

/-- A cell that is no dot's keeps its value. -/
theorem read_plotted_of_ne {ds : List Dot} {k : Nat} (h : ∀ d ∈ ds, d.cell ≠ k) (f : FrameBuffer) :
    Cells.read (plotted p ds f) k = Cells.read f k := by
  induction ds generalizing f with
  | nil => rfl
  | cons d ds ih =>
    exact (ih (fun e he => h e (List.mem_cons_of_mem _ he)) _).trans
      (Cells.read_write_other _ (h d List.mem_cons_self).symm)

/-- The last dot with a cell is the one it shows. -/
theorem read_plotted_of_last {ds es : List Dot} {d : Dot} {f : FrameBuffer} (hf : Cells.wf f = true)
    (h : ∀ e ∈ es, e.cell ≠ d.cell) : Cells.read (plotted p (ds ++ d :: es) f) d.cell = d.colour p := by
  rw [plotted_append]
  exact (read_plotted_of_ne h _).trans (Cells.read_write_same _ _ (plotted_wf p ds hf))

/-- After pixels of a tile, and dots that do not have its cell, each of those pixels shows its own colour. -/
theorem read_plotted_dotsAt {before after : List Dot} {tile : Tile} {ps : List (Fin 8 × Fin 8)} {f : FrameBuffer}
    (hf : Cells.wf f = true) (hps : ps.Nodup) {y x : Fin 8} (hmem : (y, x) ∈ ps)
    (h : ∀ e ∈ after, e.cell ≠ frameIndex tile y x) :
    Cells.read (plotted p (before ++ (tile.dotsAt ps ++ after)) f) (frameIndex tile y x) = Dot.colour p (tile, y, x) := by
  obtain ⟨pre, post, rfl⟩ := List.append_of_mem hmem
  have hpost : (y, x) ∉ post := (List.nodup_cons.mp (List.nodup_append.mp hps).2.1).1
  rw [Tile.dotsAt, List.map_append, List.map_cons, List.append_assoc, List.cons_append, ← List.append_assoc]
  refine read_plotted_of_last (d := (tile, y, x)) hf fun e he => ?_
  rcases List.mem_append.mp he with he | he
  · obtain ⟨q, hq, rfl⟩ := List.mem_map.mp he
    exact fun hc => hpost (frameIndex_inj hc ▸ hq)
  · exact h e he

/-- A pixel of the screen shows the colour of the last tile of a sequence that covers it, whatever dots follow that do not
have its cell. -/
theorem plotted_shows_last_cover {before after : List Tile} {tile : Tile} {more : List Dot} {f : FrameBuffer}
    (hf : Cells.wf f = true) (hlt : ∀ y x, (paletteByte p tile y x).toNat < 64) {x : Fin 256} {y : Fin 240}
    (hc : tile.Covers x y) (h : ∀ e ∈ dotsOf after ++ more, e.cell ≠ y.val * 256 + x.val) :
    ∃ h : (paletteByte p tile ⟨y.val % 8, by omega⟩ ⟨x.val % 8, by omega⟩).toNat < 64,
      Cells.read (plotted p (dotsOf (before ++ tile :: after) ++ more) f) (y.val * 256 + x.val) =
        Config.rgbTable ⟨_, h⟩ := by
  have hcell : frameIndex tile ⟨y.val % 8, by omega⟩ ⟨x.val % 8, by omega⟩ = y.val * 256 + x.val :=
    (Dot.cell_eq_iff (tile, _, _) x y).mpr ⟨hc, rfl, rfl⟩
  refine Dot.colour_eq (d := (tile, _, _)) (hlt _ _) ?_
  rw [dotsOf_append, dotsOf_cons, List.append_assoc, List.append_assoc, ← hcell]
  exact read_plotted_dotsAt hf pixelPositions_nodup (mem_pixelPositions _ _) (hcell ▸ h)

/-! ### The frame wrap (R217) -/

/-- The state in which a frame wrap renders: the dot counter reduced, the scanline 0. -/
def State.frameStart (s : State) (n : Nat) : State :=
  { s with ppu := { s.ppu with dot := s.ppu.dot + n - Config.dotWrapSub, scanline := 0 } }

theorem render_eq (s : State) : render s =
    andThen (plotDots (dotsOf s.ppu.tiles) s) fun t => .next (t.setPpu (t.ppu.setTiles [])) := by
  rw [render, plotTiles_eq]

/-- The state a rendered frame leaves: the dots of the sequence written, and the sequence empty. -/
def State.rendered (s : State) : State :=
  let u := s.afterDots (dotsOf s.ppu.tiles)
  u.setPpu (u.ppu.setTiles [])

theorem render_of_lt (h : ∀ d ∈ dotsOf s.ppu.tiles, (d.byte s.ppu).toNat < 64) : render s = .next s.rendered := by
  rw [render_eq, plotDots_of_lt h]
  rfl

theorem render_of_next (h : render s = .next t) :
    (∀ d ∈ dotsOf s.ppu.tiles, (d.byte s.ppu).toNat < 64) ∧ t = s.rendered := by
  have hlt : ∀ d ∈ dotsOf s.ppu.tiles, (d.byte s.ppu).toNat < 64 := by
    rw [render_eq] at h
    obtain ⟨u, hu, -⟩ := andThen_next.mp h
    exact plotDots_next hu
  exact ⟨hlt, Host.Outcome.next.inj (h.symm.trans (render_of_lt hlt))⟩

/-- Every dot of tiles whose palette bytes are below 64 has one below 64. -/
theorem byte_lt_of_tiles {ts : List Tile} (h : ∀ u ∈ ts, ∀ y x, (paletteByte p u y x).toNat < 64) :
    ∀ d ∈ dotsOf ts, (d.byte p).toNat < 64 :=
  fun d hd => h d.1 (mem_dotsOf.mp hd) d.2.1 d.2.2

/-- The first dot of the sequence whose palette byte is 64 or more ends the frame, with the dots before it written. -/
theorem render_of_le {before after : List Tile} {tile : Tile} {pre post : List (Fin 8 × Fin 8)} {y x : Fin 8}
    (hts : s.ppu.tiles = before ++ tile :: after) (hsplit : pixelPositions = pre ++ (y, x) :: post)
    (hlt : ∀ d ∈ dotsOf before ++ tile.dotsAt pre, (d.byte s.ppu).toNat < 64)
    (hle : 64 ≤ (paletteByte s.ppu tile y x).toNat) :
    render s = raise (.storageOutOfRange .rgbTable (paletteByte s.ppu tile y x).toNat)
      (s.afterDots (dotsOf before ++ tile.dotsAt pre)) := by
  have hdots : dotsOf s.ppu.tiles =
      (dotsOf before ++ tile.dotsAt pre) ++ (tile, y, x) :: (tile.dotsAt post ++ dotsOf after) := by
    rw [hts, dotsOf_append, dotsOf_cons, Tile.dots, hsplit]
    simp [Tile.dotsAt]
  rw [render_eq, hdots, plotDots_of_le (d := (tile, y, x)) hlt hle]
  rfl

/-- The dots before one of a tile have palette bytes below 64 if those of the tiles before and of the pixels before do. -/
theorem byte_lt_of_before {before : List Tile} {tile : Tile} {pre : List (Fin 8 × Fin 8)}
    (hbefore : ∀ u ∈ before, ∀ y x, (paletteByte p u y x).toNat < 64)
    (hpre : ∀ q ∈ pre, (paletteByte p tile q.1 q.2).toNat < 64) :
    ∀ d ∈ dotsOf before ++ tile.dotsAt pre, (d.byte p).toNat < 64 := by
  intro d hd
  rcases List.mem_append.mp hd with hd | hd
  · exact byte_lt_of_tiles hbefore d hd
  · obtain ⟨q, hq, rfl⟩ := List.mem_map.mp hd
    exact hpre q hq

/-- Settles O54: the wrap renders the dots of the sequence in order (`advance_frameWrap`, `render_eq`), and each cell shows the
last dot written to it. -/
theorem frameWrapRendersTheSequence : Obligations.FrameWrapRendersTheSequence := by
  intro s n hwf h261 hw
  have hadv : advance n s = render (s.frameStart n) := advance_frameWrap hw h261
  rw [hadv]
  refine ⟨fun t ht => ?_, fun h => ⟨_, render_of_lt (byte_lt_of_tiles h)⟩, fun before after tile y x hts hbefore hpre hle => ?_⟩
  · obtain ⟨hlt, rfl⟩ := render_of_next ht
    refine ⟨rfl, rfl, rfl, fun x y => ⟨fun hn => read_plotted_of_ne (cell_ne_of_not_covers hn) _, ?_⟩⟩
    intro before after tile hts hc hafter
    have hmem : tile ∈ s.ppu.tiles := hts ▸ List.mem_append_right _ List.mem_cons_self
    have hshows := plotted_shows_last_cover (p := s.ppu) (before := before) (more := []) hwf
      (fun y x => hlt (tile, y, x) (mem_dotsOf.mpr hmem)) hc (by rw [List.append_nil]; exact cell_ne_of_not_covers hafter)
    rw [List.append_nil, ← hts] at hshows
    exact hshows
  · obtain ⟨pre, post, hsplit, hmem⟩ := pixelPositions_split y x
    have hnodup : pre.Nodup := (List.nodup_append.mp (hsplit ▸ pixelPositions_nodup)).1
    have hlt := byte_lt_of_before hbefore fun q hq => hpre q.1 q.2 ((hmem q).mp hq)
    refine ⟨_, render_of_le (s := s.frameStart n) hts hsplit hlt hle, rfl, rfl, rfl, fun y' x' hb => ?_,
      fun b1 b2 u px py hb hc hv => ?_, fun px py hn => ?_⟩
    · have hread := read_plotted_dotsAt (p := s.ppu) (before := dotsOf before) (after := []) (tile := tile) hwf hnodup
        ((hmem (y', x')).mpr hb) (fun e he => nomatch he)
      rw [List.append_nil] at hread
      exact Dot.colour_eq (p := s.ppu) (d := (tile, y', x')) (hpre y' x' hb) hread
    · subst hb
      exact plotted_shows_last_cover (p := s.ppu) hwf (hbefore u (by simp)) hc
        fun e he => cell_ne_of_not_covers hv e (mem_dotsOf_snoc he)
    · exact read_plotted_of_ne (fun d hd => cell_ne_of_not_covers hn d (mem_dotsOf_snoc hd)) _

end Sys2Proof.Machine

/-! PROOFS. `advance` cannot fault where rendering cannot (`45_ppu_render_pipeline.md` R229). -/

namespace Sys2Proof.Machine

variable {s : State}

/-- Rendering reaches the palette cells 0 to 15 only: no such index is a mirrored one. -/
theorem paletteByte_lt_of_renderable (h : s.Renderable) (tile : Tile) (y x : Fin 8) :
    (paletteByte s.ppu tile y x).toNat < 64 := by
  obtain ⟨-, -, hpal⟩ := h
  have hsel := tile.sel.isLt
  have hpx := tile.px[y][x].isLt
  have hi : tile.sel.toNat * 4 + tile.px[y][x].toNat < 16 := by omega
  rw [paletteByte, palIndex, if_neg (by omega)]
  exact hpal _ hi

/-- Settles O55, by where the dots and the scanline put the call: below the wrap, at the frame wrap, at a band, or at another
scanline. -/
theorem advanceCannotFaultWhenRenderable : Obligations.AdvanceCannotFaultWhenRenderable := by
  intro s n h
  obtain ⟨hbank, hoff, -⟩ := id h
  by_cases hbelow : s.ppu.dot + n < 341
  · exact ⟨_, advance_below hbelow⟩
  have hw : 341 ≤ s.ppu.dot + n := by omega
  by_cases hframe : s.ppu.scanline = 261
  · rw [advance_frameWrap hw hframe]
    exact ⟨_, render_of_lt fun d _ => paletteByte_lt_of_renderable h d.1 d.2.1 d.2.2⟩
  by_cases hband : s.ppu.scanline + 1 ≤ 240 ∧ (s.ppu.scanline + 1) % 8 = 0
  · obtain ⟨hrow, -, hin⟩ := bandAppendsTheTileRow s n hbank hw hband.1 hband.2
    obtain ⟨ts, -, -, hnext⟩ := hrow (hin hoff)
    exact ⟨_, hnext⟩
  · exact ⟨_, advance_wrap_alone hw hframe (by omega)⟩

end Sys2Proof.Machine
